-- ==== Sys2Proof/Word.lean ====
section
/-! DEFINITION. The words of display_protocol_fsm: the bus moves bytes (20_memory.md R69) and a window bound or
a pixel is 16 bits (R70). Everything else of this hardware is an integer, a natural number or a name (00_scope.md R12). -/

namespace Sys2Proof

/-- One byte on the bus or at the operation port (20_memory.md R69). -/
abbrev Byte := BitVec 8

/-- A window bound or one RGB565 pixel (20_memory.md R70, 00_scope.md R18). -/
abbrev Half := BitVec 16

end Sys2Proof
end

