-- ==== Sys2Proof/Config.lean ====
section
/-! DEFINITION. The implementation parameters of 00_scope.md R9 and the free values.

Every parameter is a field of the machine's state (State.par, or the configuration register the spec gives it), so a
statement about every state is a statement about every value of every parameter. The constants below are only what
State.reset puts there: a definition where R9 proposes a default, an opaque constant (no value can be proved of it)
where R9 leaves the parameter OPEN. The free values at the end answer for the external agents and for whatever the
spec calls 'any value': each is opaque and is applied to a counter of State. -/

namespace Sys2Proof

/-- The six named command bytes of the bus (00_scope.md R9, 92_eei_decisions.md D8). -/
structure CmdBytes where
  caset  : Byte
  paset  : Byte
  ramwr  : Byte
  ramrd  : Byte
  slpout : Byte
  dispon : Byte
  deriving DecidableEq, Repr, Inhabited

/-- The six named command bytes, as a list. -/
def CmdBytes.all (c : CmdBytes) : List Byte :=
  [c.caset, c.paset, c.ramwr, c.ramrd, c.slpout, c.dispon]

/-- "The six must be pairwise distinct" (92_eei_decisions.md D8). -/
abbrev CmdBytes.Distinct (c : CmdBytes) : Prop := c.all.Nodup

/-- One entry (command byte, parameter bytes) of the handshake (30_encoding.md R114). -/
structure InitEntry where
  cmd    : Byte
  params : List Byte
  deriving DecidableEq, Repr, Inhabited

/-- INIT_SEQ by its seven groups, in the order of 40_display_protocol.md R136. -/
structure InitGroups where
  power           : List InitEntry
  vcom            : List InitEntry
  memoryAccess    : List InitEntry
  pixelFormat     : List InitEntry
  frameRate       : List InitEntry
  displayFunction : List InitEntry
  gamma           : List InitEntry
  deriving DecidableEq, Repr, Inhabited

/-- INIT_SEQ: "the concatenation, in this order, of seven non-empty groups" (R136). -/
def InitGroups.seq (g : InitGroups) : List InitEntry :=
  g.power ++ g.vcom ++ g.memoryAccess ++ g.pixelFormat ++ g.frameRate ++ g.displayFunction ++ g.gamma

/-- What R136 requires of INIT_SEQ: every group non-empty, neither sleep-out nor display-on among the commands. -/
abbrev InitGroups.Shape (g : InitGroups) (c : CmdBytes) : Prop :=
  (g.power ≠ [] ∧ g.vcom ≠ [] ∧ g.memoryAccess ≠ [] ∧ g.pixelFormat ≠ [] ∧ g.frameRate ≠ [] ∧
    g.displayFunction ≠ [] ∧ g.gamma ≠ []) ∧
  ∀ e ∈ g.seq, e.cmd ≠ c.slpout ∧ e.cmd ≠ c.dispon

/-- How the Game ends a callback (43_frame_scheduler.md R254): `ok`, with a Boolean that only shouldRedraw's
caller looks at; `fail`; or it never answers (60_exceptions.md R302). -/
inductive Reply where
  | ok (redraw : Bool)
  | fail
  | never
  deriving DecidableEq, Repr, Inhabited

/-- What the Game does in one callback: the operations it issues, each as the bytes it presents at the operation
port (43_frame_scheduler.md R255), then its answer. -/
structure GameAnswer where
  ops   : List (List Byte)
  reply : Reply
  deriving DecidableEq, Repr, Inhabited

/-- What one call of the InputProvider gives (42_input_edge_gesture.md R222; fail: 60_exceptions.md R292;
never: R302). -/
inductive ProviderAnswer where
  | levels (raw : BitVec 6)
  | fail
  | never
  deriving DecidableEq, Repr, Inhabited

/-- The parameters of 00_scope.md R9 that are no register of 10_state.md R50. They are constant for a machine
(R49), and hold no function. -/
structure Params where
  /-- RST_LOW_MS, a lower bound in milliseconds -/
  rstLowMs      : Nat
  /-- RST_HIGH_MS -/
  rstHighMs     : Nat
  /-- SLPOUT_MS -/
  slpoutMs      : Nat
  /-- DISPON_MS -/
  disponMs      : Nat
  /-- CMD_CASET .. CMD_DISPON -/
  cmds          : CmdBytes
  /-- INIT_SEQ by groups -/
  init          : InitGroups
  /-- DC_CMD, the level of the command/data line for a command -/
  dcCmd         : Bool
  /-- DC_DATA, its level for data -/
  dcData        : Bool
  /-- CHUNK_BYTES, even and at least 2, not observable in the flat trace (R106) -/
  chunkBytes    : Nat
  /-- FontBit as a table: a character code and its 8 by 8 bits, row 0 in the top byte, column 0 the top bit of a row;
  a code the table does not list has the blank glyph, so every total FontBit is some table -/
  font          : List (Byte × BitVec 64)
  /-- CACHE_CAPACITY; none is unbounded -/
  cacheCapacity : Option Nat
  /-- HAS_PROVIDER -/
  hasProvider   : Bool
  deriving DecidableEq, Repr, Inhabited

namespace Config

/-- WIDTH: R9's default, the source's "240-wide surface". -/
def width : Half := 240
/-- HEIGHT: R9's default, [from general knowledge, not in source]. -/
def height : Half := 320
/-- THRESH_MS (R9). -/
def threshMs : Nat := 400
/-- The command bytes' defaults (R9, [from general knowledge, not in source]); spec/opcode_table.json's BUS_FRAME
rows match on these. -/
def cmdBytes : CmdBytes :=
  { caset := 0x2A, paset := 0x2B, ramwr := 0x2C, ramrd := 0x2E, slpout := 0x11, dispon := 0x29 }

/-- PERIOD_MS less one: R9 leaves the period OPEN and positive (92_eei_decisions.md D27). -/
opaque periodPred : Nat
/-- PERIOD_MS, "a positive integer of milliseconds" (R9). -/
def periodMs : Nat := periodPred + 1
/-- INIT_SEQ is OPEN (R9, D9): no byte of it is in the source. Group k of R136 begins with this entry. -/
opaque initFirst : Nat → InitEntry
/-- The entries of group k after its first. -/
opaque initRest : Nat → List InitEntry
/-- An entry R136 allows: neither sleep-out nor display-on. Those two bytes, if the open entry holds one, give way to
byte 0; every allowed entry is the open entry's own value, so none is left out (log entry 28). -/
def allowedEntry (e : InitEntry) : InitEntry :=
  if e.cmd = cmdBytes.slpout ∨ e.cmd = cmdBytes.dispon then { e with cmd := 0 } else e
/-- Group k of INIT_SEQ, which is not empty. -/
def initGroup (k : Nat) : List InitEntry := allowedEntry (initFirst k) :: (initRest k).map allowedEntry
/-- INIT_SEQ: seven non-empty groups of allowed entries, otherwise open; "a parameter that must be" of this shape
(40_display_protocol.md R136). -/
def initGroups : InitGroups :=
  { power := initGroup 0, vcom := initGroup 1, memoryAccess := initGroup 2, pixelFormat := initGroup 3
    frameRate := initGroup 4, displayFunction := initGroup 5, gamma := initGroup 6 }
/-- FontBit, OPEN (R9, D19). -/
opaque font : List (Byte × BitVec 64)
/-- CACHE_CAPACITY, OPEN (R9, D24). -/
opaque cacheCapacity : Option Nat
/-- HAS_PROVIDER, OPEN (R9, D39). -/
opaque hasProvider : Bool
/-- HANDLERS, OPEN (R9, D38). -/
opaque handlers : BitVec 8

/-- The parameters State.reset starts with. CHUNK_BYTES is "any integer ≥ 2 and even; unobservable" (R9, D18):
64 is this model's choice (log entry 6). -/
def params : Params :=
  { rstLowMs := 50, rstHighMs := 50, slpoutMs := 120, disponMs := 20
    cmds := cmdBytes, init := initGroups, dcCmd := false, dcData := true
    chunkBytes := 64, font := font, cacheCapacity := cacheCapacity, hasProvider := hasProvider }

/-! ### Free values: nothing in Lean can evaluate them or prove a value of them. -/

/-- Draw n, field k: whatever number an undefined panel register holds (20_memory.md R84, 10_state.md R31). -/
opaque freeNat : Nat → Nat → Nat
/-- Draw n: a byte read from the panel where the spec says 'any value' (20_memory.md R83). -/
opaque freeByte : Nat → Byte
/-- Draw n: whatever the panel's pixel memory holds once DEVU is set (10_state.md R31). -/
opaque freeCells : Nat → List (Nat × Byte)
/-- Draw n: whatever PAN.CFG holds once DEVU is set (10_state.md R31). -/
opaque freePanCfg : Nat → List (Byte × List Byte)
/-- Question n to the Clock: how far it has advanced since its last answer, beyond what a Sleep in between
guarantees (43_frame_scheduler.md R252, R268). -/
opaque freeClock : Nat → Nat
/-- Question n to the InputProvider (42_input_edge_gesture.md R222). -/
opaque freeProvider : Nat → ProviderAnswer
/-- Question n to the Game (43_frame_scheduler.md R254, R255). -/
opaque freeGame : Nat → GameAnswer
/-- Question n to the resource store; none is `absent` (20_memory.md R66). -/
opaque freeResource : Nat → Option (List Byte)

end Config
end Sys2Proof
end

