-- ==== Sys2Proof/Syntax.lean ====
section
/-! DEFINITION. The abstract syntax: one constructor per row of spec/opcode_table.json. The abstract operation (a
mnemonic and its operand values) is what is normative (30_encoding.md R90); the bytes are Decode.lean's. -/

namespace Sys2Proof

/-- The operations of the port (30_encoding.md R91), the tick phases of RUN (R112) and the command frames of the
bus (R107). Coordinates, sizes and scales are integers (R95, 00_scope.md R12); a colour is 16 bits, a background
`none` or 16 bits (41_graphics_surface.md R172); text, names and buffers are byte sequences. -/
inductive Instr where
  -- unit DP (40_display_protocol.md)
  | reset
  | init
  | setwin (x0 y0 x1 y1 : Int)
  | setwinrd (x0 y0 x1 y1 : Int)
  | wrpix (buf : List Byte)
  | rdpix (n : Nat)
  -- unit GS (41_graphics_surface.md)
  | clear (color : Half)
  | fillrect (x y w h : Int) (color : Half)
  | safefillrect (x y w h : Int) (color : Half)
  | drawimage (x y w h : Int) (buf : List Byte)
  | textsize (text : List Byte) (scale : Int)
  | drawtext (x y : Int) (text : List Byte) (color : Half) (background : Option Half) (scale : Int)
  | rendertext (text : List Byte) (color : Half) (background : Option Half) (scale : Int)
  | clearcaches
  | loadsprite (name : List Byte) (w h : Int)
  -- unit FS at the port (43_frame_scheduler.md)
  | run
  | stop
  -- the tick phases of RUN (FS.PH 0 to 7)
  | tickstart
  | sample
  | edge
  | dispatch
  | gesture
  | update
  | draw
  | pace
  -- the command frames of the bus (30_encoding.md R107)
  | busCaset (x0 x1 : Half)
  | busPaset (y0 y1 : Half)
  | busRamwr
  | busRamrd
  | busSlpout
  | busDispon
  | busInitEntry (cmd : Byte) (params : List Byte)
  deriving DecidableEq, Repr

/-- The three languages an instruction word can belong to: an operation presented at the port, the value of FS.PH,
a frame on the bus (30_encoding.md R91, R112, R107). -/
inductive Space where
  | port
  | phase
  | frame
  deriving DecidableEq, Repr

/-- Which language an instruction belongs to. -/
def Instr.space : Instr → Space
  | .reset | .init | .setwin .. | .setwinrd .. | .wrpix .. | .rdpix .. => .port
  | .clear .. | .fillrect .. | .safefillrect .. | .drawimage .. | .textsize .. => .port
  | .drawtext .. | .rendertext .. | .clearcaches | .loadsprite .. | .run | .stop => .port
  | .tickstart | .sample | .edge | .dispatch | .gesture | .update | .draw | .pace => .phase
  | .busCaset .. | .busPaset .. | .busRamwr | .busRamrd => .frame
  | .busSlpout | .busDispon | .busInitEntry .. => .frame

/-- The nine operations of unit GS (41_graphics_surface.md). -/
def Instr.isSurface : Instr → Bool
  | .clear _ | .fillrect .. | .safefillrect .. | .drawimage .. | .textsize .. => true
  | .drawtext .. | .rendertext .. | .clearcaches | .loadsprite .. => true
  | .reset | .init | .setwin .. | .setwinrd .. | .wrpix _ | .rdpix _ | .run | .stop => false
  | .tickstart | .sample | .edge | .dispatch | .gesture | .update | .draw | .pace => false
  | .busCaset .. | .busPaset .. | .busRamwr | .busRamrd | .busSlpout | .busDispon | .busInitEntry .. => false

end Sys2Proof
end

