-- ==== Sys2Proof/WellFormed.lean ====
section
/-! DEFINITION. Which abstract operations have an encoding: the operand ranges of 30_encoding.md R93, R94. -/

namespace Sys2Proof

/-- The value of a `u16` field (R94). -/
def inU16 (v : Int) : Bool := decide (0 ≤ v ∧ v ≤ 65535)
/-- The value of an `s16` field, COORD_BITS = 16 (R94). -/
def inS16 (v : Int) : Bool := decide (-32768 ≤ v ∧ v ≤ 32767)
/-- A length that fits a `u32` field. -/
def inU32 (n : Nat) : Bool := decide (n < 4294967296)
/-- A length that fits a `u16` field. -/
def inLen16 (n : Nat) : Bool := decide (n < 65536)

/-- Every operand is in the range of its field (R93, R94); a handshake entry's command is none of the six named
bytes, whose frames have constructors of their own (R107, 40_display_protocol.md R136). -/
def Instr.wf : Instr → Bool
  | .reset | .init | .clearcaches | .run | .stop => true
  | .setwin x0 y0 x1 y1 | .setwinrd x0 y0 x1 y1 => inU16 x0 && inU16 y0 && inU16 x1 && inU16 y1
  | .wrpix buf => inU32 buf.length
  | .rdpix n => inU32 n
  | .clear _ => true
  | .fillrect x y w h _ | .safefillrect x y w h _ => inS16 x && inS16 y && inS16 w && inS16 h
  | .drawimage x y w h buf => inS16 x && inS16 y && inS16 w && inS16 h && inU32 buf.length
  | .textsize text scale => inS16 scale && inLen16 text.length
  | .drawtext x y text _ _ scale => inS16 x && inS16 y && inS16 scale && inLen16 text.length
  | .rendertext text _ _ scale => inS16 scale && inLen16 text.length
  | .loadsprite name w h => inS16 w && inS16 h && inLen16 name.length
  | .tickstart | .sample | .edge | .dispatch | .gesture | .update | .draw | .pace => true
  | .busCaset _ _ | .busPaset _ _ | .busRamwr | .busRamrd | .busSlpout | .busDispon => true
  | .busInitEntry cmd _ => !(Config.cmdBytes.all.contains cmd)

/-- An instruction that has an encoding. -/
abbrev Instr.WellFormed (i : Instr) : Prop := i.wf = true

end Sys2Proof
end

