-- ==== Sys2Proof/Decode.lean ====
section
/-! DEFINITION. The encodings of 30_encoding.md: a decoder for each of the three languages, total on any bytes and
rejecting by name, and after it the encoder. Multi-byte fields are big-endian (R93, 20_memory.md R67). -/

namespace Sys2Proof

/-- Why bytes are no instruction (30_encoding.md R96). -/
inductive DecodeError where
  /-- "every code not in rule R91" -/
  | reservedCode (code : Byte)
  /-- "a `bgf` other than 0 or 1" -/
  | reservedBackground (bgf : Byte)
  /-- "an operation shorter than its format" -/
  | truncated
  /-- bytes left over after the operation's last field: no format has that length (R93) -/
  | trailing
  deriving DecidableEq, Repr

/-! ### Fields -/

/-- BE16 (00_scope.md R11): high byte, then low byte. -/
def be16 (v : Half) : List Byte := [v.extractLsb' 8 8, v.extractLsb' 0 8]

/-- A 32-bit field, most significant byte first. -/
def be32 (v : BitVec 32) : List Byte :=
  [v.extractLsb' 24 8, v.extractLsb' 16 8, v.extractLsb' 8 8, v.extractLsb' 0 8]

/-- The 16 bits of two bytes, high byte first (20_memory.md R67). -/
def half (hi lo : Byte) : Half := hi ++ lo

/-- The 32 bits of four bytes, most significant first. -/
def word32 (a b c d : Byte) : BitVec 32 := half a b ++ half c d

/-- Read one byte and go on. -/
def takeByte {α : Type} (bs : List Byte) (k : Byte → List Byte → Except DecodeError α) : Except DecodeError α :=
  match bs with
  | b :: r => k b r
  | [] => .error .truncated

/-- Read a 16-bit field and go on. -/
def take16 {α : Type} (bs : List Byte) (k : Half → List Byte → Except DecodeError α) : Except DecodeError α :=
  match bs with
  | h :: l :: r => k (half h l) r
  | _ => .error .truncated

/-- Read a 32-bit field and go on. -/
def take32 {α : Type} (bs : List Byte) (k : BitVec 32 → List Byte → Except DecodeError α) : Except DecodeError α :=
  match bs with
  | a :: b :: c :: d :: r => k (word32 a b c d) r
  | _ => .error .truncated

/-- Read n bytes and go on. -/
def takeBytes {α : Type} (n : Nat) (bs : List Byte) (k : List Byte → List Byte → Except DecodeError α) :
    Except DecodeError α :=
  if n ≤ bs.length then k (bs.take n) (bs.drop n) else .error .truncated

/-- The pair (bgf, bg): 0 is no background and its bg is ignored, 1 a background, the rest reserved (R94, R96). -/
def takeBackground {α : Type} (bs : List Byte) (k : Option Half → List Byte → Except DecodeError α) :
    Except DecodeError α :=
  takeByte bs fun bgf r => take16 r fun bg r =>
    match bgf.toNat with
    | 0 => k none r
    | 1 => k (some bg) r
    | _ => .error (.reservedBackground bgf)

/-! ### The operation port (R91, R93) -/

/-- Format FW. -/
def decodeFW (mk : Int → Int → Int → Int → Instr) (r : List Byte) : Except DecodeError (Instr × List Byte) :=
  take16 r fun x0 r => take16 r fun y0 r => take16 r fun x1 r => take16 r fun y1 r =>
    .ok (mk x0.toNat y0.toNat x1.toNat y1.toNat, r)

/-- Format FR. -/
def decodeFR (mk : Int → Int → Int → Int → Half → Instr) (r : List Byte) : Except DecodeError (Instr × List Byte) :=
  take16 r fun x r => take16 r fun y r => take16 r fun w r => take16 r fun h r => take16 r fun color r =>
    .ok (mk x.toInt y.toInt w.toInt h.toInt color, r)

/-- Format FI. -/
def decodeFI (r : List Byte) : Except DecodeError (Instr × List Byte) :=
  take16 r fun x r => take16 r fun y r => take16 r fun w r => take16 r fun h r => take32 r fun len r =>
    takeBytes len.toNat r fun buf r => .ok (.drawimage x.toInt y.toInt w.toInt h.toInt buf, r)

/-- Format FT. -/
def decodeFT (r : List Byte) : Except DecodeError (Instr × List Byte) :=
  take16 r fun scale r => take16 r fun tlen r => takeBytes tlen.toNat r fun text r =>
    .ok (.textsize text scale.toInt, r)

/-- Format FD. -/
def decodeFD (r : List Byte) : Except DecodeError (Instr × List Byte) :=
  take16 r fun x r => take16 r fun y r => take16 r fun color r => takeBackground r fun bg r =>
    take16 r fun scale r => take16 r fun tlen r => takeBytes tlen.toNat r fun text r =>
      .ok (.drawtext x.toInt y.toInt text color bg scale.toInt, r)

/-- Format FK. -/
def decodeFK (r : List Byte) : Except DecodeError (Instr × List Byte) :=
  take16 r fun color r => takeBackground r fun bg r => take16 r fun scale r => take16 r fun tlen r =>
    takeBytes tlen.toNat r fun text r => .ok (.rendertext text color bg scale.toInt, r)

/-- Format FL. -/
def decodeFL (r : List Byte) : Except DecodeError (Instr × List Byte) :=
  take16 r fun w r => take16 r fun h r => take16 r fun nlen r => takeBytes nlen.toNat r fun name r =>
    .ok (.loadsprite name w.toInt h.toInt, r)

/-- The codes of 30_encoding.md R91. -/
def operationCodes : List Byte :=
  [0x01, 0x02, 0x03, 0x04, 0x05, 0x06, 0x10, 0x11, 0x12, 0x13, 0x14, 0x15, 0x16, 0x17, 0x18, 0x20, 0x21]

/-- An operation of the port and the bytes after it: the codes of 30_encoding.md R91. -/
def decodeOp (bs : List Byte) : Except DecodeError (Instr × List Byte) :=
  takeByte bs fun code r =>
    match code.toNat with
    | 0x01 => .ok (.reset, r)
    | 0x02 => .ok (.init, r)
    | 0x03 => decodeFW .setwin r
    | 0x04 => decodeFW .setwinrd r
    | 0x05 => take32 r fun len r => takeBytes len.toNat r fun buf r => .ok (.wrpix buf, r)
    | 0x06 => take32 r fun n r => .ok (.rdpix n.toNat, r)
    | 0x10 => take16 r fun color r => .ok (.clear color, r)
    | 0x11 => decodeFR .fillrect r
    | 0x12 => decodeFR .safefillrect r
    | 0x13 => decodeFI r
    | 0x14 => decodeFT r
    | 0x15 => decodeFD r
    | 0x16 => decodeFK r
    | 0x17 => .ok (.clearcaches, r)
    | 0x18 => decodeFL r
    | 0x20 => .ok (.run, r)
    | 0x21 => .ok (.stop, r)
    | _ => .error (.reservedCode code)

/-- One whole operation as presented at the port: its bytes are exactly those of its format (R93). -/
def decodePort (bs : List Byte) : Except DecodeError Instr :=
  match decodeOp bs with
  | .ok (i, []) => .ok i
  | .ok (_, _ :: _) => .error .trailing
  | .error e => .error e

/-! ### The tick phases (R112) and the frames of the bus (R107) -/

/-- The phase whose number FS.PH holds: all eight values are phases. -/
def decodePhase (ph : BitVec 3) : Instr :=
  match ph.toNat with
  | 0 => .tickstart
  | 1 => .sample
  | 2 => .edge
  | 3 => .dispatch
  | 4 => .gesture
  | 5 => .update
  | 6 => .draw
  | _ => .pace

/-- A command frame: the command byte, then its parameter bytes; any command that is none of the six named ones is
a handshake entry and all the bytes that follow are its parameters. -/
def decodeFrame (c : CmdBytes) (bs : List Byte) : Except DecodeError (Instr × List Byte) :=
  takeByte bs fun cmd r =>
    if cmd = c.caset then take16 r fun x0 r => take16 r fun x1 r => .ok (.busCaset x0 x1, r)
    else if cmd = c.paset then take16 r fun y0 r => take16 r fun y1 r => .ok (.busPaset y0 y1, r)
    else if cmd = c.ramwr then .ok (.busRamwr, r)
    else if cmd = c.ramrd then .ok (.busRamrd, r)
    else if cmd = c.slpout then .ok (.busSlpout, r)
    else if cmd = c.dispon then .ok (.busDispon, r)
    else .ok (.busInitEntry cmd r, [])

/-- The decoder: bytes of one of the three languages; a phase is the low three bits of one byte, the rest zero. -/
def decode (sp : Space) (bs : List Byte) : Except DecodeError (Instr × List Byte) :=
  match sp with
  | .port => decodeOp bs
  | .phase => takeByte bs fun b r => if b.toNat < 8 then .ok (decodePhase (b.setWidth 3), r) else .error (.reservedCode b)
  | .frame => decodeFrame Config.cmdBytes bs

/-! ### The encoder, from the same tables -/

/-- An `s16` (or `u16`) field holding v. -/
def field16 (v : Int) : List Byte := be16 (BitVec.ofInt 16 v)
/-- A `u16` length field. -/
def len16 (n : Nat) : List Byte := be16 (BitVec.ofNat 16 n)
/-- A `u32` field. -/
def len32 (n : Nat) : List Byte := be32 (BitVec.ofNat 32 n)

/-- The fields bgf and bg (R94). -/
def encodeBackground (bg : Option Half) : List Byte :=
  match bg with
  | none => 0 :: be16 0
  | some c => 1 :: be16 c

/-- The words of an instruction in its own language (R93, R107, R112); frames with the default command bytes. -/
def encode (i : Instr) : List Byte :=
  match i with
  | .reset => [0x01]
  | .init => [0x02]
  | .setwin x0 y0 x1 y1 => 0x03 :: (field16 x0 ++ field16 y0 ++ field16 x1 ++ field16 y1)
  | .setwinrd x0 y0 x1 y1 => 0x04 :: (field16 x0 ++ field16 y0 ++ field16 x1 ++ field16 y1)
  | .wrpix buf => 0x05 :: (len32 buf.length ++ buf)
  | .rdpix n => 0x06 :: len32 n
  | .clear color => 0x10 :: be16 color
  | .fillrect x y w h color => 0x11 :: (field16 x ++ field16 y ++ field16 w ++ field16 h ++ be16 color)
  | .safefillrect x y w h color => 0x12 :: (field16 x ++ field16 y ++ field16 w ++ field16 h ++ be16 color)
  | .drawimage x y w h buf =>
    0x13 :: (field16 x ++ field16 y ++ field16 w ++ field16 h ++ len32 buf.length ++ buf)
  | .textsize text scale => 0x14 :: (field16 scale ++ len16 text.length ++ text)
  | .drawtext x y text color bg scale =>
    0x15 :: (field16 x ++ field16 y ++ be16 color ++ encodeBackground bg ++ field16 scale ++ len16 text.length ++ text)
  | .rendertext text color bg scale =>
    0x16 :: (be16 color ++ encodeBackground bg ++ field16 scale ++ len16 text.length ++ text)
  | .clearcaches => [0x17]
  | .loadsprite name w h => 0x18 :: (field16 w ++ field16 h ++ len16 name.length ++ name)
  | .run => [0x20]
  | .stop => [0x21]
  | .tickstart => [0]
  | .sample => [1]
  | .edge => [2]
  | .dispatch => [3]
  | .gesture => [4]
  | .update => [5]
  | .draw => [6]
  | .pace => [7]
  | .busCaset x0 x1 => Config.cmdBytes.caset :: (be16 x0 ++ be16 x1)
  | .busPaset y0 y1 => Config.cmdBytes.paset :: (be16 y0 ++ be16 y1)
  | .busRamwr => [Config.cmdBytes.ramwr]
  | .busRamrd => [Config.cmdBytes.ramrd]
  | .busSlpout => [Config.cmdBytes.slpout]
  | .busDispon => [Config.cmdBytes.dispon]
  | .busInitEntry cmd params => cmd :: params

/-- "The length of an operation is 1 byte plus its fields" (R93); a phase is one byte; a frame is its command byte and
its parameter bytes (R107). -/
def Instr.bytes (i : Instr) : Nat :=
  match i with
  | .reset | .init | .clearcaches | .run | .stop => 1
  | .setwin .. | .setwinrd .. => 1 + 4 * 2
  | .wrpix buf => 1 + 4 + buf.length
  | .rdpix _ => 1 + 4
  | .clear _ => 1 + 2
  | .fillrect .. | .safefillrect .. => 1 + 5 * 2
  | .drawimage _ _ _ _ buf => 1 + 4 * 2 + 4 + buf.length
  | .textsize text _ => 1 + 2 * 2 + text.length
  | .drawtext _ _ text _ _ _ => 1 + 3 * 2 + 1 + 3 * 2 + text.length
  | .rendertext text _ _ _ => 1 + 2 + 1 + 3 * 2 + text.length
  | .loadsprite name _ _ => 1 + 3 * 2 + name.length
  | .tickstart | .sample | .edge | .dispatch | .gesture | .update | .draw | .pace => 1
  | .busCaset .. | .busPaset .. => 1 + 4
  | .busRamwr | .busRamrd | .busSlpout | .busDispon => 1
  | .busInitEntry _ params => 1 + params.length

/-! ### Words as spec/opcode_table.json numbers them -/

/-- The bytes of a table word: byte k is bits 8k+7..8k of w, then zeros up to the longest operation whose length
fields are zero (format FD, 14 bytes). -/
def tableBytes (nbits w : Nat) : List Byte :=
  (List.range (nbits / 8)).map (fun k => BitVec.ofNat 8 (w / 2 ^ (8 * k))) ++ List.replicate 14 0

/-- The instruction the decoders read from a table word. The table's three languages share words (0x01 is RESET and
SAMPLE, 0x11 is FILLRECT and BUS_SLPOUT): the port is asked first, then, for a word that is no operation, the tick
phases, then the named frames (log entry 30). A word of three bits or fewer is a phase. -/
def decodeTableWord (nbits w : Nat) : Option Instr :=
  if nbits ≤ 3 then
    if w < 8 then some (decodePhase (BitVec.ofNat 3 w)) else none
  else
    match decodeOp (tableBytes nbits w) with
    | .ok (i, _) => some i
    | .error _ =>
      if w < 8 then some (decodePhase (BitVec.ofNat 3 w))
      else
        match decodeFrame Config.cmdBytes (tableBytes nbits w) with
        | .ok (.busInitEntry _ _, _) => none
        | .ok (i, _) => some i
        | .error _ => none

end Sys2Proof
end

