-- ==== Sys2Proof/Machine/State.lean ====
section
/-! DEFINITION. The state of the machine, as plain data: every register of 10_state.md, the panel on the far side of
the bus, what the external agents will answer, and the event trace; its value after power-on reset; and the reasons a
step can stop. -/

namespace Sys2Proof.Machine

/-! ### Unit DP -/

/-- DP.WIN (10_state.md R21): the last window written to the panel. -/
structure Window where
  x0 : Half
  y0 : Half
  x1 : Half
  y1 : Half
  deriving DecidableEq, Repr

/-- The values of DP.MODE (R23) and PAN.MODE (R28): 0, 1, 2; the value 3 does not exist. -/
inductive StreamMode where
  | none
  | write
  | read
  deriving DecidableEq, Repr

/-- The values of DP.ST (R24). -/
inductive DpState where
  | idle
  | rstLow
  | rstHigh
  | initCmd
  | initDat
  | slpout
  | dispon
  | colCmd
  | colDat
  | rowCmd
  | rowDat
  | ramCmd
  | tx
  | rx
  deriving DecidableEq, Repr

/-- The registers of unit DP (R21 to R26). -/
structure DpRegs where
  /-- DP.WIN -/
  win   : Window
  /-- DP.MODE -/
  mode  : StreamMode
  /-- DP.ST -/
  st    : DpState
  /-- DP.SEQ -/
  seq   : Nat
  /-- DP.RSTD -/
  rstd  : Bool
  /-- DP.INITD -/
  initd : Bool
  deriving DecidableEq, Repr

/-- The output pins of unit DP (R27); true is level 1. -/
structure Pins where
  /-- CS_n -/
  csN  : Bool
  /-- DC -/
  dc   : Bool
  /-- RST_n -/
  rstN : Bool
  deriving DecidableEq, Repr

/-! ### The reference panel -/

/-- PAN.GRAM as bytes (R29, 20_memory.md R62): the pixel of cell (x,y) is the two bytes, high then low, at addresses
2*(65536*y + x) and the next one. An address that is not listed holds `undef`. -/
abbrev Memory := List Host.Cell

/-- The registers of the reference panel (10_state.md R28, R29). -/
structure Panel where
  /-- PAN.XS, PAN.XE, PAN.YS, PAN.YE -/
  xs    : Half
  xe    : Half
  ys    : Half
  ye    : Half
  /-- PAN.MODE -/
  mode  : StreamMode
  /-- PAN.PTR, the index of the next pixel of the stream -/
  ptr   : Nat
  /-- PAN.HB -/
  hb    : Option Byte
  /-- PAN.CMD -/
  cmd   : Byte
  /-- PAN.NP -/
  np    : Nat
  /-- PAN.CFG, by rising command byte; a command that is not listed is undefined -/
  cfg   : List (Byte × List Byte)
  /-- PAN.AWAKE -/
  awake : Bool
  /-- PAN.ON -/
  on    : Bool
  /-- PAN.GRAM -/
  gram  : Memory
  deriving DecidableEq, Repr

/-- The panel with every register undefined and every cell undefined, its modes off: after power-on and after
RstLine(0) (20_memory.md R84, 10_state.md R50). A register that is undefined holds a free value. -/
def Panel.undef (n : Nat) : Panel :=
  { xs := BitVec.ofNat 16 (Config.freeNat n 0), xe := BitVec.ofNat 16 (Config.freeNat n 1)
    ys := BitVec.ofNat 16 (Config.freeNat n 2), ye := BitVec.ofNat 16 (Config.freeNat n 3)
    mode := .none, ptr := Config.freeNat n 4
    hb := if Config.freeNat n 5 < 256 then some (BitVec.ofNat 8 (Config.freeNat n 5)) else none
    cmd := BitVec.ofNat 8 (Config.freeNat n 6), np := Config.freeNat n 7
    cfg := [], awake := false, on := false, gram := [] }

/-! ### Fault state -/

/-- What a fault records beside its code (60_exceptions.md R290): a resource name, or the number of the callback
(30_encoding.md R113; 10 is the provider). -/
inductive FaultInfo where
  | nothing
  | resource (name : List Byte)
  | callback (number : Nat)
  deriving DecidableEq, Repr

/-- FAULT (10_state.md R30) and "info kept beside it" (60_exceptions.md R296). -/
structure FaultRegs where
  code : BitVec 8
  info : FaultInfo
  deriving DecidableEq, Repr

/-! ### Unit GS -/

/-- A Sprite (10_state.md R32). -/
structure Sprite where
  width  : Int
  height : Int
  pix    : List Byte
  deriving DecidableEq, Repr

/-- A TextKey (R33). -/
structure TextKey where
  text  : List Byte
  fg    : Half
  bg    : Option Half
  scale : Int
  deriving DecidableEq, Repr

/-- The key of a loaded sprite (R34). -/
structure SpriteKey where
  name   : List Byte
  width  : Int
  height : Int
  deriving DecidableEq, Repr

/-- GS.TCACHE and GS.SCACHE (R33, R34), oldest entry first. -/
structure GsRegs where
  tcache : List (TextKey × Sprite)
  scache : List (SpriteKey × Sprite)
  deriving DecidableEq, Repr

/-! ### Unit IE -/

/-- The registers of unit IE (R36 to R39); bit k is button k. -/
structure IeRegs where
  /-- IE.CUR -/
  cur     : BitVec 6
  /-- IE.PREV -/
  prev    : BitVec 6
  /-- IE.PRESSED -/
  pressed : BitVec 6
  /-- IE.CAND -/
  cand    : Option Nat
  /-- IE.THRESH -/
  thresh  : Nat
  /-- `raw`, the temporary phase 1 hands to phase 2 (42_input_edge_gesture.md R222) -/
  raw     : BitVec 6
  deriving DecidableEq, Repr

/-! ### Unit FS -/

/-- The registers of unit FS (R40 to R46). -/
structure FsRegs where
  /-- FS.PH -/
  ph      : BitVec 3
  /-- FS.LAST -/
  last    : Nat
  /-- FS.PERIOD -/
  period  : Nat
  /-- FS.RUNNING -/
  running : Bool
  /-- FS.FIRST -/
  first   : Bool
  /-- FS.SKIP -/
  skip    : Bool
  /-- FS.TSTART -/
  tstart  : Nat
  /-- FS.DTMS -/
  dtms    : Nat
  deriving DecidableEq, Repr

/-! ### The external agents (00_scope.md R4) -/

/-- What the environment does at a bus primitive: reports a bus error or a timing fault (60_exceptions.md R293,
R294), or never completes a transfer (R303). -/
inductive BusFate where
  | busError
  | timingFault
  | stall
  deriving DecidableEq, Repr

/-- What the external agents will do, as data the step reads. A list that has run out leaves its agent's answer to a
free value of Config (Clock, InputProvider, Game, resource store), or means that nothing more happens (the Host
presents nothing, the bus works, no stop signal is raised). -/
structure Env where
  /-- the operations the Host will present at the port, each as its bytes (30_encoding.md R92, R93) -/
  host     : List (List Byte)
  /-- the bus faults to come: after n more polls of the bus, this fate -/
  bus      : List (Nat × BusFate)
  /-- the Clock's next advances, in milliseconds, beyond what a Sleep in between guarantees -/
  clock    : List Nat
  /-- the Clock's last answer (43_frame_scheduler.md R252) -/
  now      : Nat
  /-- milliseconds slept since that answer (R268) -/
  slept    : Nat
  /-- the InputProvider's next answers -/
  provider : List ProviderAnswer
  /-- what the Game does in its next callbacks -/
  game     : List GameAnswer
  /-- the resource store's next answers; none is `absent` (20_memory.md R66) -/
  res      : List (Option (List Byte))
  /-- the Stopper, asked before each tick phase: true raises the stop signal there (R270) -/
  stops    : List Bool
  /-- how many free answers have been drawn from Clock, InputProvider, Game and resource store -/
  asked    : Nat
  deriving DecidableEq, Repr

/-! ### The trace and the sequencer -/

/-- A Game callback with its arguments (43_frame_scheduler.md R254); handler k is on<k>Pressed, update's dt is in
seconds, an exact rational (R253). -/
inductive Callback where
  | handler (k : Fin 6)
  | reset
  | shouldRedraw
  | update (dt : Rat) (cur pressed : BitVec 6)
  | draw
  deriving DecidableEq, Repr

/-- What an operation returns (30_encoding.md R97). -/
inductive Result where
  | nothing
  | size (width height : Int)
  | bytes (r : List Byte)
  | sprite (s : Sprite)
  | stopped
  | fault (code : BitVec 8) (info : FaultInfo)
  deriving DecidableEq, Repr

/-- The events of a run (00_scope.md R15, 30_encoding.md R105). -/
inductive Event where
  /-- C(b) -/
  | cmd (b : Byte)
  /-- D(b) -/
  | dat (b : Byte)
  /-- Q(r) -/
  | rd (r : Byte)
  /-- RST(l) -/
  | rst (level : Bool)
  /-- W(ms) -/
  | wait (ms : Nat)
  /-- CS(l), framed trace only -/
  | cs (level : Bool)
  /-- DC(l), framed trace only -/
  | dc (level : Bool)
  /-- one call of the InputProvider -/
  | provider
  /-- a callback is opened -/
  | call (c : Callback)
  /-- it answers -/
  | answer (c : Callback) (r : Reply)
  /-- Present() (43_frame_scheduler.md R266) -/
  | present
  /-- SLEEP(ms) (R268) -/
  | sleep (ms : Nat)
  /-- an operation returns to the Host -/
  | ret (r : Result)
  deriving DecidableEq, Repr

/-- Why the engine thread has stopped for ever. -/
inductive Block where
  | bus
  | game
  | provider
  deriving DecidableEq, Repr

/-- The model's own sequencer: what the one engine thread does next (00_scope.md R4). -/
structure Ctl where
  /-- the operation issued internally that runs next: while RUN is in progress, its next tick phase; none: the
  operation port is read -/
  micro   : Option Instr
  /-- the thread is stuck or hung (60_exceptions.md R302, R303) -/
  blocked : Option Block
  /-- the result of the last operation (30_encoding.md R97) -/
  result  : Result
  deriving DecidableEq, Repr

/-! ### The state -/

/-- The whole state. -/
structure State where
  /-- unit DP's registers -/
  dp        : DpRegs
  /-- CS_n, DC, RST_n -/
  pins      : Pins
  /-- the reference panel -/
  pan       : Panel
  /-- DEVU (10_state.md R31), the sticky ghost flag -/
  devu      : Bool
  /-- how many free values the panel has drawn -/
  draws     : Nat
  /-- FAULT and its info -/
  fault     : FaultRegs
  /-- the caches -/
  gs        : GsRegs
  /-- unit IE's registers -/
  ie        : IeRegs
  /-- unit FS's registers -/
  fs        : FsRegs
  /-- HANDLERS (R47) -/
  handlers  : BitVec 8
  /-- CFG.WIDTH (R48) -/
  cfgWidth  : Half
  /-- CFG.HEIGHT (R48) -/
  cfgHeight : Half
  /-- the other parameters of 00_scope.md R9 -/
  par       : Params
  /-- the external agents -/
  env       : Env
  /-- the model's sequencer -/
  ctl       : Ctl
  /-- the framed event trace, NEWEST FIRST -/
  out       : List Event
  deriving DecidableEq, Repr

/-- Nothing scripted: every answer is a free value, no bus fault, no stop signal, no operation presented. -/
def Env.empty : Env :=
  { host := [], bus := [], clock := [], now := 0, slept := 0, provider := [], game := [], res := [], stops := []
    asked := 0 }

/-- The state after power-on reset (10_state.md R50, 70_reset_and_hazards.md R330). DP.WIN, DC, FS.LAST, FS.TSTART and
FS.DTMS are 'unspecified' there: zero is this model's choice (log entry 1). -/
def State.reset : State :=
  { dp := { win := { x0 := 0, y0 := 0, x1 := 0, y1 := 0 }, mode := .none, st := .idle, seq := 0, rstd := false
            initd := false }
    pins := { csN := true, dc := false, rstN := true }
    pan := Panel.undef 0, devu := false, draws := 1
    fault := { code := 0, info := .nothing }
    gs := { tcache := [], scache := [] }
    ie := { cur := 0, prev := 0, pressed := 0, cand := none, thresh := Config.threshMs, raw := 0 }
    fs := { ph := 0, last := 0, period := Config.periodMs, running := false, first := false, skip := false
            tstart := 0, dtms := 0 }
    handlers := Config.handlers, cfgWidth := Config.width, cfgHeight := Config.height, par := Config.params
    env := Env.empty, ctl := { micro := none, blocked := none, result := .nothing }, out := [] }

/-! ### Why a step stops -/

/-- The engine thread is stuck or hung: there is no next step (60_exceptions.md R302, R303). The hardware does not
report any of these; FAULT stays as it was. SAFE: the model has no next state where the hardware never reaches one. -/
inductive Fault where
  /-- Raised by step after a bus transfer that never completes: "a stalled bus transaction blocks the entire system"
  (R303). Safe. -/
  | busStalled
  /-- Raised by step after a Game callback that never answers (R302). Safe. -/
  | gameHung
  /-- Raised by step after an InputProvider that never answers (R302). Safe. -/
  | providerHung
  deriving DecidableEq, Repr

/-- The spec's refusals (60_exceptions.md R301): "A refusal sets a mark kept for the whole run; a run with the mark
satisfies no claim". All are SAFE: they "err toward unprovable". -/
inductive Refusal where
  /-- Raised by exec's arm of an instruction that has no meaning yet. Safe. -/
  | notModelled (mnemonic : String)
  /-- Raised by step, and by a Game callback, for a code that is no operation (R301 (a), 30_encoding.md R96). Safe. -/
  | reservedCode (code : Byte)
  /-- Raised there for a bgf other than 0 or 1 (R301 (a), R96). Safe. -/
  | reservedBackground (bgf : Byte)
  /-- Raised there for an operation shorter than its format (R301 (a), R96). Safe. -/
  | truncated
  /-- Raised there for bytes beyond the operation's format: malformed (R301 (a), R93). Safe. -/
  | trailing
  /-- Raised by a Game callback that issues RUN (R301 (b), R91, R96). Safe. -/
  | issuerNotAllowed
  /-- Raised by SETWIN, SETWINRD, DRAWIMAGE and DRAWTEXT when a window bound is outside 0..65535 (R301 (c),
  40_display_protocol.md R142). Safe. -/
  | windowBound
  deriving DecidableEq, Repr

end Sys2Proof.Machine
end

