-- ==== Sys2Proof/Machine/Operands.lean ====
section
/-! DEFINITION. Every operand form: bounds as bytes, the clip of SAFEFILLRECT, text sizes and the clamp, the font and
the text rasterizer (41_graphics_surface.md R180, R186, R189, R195). All arithmetic is over the integers (R12). -/

namespace Sys2Proof.Machine

/-- The 16-bit field of a bound in 0..65535 (30_encoding.md R108). -/
def boundField (v : Int) : Half := BitVec.ofInt 16 v

/-! ### SAFEFILLRECT's clip (R180) -/

/-- `xa <- max(x, 0)`, and ya likewise. -/
def clipLo (x : Int) : Int := max x 0
/-- `xb <- min(x + w, WIDTH)`, and yb likewise. -/
def clipHi (x w extent : Int) : Int := min (x + w) extent

/-! ### Text sizes and the clamp -/

/-- `s <- max(scale, 1)` (R186, R190). -/
def clampScale (scale : Int) : Int := max scale 1
/-- The text's width in pixels, `8·len(text)·s` (R186). -/
def textWidth (text : List Byte) (scale : Int) : Int := 8 * (text.length : Int) * clampScale scale
/-- Its height, `8·s`. -/
def textHeight (scale : Int) : Int := 8 * clampScale scale
/-- `max(0, min(x, WIDTH − tw))` (R189). -/
def clampPos (x extent t : Int) : Int := max 0 (min x (extent - t))

/-! ### The font and the rasterizer -/

/-- FontBit(ch, r, c) (20_memory.md R64): row 0 on top, column 0 at the left. -/
def fontBit (font : List (Byte × BitVec 64)) (ch : Byte) (r c : Nat) : Bool :=
  ((font.lookup ch).getD 0).getLsbD (8 * (7 - r) + (7 - c))

/-- The background that is painted: "defaulting to black if no background was requested" (R194). -/
def backgroundColor (bg : Option Half) : Half := bg.getD 0

/-- B(sx, sy) of R195. -/
def basePixel (font : List (Byte × BitVec 64)) (text : List Byte) (fg bgc : Half) (sx sy : Nat) : Half :=
  if fontBit font (text.getD (sx / 8) 0) sy (sx % 8) then fg else bgc

/-- RasterBytes(text, fg, bg, s): D row by row, D(dx, dy) = B(dx div s, dy div s), high byte first (R195). -/
def rasterBytes (font : List (Byte × BitVec 64)) (text : List Byte) (fg : Half) (bg : Option Half) (s : Nat) :
    List Byte :=
  (List.range (8 * s)).flatMap fun dy =>
    (List.range (8 * text.length * s)).flatMap fun dx =>
      be16 (basePixel font text fg (backgroundColor bg) (dx / s) (dy / s))

/-- RENDERTEXT as a pure function of its operands and the font (R194, R196). -/
def renderText (font : List (Byte × BitVec 64)) (text : List Byte) (fg : Half) (bg : Option Half) (scale : Int) :
    Sprite :=
  { width := textWidth text scale, height := textHeight scale
    pix := rasterBytes font text fg bg (clampScale scale).toNat }

/-- The window bounds of a w by h rectangle at (x,y): its last column or row, `x + w − 1` (R176, R183). -/
def lastOf (x w : Int) : Int := x + w - 1

end Sys2Proof.Machine
end

