-- ==== Sys2Proof/Machine/Flags.lean ====
section
/-! DEFINITION. Every flag the spec computes: the window and surface predicates, the conditions that set DEVU, the
pressed bits, the double-tap test, the draw decision. -/

namespace Sys2Proof.Machine

/-- WinValid (10_state.md R22) on a surface width by height. -/
def winValid (width height x0 y0 x1 y1 : Int) : Bool :=
  decide (0 ≤ x0 ∧ x0 ≤ x1 ∧ x1 < width ∧ 0 ≤ y0 ∧ y0 ≤ y1 ∧ y1 < height)

/-- InSurface (41_graphics_surface.md R171). -/
def inSurface (width height x y w h : Int) : Bool :=
  decide (0 < w ∧ 0 < h ∧ 0 ≤ x ∧ 0 ≤ y ∧ x + w ≤ width ∧ y + h ≤ height)

/-- CFG.WIDTH as an integer. -/
def State.width (s : State) : Int := s.cfgWidth.toNat
/-- CFG.HEIGHT as an integer. -/
def State.height (s : State) : Int := s.cfgHeight.toNat

/-- A bound SETWIN can send: "require 0 ≤ x0,y0,x1,y1 ≤ 65535 else refuse" (40_display_protocol.md R140, R142). -/
def boundOk (v : Int) : Bool := decide (0 ≤ v ∧ v ≤ 65535)
/-- All four bounds can be sent. -/
def boundsOk (x0 y0 x1 y1 : Int) : Bool := boundOk x0 && boundOk y0 && boundOk x1 && boundOk y1

/-- DEVU cases 1 and 2 of 20_memory.md R86: what SETWIN and SETWINRD set it on (R141, R152). -/
def windowDevu (s : State) (x0 y0 x1 y1 : Int) : Bool :=
  !(winValid s.width s.height x0 y0 x1 y1) || !s.dp.initd

/-- DEVU cases 2 and 4 of R86: what WRPIX (want = write) and RDPIX (want = read) set it on (R147, R150, R152). -/
def streamDevu (s : State) (want : StreamMode) : Bool :=
  decide (s.dp.mode ≠ want) || !s.dp.initd

/-- The panel's own window is WinValid (20_memory.md R82, R83). -/
def panWindowValid (s : State) : Bool :=
  winValid s.width s.height s.pan.xs.toNat s.pan.ys.toNat s.pan.xe.toNat s.pan.ye.toNat

/-- The panel's window width `w` in pixels (R82). -/
def Panel.winW (p : Panel) : Nat := p.xe.toNat - p.xs.toNat + 1
/-- The panel's window height `h`. -/
def Panel.winH (p : Panel) : Nat := p.ye.toNat - p.ys.toNat + 1

/-- The pressed bits (42_input_edge_gesture.md R224): raw and not previous raw, for each button. -/
def pressedBits (raw prev : BitVec 6) : BitVec 6 := raw &&& ~~~prev

/-- The double-tap test of phase 4 (R230, R231): a candidate exists and now − candidate ≤ threshold. -/
def doubleTap (cand : Option Nat) (now thresh : Nat) : Bool :=
  match cand with
  | none => false
  | some c => decide (now - c ≤ thresh)

/-- HANDLERS[k] (10_state.md R47). -/
def State.exposes (s : State) (k : Nat) : Bool := s.handlers.getLsbD k

/-- Phase 6 draws (43_frame_scheduler.md R264). -/
def drawNeeded (redraw first : Bool) : Bool := redraw || first

end Sys2Proof.Machine
end

