-- ==== Sys2Proof/Machine/Memory.lean ====
section
/-! DEFINITION. PAN.GRAM: one byte at an address, its canonical form, and the 16-bit cell (x,y) made of two bytes in
one place (20_memory.md R62, R67). -/

namespace Sys2Proof.Machine

/-- The byte at an address; an address that is not listed is `undef` (10_state.md R29). -/
def Memory.read (m : Memory) (a : Nat) : Option Byte :=
  match m with
  | [] => none
  | (b, v) :: r => if a = b then some v else Memory.read r a

/-- Write one byte, keeping the addresses rising. -/
def Memory.write (m : Memory) (a : Nat) (v : Byte) : Memory :=
  match m with
  | [] => [(a, v)]
  | (b, w) :: r =>
    if a < b then (a, v) :: (b, w) :: r
    else if a = b then (a, v) :: r
    else (b, w) :: Memory.write r a v

/-- The canonical form: addresses strictly rising. No entry can equal what an unlisted address reads as, which is no
value. -/
def Memory.wf : Memory → Bool
  | [] => true
  | [_] => true
  | (a, _) :: (b, w) :: r => decide (a < b) && Memory.wf ((b, w) :: r)

/-- The memory a list of writes leaves. -/
def Memory.ofCells (cells : List Host.Cell) : Memory :=
  cells.foldl (fun m c => m.write c.1 c.2) []

/-- The address of the high byte of cell (x,y). -/
def pixelAddr (x y : Nat) : Nat := 2 * (65536 * y + x)

/-- GRAM[x,y]; none is `undef` (10_state.md R29). -/
def Memory.readPixel (m : Memory) (x y : Nat) : Option Half :=
  match m.read (pixelAddr x y), m.read (pixelAddr x y + 1) with
  | some h, some l => some (h ++ l)
  | _, _ => none

/-- GRAM[x,y] <- p. -/
def Memory.writePixel (m : Memory) (x y : Nat) (p : Half) : Memory :=
  (m.write (pixelAddr x y) (p.extractLsb' 8 8)).write (pixelAddr x y + 1) (p.extractLsb' 0 8)

end Sys2Proof.Machine
end

