-- ==== Sys2Proof/Machine/Panel.lean ====
section
/-! DEFINITION. The reference panel (20_memory.md R80 to R87): what it does on each bus event. Once DEVU is set its
whole state is 'any value' (10_state.md R31): every event leaves it holding free values. -/

namespace Sys2Proof.Machine

/-- PAN.CFG[k] <- ps, keeping the commands rising. -/
def cfgSet (m : List (Byte × List Byte)) (k : Byte) (ps : List Byte) : List (Byte × List Byte) :=
  match m with
  | [] => [(k, ps)]
  | (j, qs) :: r =>
    if k.toNat < j.toNat then (k, ps) :: (j, qs) :: r
    else if k = j then (k, ps) :: r
    else (j, qs) :: cfgSet r k ps

/-- PAN.CFG[k]; a command that is not listed has no bytes yet. -/
def cfgGet (m : List (Byte × List Byte)) (k : Byte) : List Byte := (m.lookup k).getD []

/-- The canonical form of PAN.CFG: commands strictly rising. -/
def cfgWf : List (Byte × List Byte) → Bool
  | [] => true
  | [_] => true
  | (j, _) :: (k, ps) :: r => decide (j.toNat < k.toNat) && cfgWf ((k, ps) :: r)

/-- A panel that holds any value at all (10_state.md R31). -/
def Panel.free (n : Nat) : Panel :=
  { Panel.undef n with
    mode := if Config.freeNat n 8 = 0 then .none else if Config.freeNat n 8 = 1 then .write else .read
    awake := decide (Config.freeNat n 9 = 0), on := decide (Config.freeNat n 10 = 0)
    cfg := (Config.freePanCfg n).foldl (fun m e => cfgSet m e.1 e.2) []
    gram := Memory.ofCells (Config.freeCells n) }

/-- The panel holds any value from here on. -/
def scramble (s : State) : State := { s with pan := Panel.free s.draws, draws := s.draws + 1 }

/-- DEVU <- 1: "From the moment DEVU = 1 the contents of PAN.GRAM, of every PAN register and of every later panel
read are any value" (10_state.md R31). -/
def setDevu (s : State) : State := scramble { s with devu := true }

/-- DEVU <- 1 if c. -/
def setDevuIf (c : Bool) (s : State) : State := if c then setDevu s else s

/-- A byte the panel answers with no value of its own: any value. -/
def drawByte (s : State) : Byte × State := (Config.freeByte s.draws, { s with draws := s.draws + 1 })

/-- A command byte received (20_memory.md R81). -/
def panelOnCmd (c : CmdBytes) (b : Byte) (p : Panel) : Panel :=
  let p := { p with cmd := b, np := 0, hb := none, mode := .none }
  if b = c.ramwr then { p with mode := .write, ptr := 0 }
  else if b = c.ramrd then { p with mode := .read, ptr := 0 }
  else if b = c.slpout then { p with awake := true }
  else if b = c.dispon then { p with on := true }
  else p

/-- The panel receives a command byte. -/
def panelCmd (b : Byte) (s : State) : State :=
  if s.devu then scramble s else { s with pan := panelOnCmd s.par.cmds b s.pan }

/-- The high byte of a bound <- d. -/
def setHi (v : Half) (d : Byte) : Half := d ++ v.extractLsb' 0 8
/-- The low byte of a bound <- d. -/
def setLo (v : Half) (d : Byte) : Half := v.extractLsb' 8 8 ++ d

/-- A bound byte after an address-set command: NP 0 and 1 are the low bound, 2 and 3 the high bound (R82). -/
def boundByte (np : Nat) (d : Byte) (lo hi : Half) : Half × Half :=
  match np with
  | 0 => (setHi lo d, hi)
  | 1 => (setLo lo d, hi)
  | 2 => (lo, setHi hi d)
  | _ => (lo, setLo hi d)

/-- The column and row of the next pixel of the stream (20_memory.md R73, R82). -/
def Panel.cellX (p : Panel) : Nat := p.xs.toNat + p.ptr % p.winW
/-- Its row. -/
def Panel.cellY (p : Panel) : Nat := p.ys.toNat + p.ptr / p.winW

/-- The stream can go on: the panel's window is valid and not yet full (R82, R83). -/
def streamOk (s : State) : Bool := panWindowValid s && decide (s.pan.ptr < s.pan.winW * s.pan.winH)

/-- A whole pixel received in a WRITE stream (R82). -/
def panelPixel (p : Half) (s : State) : State :=
  if streamOk s then
    { s with pan := { s.pan with hb := none, gram := s.pan.gram.writePixel s.pan.cellX s.pan.cellY p
                                 ptr := s.pan.ptr + 1 } }
  else setDevu s

/-- The panel receives a data byte (R82). -/
def panelData (d : Byte) (s : State) : State :=
  if s.devu then scramble s
  else if s.pan.cmd = s.par.cmds.caset then
    if s.pan.np < 4 then
      let b := boundByte s.pan.np d s.pan.xs s.pan.xe
      { s with pan := { s.pan with xs := b.1, xe := b.2, np := s.pan.np + 1 } }
    else setDevu s
  else if s.pan.cmd = s.par.cmds.paset then
    if s.pan.np < 4 then
      let b := boundByte s.pan.np d s.pan.ys s.pan.ye
      { s with pan := { s.pan with ys := b.1, ye := b.2, np := s.pan.np + 1 } }
    else setDevu s
  else if s.pan.mode = .write then
    match s.pan.hb with
    | none => { s with pan := { s.pan with hb := some d } }
    | some h => panelPixel (h ++ d) s
  else
    { s with pan := { s.pan with
        cfg := cfgSet s.pan.cfg s.pan.cmd ((if s.pan.np = 0 then [] else cfgGet s.pan.cfg s.pan.cmd) ++ [d])
        np := s.pan.np + 1 } }

/-- The panel answers a read of one byte (R83); every byte read advances the stream, a byte of an `undef` cell too
(R71, log entry 12). -/
def panelRead (s : State) : Byte × State :=
  if s.devu then
    let r := drawByte s
    (r.1, scramble r.2)
  else if s.pan.mode = .read && streamOk s then
    match s.pan.hb with
    | none =>
      match s.pan.gram.readPixel s.pan.cellX s.pan.cellY with
      | some p => (p.extractLsb' 8 8, { s with pan := { s.pan with hb := some (p.extractLsb' 0 8) } })
      | none =>
        let hi := drawByte s
        let lo := drawByte hi.2
        (hi.1, { lo.2 with pan := { s.pan with hb := some lo.1 } })
    | some l => (l, { s with pan := { s.pan with hb := none, ptr := s.pan.ptr + 1 } })
  else
    let r := drawByte s
    (r.1, setDevu r.2)

/-- The panel sees its reset line (R84). -/
def panelRst (level : Bool) (s : State) : State :=
  if level then s
  else if s.devu then scramble s
  else { s with pan := Panel.undef s.draws, draws := s.draws + 1 }

end Sys2Proof.Machine
end

