-- ==== Sys2Proof/Machine/Ops.lean ====
section
/-! DEFINITION. The named operations every meaning is built from: what a piece of an operation can end in, fault
entry and the return to the port (60_exceptions.md R296), the bus primitives (30_encoding.md R100 to R104), the
questions to the external agents, and the Game's reply. -/

namespace Sys2Proof.Machine

/-! ### What a piece of an operation ends in -/

/-- A piece of an operation completed with a value (live), or the operation it belongs to has been abandoned or has
stopped for ever, and s is the state it left (dead; 60_exceptions.md R296, R303). -/
inductive Run (α : Type) where
  | live (a : α) (s : State)
  | dead (s : State)

/-- The state a piece leaves. -/
def Run.state {α : Type} : Run α → State
  | .live _ s => s
  | .dead s => s

/-- Did it complete? -/
def Run.isLive {α : Type} : Run α → Bool
  | .live _ _ => true
  | .dead _ => false

/-- Go on with f if the piece completed. -/
def Run.bind {α β : Type} (r : Run α) (f : α → State → Run β) : Run β :=
  match r with
  | .live a s => f a s
  | .dead s => .dead s

/-- Go on with f if the piece completed; its value is not needed. -/
def Run.andThen {α : Type} (r : Run Unit) (f : State → Run α) : Run α := r.bind fun _ s => f s

/-- A piece that completed with no value. -/
abbrev Run.done (s : State) : Run Unit := .live () s

/-- An operation: refused by the spec (60_exceptions.md R301), or a state it leaves and whether it completed. -/
structure Play where
  refusal : Option Refusal
  st      : State
  live    : Bool

/-- An operation that nothing refuses. -/
def Play.ofRun (r : Run Unit) : Play := { refusal := none, st := r.state, live := r.isLive }

/-- An operation that completed in state s. -/
def Play.done (s : State) : Play := { refusal := none, st := s, live := true }

/-- An operation refused in state s. -/
def Play.refuse (why : Refusal) (s : State) : Play := { refusal := some why, st := s, live := false }

/-- Go on with f if p completed. -/
def Play.andThen (p : Play) (f : State → Play) : Play := if p.live then f p.st else p

/-- The outcome of an operation as an instruction. An abandoned operation has a next state, the one fault entry left
(60_exceptions.md R296); so has one that is stuck, where step finds it (R303). -/
def Play.outcome (p : Play) : Host.Outcome State Fault Refusal :=
  match p.refusal with
  | none => .next p.st
  | some why => .refused why

/-! ### Small updates -/

/-- An event happens. -/
def State.emit (e : Event) (s : State) : State := { s with out := e :: s.out }

/-- DP.ST <- st. -/
def State.setSt (st : DpState) (s : State) : State := { s with dp := { s.dp with st := st } }

/-- FS.PH <- k. -/
def State.setPh (k : BitVec 3) (s : State) : State := { s with fs := { s.fs with ph := k } }

/-- The operation returns r (30_encoding.md R97). -/
def State.setResult (r : Result) (s : State) : State := { s with ctl := { s.ctl with result := r } }

/-- The trace, oldest event first (00_scope.md R15). -/
def State.trace (s : State) : List Event := s.out.reverse

/-- An event of the flat trace: anything but CS and DC (30_encoding.md R105). -/
def Event.isFlat : Event → Bool
  | .cs _ => false
  | .dc _ => false
  | _ => true

/-- The flat trace, oldest first (R105). -/
def State.flat (s : State) : List Event := s.trace.filter Event.isFlat

/-! ### Fault entry and return (60_exceptions.md R290, R296) -/

/-- Code of ResourceNotFound. -/
def codeResourceNotFound : BitVec 8 := 1
/-- Code of GameFailure. -/
def codeGameFailure : BitVec 8 := 2
/-- Code of BusError. -/
def codeBusError : BitVec 8 := 3
/-- Code of TimingFault. -/
def codeTimingFault : BitVec 8 := 4

/-- Fault entry (R296): the first fault is latched, FS.RUNNING <- 0, the operation in progress and everything it is
nested in is abandoned up to the port, and the fault is returned to the Host. DP.MODE, DP.WIN, CS_n, FS.PH, FS.FIRST
and FS.SKIP stay as they stood (43_frame_scheduler.md R272); DP.ST goes idle, as before every operation (log 8). -/
def enterFault (code : BitVec 8) (info : FaultInfo) (s : State) : State :=
  { s with
    fault := if s.fault.code = 0 then { code := code, info := info } else s.fault
    fs := { s.fs with running := false }
    dp := { s.dp with st := .idle }
    ctl := { s.ctl with micro := none, result := .fault code info } }

/-- `raise <Fault>(info)`. -/
def raise {α : Type} (code : BitVec 8) (info : FaultInfo) (s : State) : Run α := .dead (enterFault code info s)

/-- The engine thread stops for ever (R302, R303): nothing else changes. -/
def block {α : Type} (why : Block) (s : State) : Run α := .dead { s with ctl := { s.ctl with blocked := some why } }

/-- An operation at the port returns its result to the Host (30_encoding.md R92, R97). -/
def returnToHost (s : State) : State := s.emit (.ret s.ctl.result)

/-! ### The bus (30_encoding.md R100 to R104) -/

/-- One poll less until the next bus fault. -/
def State.setBus (bus : List (Nat × BusFate)) (s : State) : State := { s with env := { s.env with bus := bus } }

/-- Between transactions, and at RstLine and Wait, the environment may report a fault (60_exceptions.md R293, R294);
a stall waits for the next transfer. -/
def pollIdle (s : State) : Run Unit :=
  match s.env.bus with
  | [] => .done s
  | (n + 1, fate) :: r => .done (s.setBus ((n, fate) :: r))
  | (0, .busError) :: r => raise codeBusError .nothing (s.setBus r)
  | (0, .timingFault) :: r => raise codeTimingFault .nothing (s.setBus r)
  | (0, .stall) :: _ => .done s

/-- Inside a transaction, before each byte and after the last: a fault, or a transfer that never completes (R303). -/
def pollTransfer (s : State) : Run Unit :=
  match s.env.bus with
  | [] => .done s
  | (n + 1, fate) :: r => .done (s.setBus ((n, fate) :: r))
  | (0, .busError) :: r => raise codeBusError .nothing (s.setBus r)
  | (0, .timingFault) :: r => raise codeTimingFault .nothing (s.setBus r)
  | (0, .stall) :: r => block .bus (s.setBus r)

/-- `DC <- level ; CS_n <- 0`. -/
def openTx (level : Bool) (s : State) : State :=
  (({ s with pins := { s.pins with dc := level, csN := false } } : State).emit (.dc level)).emit (.cs false)

/-- `CS_n <- 1`. -/
def closeTx (s : State) : State := ({ s with pins := { s.pins with csN := true } } : State).emit (.cs true)

/-- The command byte goes out. -/
def sendCmd (b : Byte) (s : State) : Run Unit :=
  (pollTransfer s).andThen fun s => .done (panelCmd b (s.emit (.cmd b)))

/-- Data bytes go out, in order. -/
def sendData (bs : List Byte) (s : State) : Run Unit :=
  match bs with
  | [] => .done s
  | b :: r => (pollTransfer s).andThen fun s => sendData r (panelData b (s.emit (.dat b)))

/-- n bytes come in; `got` is what has come so far, newest first. -/
def recvData (n : Nat) (got : List Byte) (s : State) : Run (List Byte) :=
  match n with
  | 0 => .live got.reverse s
  | n + 1 => (pollTransfer s).andThen fun s =>
      let r := panelRead s
      recvData n (r.1 :: got) (r.2.emit (.rd r.1))

/-- The end of a transaction. -/
def endTx (s : State) : Run Unit := (pollTransfer s).andThen fun s => .done (closeTx s)

/-- BusCmd(b) (R100). -/
def busCmd (b : Byte) (s : State) : Run Unit :=
  (pollIdle s).andThen fun s => (sendCmd b (openTx s.par.dcCmd s)).andThen endTx

/-- BusData(bs) (R101): nothing at all for the empty sequence. -/
def busData (bs : List Byte) (s : State) : Run Unit :=
  match bs with
  | [] => .done s
  | b :: r => (pollIdle s).andThen fun s => (sendData (b :: r) (openTx s.par.dcData s)).andThen endTx

/-- BusRead(n) (R102): nothing at all for n = 0. -/
def busRead (n : Nat) (s : State) : Run (List Byte) :=
  match n with
  | 0 => .live [] s
  | n + 1 => (pollIdle s).andThen fun s =>
      (recvData (n + 1) [] (openTx s.par.dcData s)).bind fun bs s => (endTx s).andThen fun s => .live bs s

/-- RstLine(l) (R103). -/
def rstLine (level : Bool) (s : State) : Run Unit :=
  (pollIdle s).andThen fun s =>
    .done (panelRst level (({ s with pins := { s.pins with rstN := level } } : State).emit (.rst level)))

/-- Wait(ms) (R104): an event with a lower bound. -/
def busWait (ms : Nat) (s : State) : Run Unit := (pollIdle s).andThen fun s => .done (s.emit (.wait ms))

/-! ### Questions to the external agents -/

/-- Clock() (43_frame_scheduler.md R252, R268): never earlier than its last answer, and later than it by at least
what was slept since. -/
def readClock (s : State) : Nat × State :=
  let adv := s.env.clock.headD (Config.freeClock s.env.asked)
  let now := s.env.now + s.env.slept + adv
  (now, { s with env := { s.env with now := now, slept := 0, clock := s.env.clock.tail, asked := s.env.asked + 1 } })

/-- Sleep(ms) (R268). -/
def sleepFor (ms : Nat) (s : State) : State :=
  ({ s with env := { s.env with slept := s.env.slept + ms } } : State).emit (.sleep ms)

/-- Provider() (42_input_edge_gesture.md R222). -/
def askProvider (s : State) : ProviderAnswer × State :=
  (s.env.provider.headD (Config.freeProvider s.env.asked),
    ({ s with env := { s.env with provider := s.env.provider.tail, asked := s.env.asked + 1 } } : State).emit .provider)

/-- What the Game will do in the callback that is opened now (43_frame_scheduler.md R254, R255). -/
def nextGame (s : State) : GameAnswer := s.env.game.headD (Config.freeGame s.env.asked)

/-- The callback is opened. -/
def openCallback (c : Callback) (s : State) : State :=
  ({ s with env := { s.env with game := s.env.game.tail, asked := s.env.asked + 1 } } : State).emit (.call c)

/-- MemRead(RES, name, all) (20_memory.md R66); the store's answers are in the order it is asked, whatever the name. -/
def readResource (s : State) : Option (List Byte) × State :=
  (s.env.res.headD (Config.freeResource s.env.asked),
    { s with env := { s.env with res := s.env.res.tail, asked := s.env.asked + 1 } })

/-- The Stopper may raise the stop signal here (R270, 60_exceptions.md R305): FS.RUNNING <- 0. -/
def pollStop (s : State) : State :=
  { s with
    env := { s.env with stops := s.env.stops.tail }
    fs := { s.fs with running := s.fs.running && !(s.env.stops.headD false) } }

/-- The number of a callback (30_encoding.md R113). -/
def Callback.number : Callback → Nat
  | .handler k => k.val
  | .reset => 6
  | .shouldRedraw => 7
  | .update _ _ _ => 8
  | .draw => 9

/-- The number a failure of the InputProvider records (60_exceptions.md R290). -/
def providerNumber : Nat := 10

/-- The callback ends (R254): `ok` goes on, `fail` is GameFailure (60_exceptions.md R292), `never` hangs (R302). -/
def closeCallback (c : Callback) (r : Reply) (s : State) : Run Unit :=
  match r with
  | .ok b => .done (s.emit (.answer c (.ok b)))
  | .fail => raise codeGameFailure (.callback c.number) (s.emit (.answer c .fail))
  | .never => block .game s

/-- shouldRedraw's Boolean. -/
def redrawOf : Reply → Bool
  | .ok b => b
  | .fail => false
  | .never => false

end Sys2Proof.Machine
end

