-- ==== Sys2Proof/Machine/Frame.lean ====
section
/-! DEFINITION. The command frames of the bus (30_encoding.md R107): one command transaction, then the parameters as
data. Unit DP sends every window and every handshake with these; each is also an instruction, for the table's
BUS_FRAME rows. -/

namespace Sys2Proof.Machine

/-- The column address set frame (R107, 40_display_protocol.md R140). -/
def frameCaset (x0 x1 : Half) (s : State) : Run Unit :=
  (busCmd s.par.cmds.caset (s.setSt .colCmd)).andThen fun s => busData (be16 x0 ++ be16 x1) (s.setSt .colDat)

/-- The row address set frame. -/
def framePaset (y0 y1 : Half) (s : State) : Run Unit :=
  (busCmd s.par.cmds.paset (s.setSt .rowCmd)).andThen fun s => busData (be16 y0 ++ be16 y1) (s.setSt .rowDat)

/-- The write to RAM frame. -/
def frameRamwr (s : State) : Run Unit := busCmd s.par.cmds.ramwr (s.setSt .ramCmd)

/-- The read from RAM frame (R144). -/
def frameRamrd (s : State) : Run Unit := busCmd s.par.cmds.ramrd (s.setSt .ramCmd)

/-- The sleep out frame (R135). -/
def frameSlpout (s : State) : Run Unit := busCmd s.par.cmds.slpout (s.setSt .slpout)

/-- The display on frame (R135). -/
def frameDispon (s : State) : Run Unit := busCmd s.par.cmds.dispon (s.setSt .dispon)

/-- A handshake entry (R135): "nothing if empty" for its parameters. -/
def frameInitEntry (cmd : Byte) (params : List Byte) (s : State) : Run Unit :=
  (busCmd cmd (s.setSt .initCmd)).andThen fun s => busData params (s.setSt .initDat)

/-- A frame by itself ends with DP.ST <- DP_IDLE and returns nothing. -/
def frameAlone (r : Run Unit) : Run Unit := r.andThen fun s => .done ((s.setSt .idle).setResult .nothing)

/-- BUS_CASET. -/
def execBusCaset (x0 x1 : Half) (s : State) : Host.Outcome State Fault Refusal :=
  (Play.ofRun (frameAlone (frameCaset x0 x1 s))).outcome

/-- BUS_PASET. -/
def execBusPaset (y0 y1 : Half) (s : State) : Host.Outcome State Fault Refusal :=
  (Play.ofRun (frameAlone (framePaset y0 y1 s))).outcome

/-- BUS_RAMWR. -/
def execBusRamwr (s : State) : Host.Outcome State Fault Refusal :=
  (Play.ofRun (frameAlone (frameRamwr s))).outcome

/-- BUS_RAMRD. -/
def execBusRamrd (s : State) : Host.Outcome State Fault Refusal :=
  (Play.ofRun (frameAlone (frameRamrd s))).outcome

/-- BUS_SLPOUT: the frame alone; its settle delay belongs to INIT (R137). -/
def execBusSlpout (s : State) : Host.Outcome State Fault Refusal :=
  (Play.ofRun (frameAlone (frameSlpout s))).outcome

/-- BUS_DISPON. -/
def execBusDispon (s : State) : Host.Outcome State Fault Refusal :=
  (Play.ofRun (frameAlone (frameDispon s))).outcome

/-- BUS_INIT_ENTRY. -/
def execBusInitEntry (cmd : Byte) (params : List Byte) (s : State) : Host.Outcome State Fault Refusal :=
  (Play.ofRun (frameAlone (frameInitEntry cmd params s))).outcome

end Sys2Proof.Machine
end

