-- ==== Sys2Proof/Machine/Display.lean ====
section
/-! DEFINITION. Unit DP: RESET, INIT, SETWIN, SETWINRD, WRPIX, RDPIX (40_display_protocol.md). -/

namespace Sys2Proof.Machine

/-- The operation completes with a result (30_encoding.md R97). -/
def finish (r : Result) (s : State) : Run Unit := .done (s.setResult r)

/-! ### RESET (R132, R133) -/

/-- RESET's last registers. -/
def resetRegs (s : State) : State :=
  { s with dp := { s.dp with rstd := true, initd := false, mode := .none, st := .idle } }

/-- R132's pseudocode. -/
def dpReset (s : State) : Run Unit :=
  (rstLine false (s.setSt .rstLow)).andThen fun s =>
  (busWait s.par.rstLowMs s).andThen fun s =>
  (rstLine true (s.setSt .rstHigh)).andThen fun s =>
  (busWait s.par.rstHighMs s).andThen fun s =>
  .done (resetRegs s)

/-- RESET as an operation. -/
def opReset (s : State) : Play := Play.ofRun ((dpReset s).andThen (finish .nothing))

/-- RESET. -/
def execReset (s : State) : Host.Outcome State Fault Refusal := (opReset s).outcome

/-! ### INIT (R135 to R139) -/

/-- The handshake entries from index k on, DP.SEQ naming each. -/
def sendEntries (es : List InitEntry) (k : Nat) (s : State) : Run Unit :=
  match es with
  | [] => .done s
  | e :: r =>
    (frameInitEntry e.cmd e.params { s with dp := { s.dp with seq := k } }).andThen fun s => sendEntries r (k + 1) s

/-- INIT's last registers. -/
def initRegs (s : State) : State :=
  { s with dp := { s.dp with initd := true, mode := .none, seq := 0, st := .idle } }

/-- R135's pseudocode; DEVU if no RESET came before (R138). -/
def dpInit (s : State) : Run Unit :=
  (sendEntries s.par.init.seq 0 (setDevuIf (!s.dp.rstd) s)).andThen fun s =>
  (frameSlpout s).andThen fun s =>
  (busWait s.par.slpoutMs s).andThen fun s =>
  (frameDispon s).andThen fun s =>
  (busWait s.par.disponMs s).andThen fun s =>
  .done (initRegs s)

/-- INIT as an operation. -/
def opInit (s : State) : Play := Play.ofRun ((dpInit s).andThen (finish .nothing))

/-- INIT. -/
def execInit (s : State) : Host.Outcome State Fault Refusal := (opInit s).outcome

/-! ### SETWIN and SETWINRD (R140 to R145, R152) -/

/-- The last registers of SETWIN (write) and SETWINRD (read). -/
def windowRegs (x0 y0 x1 y1 : Half) (mode : StreamMode) (s : State) : State :=
  { s with dp := { s.dp with win := { x0 := x0, y0 := y0, x1 := x1, y1 := y1 }, mode := mode, st := .idle } }

/-- The three frames of a window, after the bounds have been found to fit (R140); the last one is `ram`. -/
def sendWindow (ram : State → Run Unit) (mode : StreamMode) (x0 y0 x1 y1 : Half) (s : State) : Run Unit :=
  (frameCaset x0 x1 s).andThen fun s =>
  (framePaset y0 y1 s).andThen fun s =>
  (ram s).andThen fun s =>
  .done (windowRegs x0 y0 x1 y1 mode s)

/-- SETWIN with bounds that fit; an invalid window is sent all the same and sets DEVU (R141). -/
def dpSetwin (x0 y0 x1 y1 : Int) (s : State) : Run Unit :=
  sendWindow frameRamwr .write (boundField x0) (boundField y0) (boundField x1) (boundField y1)
    (setDevuIf (windowDevu s x0 y0 x1 y1) s)

/-- SETWINRD likewise (R144). -/
def dpSetwinrd (x0 y0 x1 y1 : Int) (s : State) : Run Unit :=
  sendWindow frameRamrd .read (boundField x0) (boundField y0) (boundField x1) (boundField y1)
    (setDevuIf (windowDevu s x0 y0 x1 y1) s)

/-- SETWIN as an operation: a bound outside 0..65535 is refused before any byte is sent (R142). -/
def opSetwin (x0 y0 x1 y1 : Int) (s : State) : Play :=
  if boundsOk x0 y0 x1 y1 then Play.ofRun ((dpSetwin x0 y0 x1 y1 s).andThen (finish .nothing))
  else Play.refuse .windowBound s

/-- SETWIN. -/
def execSetwin (x0 y0 x1 y1 : Int) (s : State) : Host.Outcome State Fault Refusal := (opSetwin x0 y0 x1 y1 s).outcome

/-- SETWINRD as an operation. -/
def opSetwinrd (x0 y0 x1 y1 : Int) (s : State) : Play :=
  if boundsOk x0 y0 x1 y1 then Play.ofRun ((dpSetwinrd x0 y0 x1 y1 s).andThen (finish .nothing))
  else Play.refuse .windowBound s

/-- SETWINRD. -/
def execSetwinrd (x0 y0 x1 y1 : Int) (s : State) : Host.Outcome State Fault Refusal :=
  (opSetwinrd x0 y0 x1 y1 s).outcome

/-! ### WRPIX (R146 to R148) -/

/-- R146's pseudocode; the buffer goes out as one data transaction (log entry 7). -/
def dpWrpix (buf : List Byte) (s : State) : Run Unit :=
  (busData buf ((setDevuIf (streamDevu s .write) s).setSt .tx)).andThen fun s => .done (s.setSt .idle)

/-- WRPIX as an operation. -/
def opWrpix (buf : List Byte) (s : State) : Play := Play.ofRun ((dpWrpix buf s).andThen (finish .nothing))

/-- WRPIX. -/
def execWrpix (buf : List Byte) (s : State) : Host.Outcome State Fault Refusal := (opWrpix buf s).outcome

/-! ### RDPIX (R149 to R151) -/

/-- R149's pseudocode: n pixels, 2·n bytes. -/
def dpRdpix (n : Nat) (s : State) : Run (List Byte) :=
  (busRead (2 * n) ((setDevuIf (streamDevu s .read) s).setSt .rx)).bind fun bs s => .live bs (s.setSt .idle)

/-- RDPIX as an operation. -/
def opRdpix (n : Nat) (s : State) : Play := Play.ofRun ((dpRdpix n s).bind fun bs s => finish (.bytes bs) s)

/-- RDPIX. -/
def execRdpix (n : Nat) (s : State) : Host.Outcome State Fault Refusal := (opRdpix n s).outcome

end Sys2Proof.Machine
end

