-- ==== Sys2Proof/Machine/Graphics.lean ====
section
/-! DEFINITION. Unit GS: CLEAR, FILLRECT, SAFEFILLRECT, DRAWIMAGE, TEXTSIZE, DRAWTEXT, RENDERTEXT, CLEARCACHES,
LOADSPRITE (41_graphics_surface.md). It reaches the panel only through SETWIN and WRPIX (R170). -/

namespace Sys2Proof.Machine

/-! ### FILLRECT, CLEAR, SAFEFILLRECT -/

/-- The pixels of one "bus-sized chunk": CHUNK_BYTES div 2 (R178). -/
def chunkPixels (s : State) : Nat := max 1 (s.par.chunkBytes / 2)

/-- rep(n, BE16(color)) (00_scope.md R11). -/
def repeatColor (n : Nat) (color : Half) : List Byte := (List.replicate n (be16 color)).flatten

/-- StreamRep (R178): `left` pixels in chunks of k, each a WRPIX; `fuel` bounds the chunks. -/
def streamRep (fuel : Nat) (k left : Nat) (color : Half) (s : State) : Run Unit :=
  match fuel with
  | 0 => .done s
  | fuel + 1 =>
    if left = 0 then .done s
    else (dpWrpix (repeatColor (min k left) color) s).andThen fun s => streamRep fuel k (left - min k left) color s

/-- FILLRECT's pseudocode (R176): a silent no-op outside the surface (R177). -/
def gsFillrect (x y w h : Int) (color : Half) (s : State) : Run Unit :=
  if inSurface s.width s.height x y w h then
    (dpSetwin x y (lastOf x w) (lastOf y h) s).andThen fun s =>
      streamRep (w * h).toNat (chunkPixels s) (w * h).toNat color s
  else .done s

/-- FILLRECT as an operation. -/
def opFillrect (x y w h : Int) (color : Half) (s : State) : Play :=
  Play.ofRun ((gsFillrect x y w h color s).andThen (finish .nothing))

/-- FILLRECT. -/
def execFillrect (x y w h : Int) (color : Half) (s : State) : Host.Outcome State Fault Refusal :=
  (opFillrect x y w h color s).outcome

/-- CLEAR's pseudocode (R174): "a full-surface fillRect". -/
def opClear (color : Half) (s : State) : Play :=
  Play.ofRun ((gsFillrect 0 0 s.width s.height color s).andThen (finish .nothing))

/-- CLEAR. -/
def execClear (color : Half) (s : State) : Host.Outcome State Fault Refusal := (opClear color s).outcome

/-- SAFEFILLRECT's pseudocode (R180). -/
def gsSafefillrect (x y w h : Int) (color : Half) (s : State) : Run Unit :=
  let xa := clipLo x
  let ya := clipLo y
  let xb := clipHi x w s.width
  let yb := clipHi y h s.height
  if xb - xa ≤ 0 ∨ yb - ya ≤ 0 then .done s else gsFillrect xa ya (xb - xa) (yb - ya) color s

/-- SAFEFILLRECT as an operation. -/
def opSafefillrect (x y w h : Int) (color : Half) (s : State) : Play :=
  Play.ofRun ((gsSafefillrect x y w h color s).andThen (finish .nothing))

/-- SAFEFILLRECT. -/
def execSafefillrect (x y w h : Int) (color : Half) (s : State) : Host.Outcome State Fault Refusal :=
  (opSafefillrect x y w h color s).outcome

/-! ### DRAWIMAGE (R183, R184) -/

/-- SETWIN and WRPIX with bounds that fit. -/
def gsBlit (x y x1 y1 : Int) (buf : List Byte) (s : State) : Run Unit :=
  (dpSetwin x y x1 y1 s).andThen (dpWrpix buf)

/-- A window and a verbatim stream; a bound that does not fit is refused (R142, R184 (c)). -/
def opBlit (x y x1 y1 : Int) (buf : List Byte) (s : State) : Play :=
  if boundsOk x y x1 y1 then Play.ofRun ((gsBlit x y x1 y1 buf s).andThen (finish .nothing))
  else Play.refuse .windowBound s

/-- DRAWIMAGE as an operation: no test of any kind precedes the SETWIN (R183). -/
def opDrawimage (x y w h : Int) (buf : List Byte) (s : State) : Play :=
  opBlit x y (lastOf x w) (lastOf y h) buf s

/-- DRAWIMAGE. -/
def execDrawimage (x y w h : Int) (buf : List Byte) (s : State) : Host.Outcome State Fault Refusal :=
  (opDrawimage x y w h buf s).outcome

/-! ### TEXTSIZE and RENDERTEXT -/

/-- TEXTSIZE as an operation (R186). -/
def opTextsize (text : List Byte) (scale : Int) (s : State) : Play :=
  Play.done (s.setResult (.size (textWidth text scale) (textHeight scale)))

/-- TEXTSIZE. -/
def execTextsize (text : List Byte) (scale : Int) (s : State) : Host.Outcome State Fault Refusal :=
  (opTextsize text scale s).outcome

/-- RENDERTEXT as an operation (R194): it writes no register and no cache. -/
def opRendertext (text : List Byte) (color : Half) (bg : Option Half) (scale : Int) (s : State) : Play :=
  Play.done (s.setResult (.sprite (renderText s.par.font text color bg scale)))

/-- RENDERTEXT. -/
def execRendertext (text : List Byte) (color : Half) (bg : Option Half) (scale : Int) (s : State) :
    Host.Outcome State Fault Refusal :=
  (opRendertext text color bg scale s).outcome

/-! ### The caches -/

/-- `|map| < CACHE_CAPACITY` (R200). -/
def hasRoom (capacity : Option Nat) (size : Nat) : Bool :=
  match capacity with
  | none => true
  | some c => decide (size < c)

/-- The sprite RENDERTEXT makes for a key (R192). -/
def renderKey (font : List (Byte × BitVec 64)) (key : TextKey) : Sprite :=
  renderText font key.text key.fg key.bg key.scale

/-- CacheGetOrBuild(key) (R192, R200): an insertion into a full map is skipped. -/
def cacheGetOrBuild (key : TextKey) (s : State) : Sprite × State :=
  match s.gs.tcache.lookup key with
  | some spr => (spr, s)
  | none =>
    let spr := renderKey s.par.font key
    if hasRoom s.par.cacheCapacity s.gs.tcache.length then
      (spr, { s with gs := { s.gs with tcache := s.gs.tcache ++ [(key, spr)] } })
    else (spr, s)

/-- CLEARCACHES as an operation (R204). -/
def opClearcaches (s : State) : Play :=
  Play.done (({ s with gs := { tcache := [], scache := [] } } : State).setResult .nothing)

/-- CLEARCACHES. -/
def execClearcaches (s : State) : Host.Outcome State Fault Refusal := (opClearcaches s).outcome

/-- LOADSPRITE's miss: the store is read, and `absent` is ResourceNotFound (R206, 60_exceptions.md R291). -/
def loadMiss (key : SpriteKey) (s : State) : Run Sprite :=
  let d := readResource s
  match d.1 with
  | none => raise codeResourceNotFound (.resource key.name) d.2
  | some pix =>
    let spr : Sprite := { width := key.width, height := key.height, pix := pix }
    if hasRoom s.par.cacheCapacity s.gs.scache.length then
      .live spr { d.2 with gs := { d.2.gs with scache := d.2.gs.scache ++ [(key, spr)] } }
    else .live spr d.2

/-- LOADSPRITE's pseudocode (R206, R207). -/
def gsLoadsprite (key : SpriteKey) (s : State) : Run Sprite :=
  match s.gs.scache.lookup key with
  | some spr => .live spr s
  | none => loadMiss key s

/-- LOADSPRITE as an operation. -/
def opLoadsprite (name : List Byte) (w h : Int) (s : State) : Play :=
  Play.ofRun ((gsLoadsprite { name := name, width := w, height := h } s).bind fun spr s => finish (.sprite spr) s)

/-- LOADSPRITE. -/
def execLoadsprite (name : List Byte) (w h : Int) (s : State) : Host.Outcome State Fault Refusal :=
  (opLoadsprite name w h s).outcome

/-! ### DRAWTEXT (R188 to R193) -/

/-- The fast path (R191): one window for the text box, the raster streamed into it, no cache. -/
def drawFast (xc yc : Int) (text : List Byte) (color : Half) (s : State) : Play :=
  opBlit xc yc (lastOf xc (textWidth text 1)) (lastOf yc (textHeight 1)) (rasterBytes s.par.font text color none 1) s

/-- The cached path (R192): the sprite of the key, blitted by DRAWIMAGE. -/
def drawCached (xc yc : Int) (key : TextKey) (s : State) : Play :=
  let c := cacheGetOrBuild key s
  opDrawimage xc yc c.1.width c.1.height c.1.pix c.2

/-- DRAWTEXT as an operation: the scale is clamped before the path is chosen and the key is built (R190). -/
def opDrawtext (x y : Int) (text : List Byte) (color : Half) (bg : Option Half) (scale : Int) (s : State) : Play :=
  let sc := clampScale scale
  let xc := clampPos x s.width (textWidth text sc)
  let yc := clampPos y s.height (textHeight sc)
  if sc = 1 ∧ bg = none then drawFast xc yc text color s
  else drawCached xc yc { text := text, fg := color, bg := bg, scale := sc } s

/-- DRAWTEXT. -/
def execDrawtext (x y : Int) (text : List Byte) (color : Half) (bg : Option Half) (scale : Int) (s : State) :
    Host.Outcome State Fault Refusal :=
  (opDrawtext x y text color bg scale s).outcome

end Sys2Proof.Machine
end

