-- ==== Sys2Proof/Machine/Game.lean ====
section
/-! DEFINITION. The operation port as the Game uses it inside a callback (43_frame_scheduler.md R254, R255): STOP,
each operation the Game may issue, and one whole callback. -/

namespace Sys2Proof.Machine

/-- STOP (R270) as an operation: FS.RUNNING <- 0. -/
def opStop (s : State) : Play :=
  Play.done (({ s with fs := { s.fs with running := false } } : State).setResult .nothing)

/-- STOP. -/
def execStop (s : State) : Host.Outcome State Fault Refusal := (opStop s).outcome

/-- An operation the Game issues: those marked G in 30_encoding.md R91; RUN, and whatever is never issued at the port,
is refused (R96, 60_exceptions.md R301 (b)). -/
def gameOp (i : Instr) (s : State) : Play :=
  match i with
  | .reset => opReset s
  | .init => opInit s
  | .setwin x0 y0 x1 y1 => opSetwin x0 y0 x1 y1 s
  | .setwinrd x0 y0 x1 y1 => opSetwinrd x0 y0 x1 y1 s
  | .wrpix buf => opWrpix buf s
  | .rdpix n => opRdpix n s
  | .clear color => opClear color s
  | .fillrect x y w h color => opFillrect x y w h color s
  | .safefillrect x y w h color => opSafefillrect x y w h color s
  | .drawimage x y w h buf => opDrawimage x y w h buf s
  | .textsize text scale => opTextsize text scale s
  | .drawtext x y text color bg scale => opDrawtext x y text color bg scale s
  | .rendertext text color bg scale => opRendertext text color bg scale s
  | .clearcaches => opClearcaches s
  | .loadsprite name w h => opLoadsprite name w h s
  | .stop => opStop s
  | .run => Play.refuse .issuerNotAllowed s
  | .tickstart | .sample | .edge | .dispatch | .gesture | .update | .draw | .pace => Play.refuse .issuerNotAllowed s
  | .busCaset _ _ | .busPaset _ _ | .busRamwr | .busRamrd => Play.refuse .issuerNotAllowed s
  | .busSlpout | .busDispon | .busInitEntry _ _ => Play.refuse .issuerNotAllowed s

/-- The refusal of bytes that are no operation (30_encoding.md R96, 60_exceptions.md R301 (a)). -/
def decodeRefusal : DecodeError → Refusal
  | .reservedCode code => .reservedCode code
  | .reservedBackground bgf => .reservedBackground bgf
  | .truncated => .truncated
  | .trailing => .trailing

/-- The bytes the Game presents at the port. -/
def gameBytes (bs : List Byte) (s : State) : Play :=
  match decodePort bs with
  | .ok i => gameOp i s
  | .error e => Play.refuse (decodeRefusal e) s

/-- The operations of one callback, "each runs to completion before the next" (R255). -/
def gameOps (ops : List (List Byte)) (s : State) : Play :=
  match ops with
  | [] => Play.done s
  | bs :: r => (gameBytes bs s).andThen fun s => gameOps r s

/-- A fault raised by an operation of the Game: "it ends the callback with `fail`", which the Game does not catch
(R255), and the fault stays the one reported (60_exceptions.md R291; log entry 19). A stuck thread answers nothing
(R303). -/
def failCallback (c : Callback) (p : Play) : Play :=
  if p.live || p.refusal.isSome || p.st.ctl.blocked.isSome then p else { p with st := p.st.emit (.answer c .fail) }

/-- `Game.<member>(args)` (R254): the callback is opened, the Game issues its operations, and answers. -/
def callGame (c : Callback) (s : State) : Play :=
  (failCallback c (gameOps (nextGame s).ops (openCallback c s))).andThen fun t =>
    Play.ofRun (closeCallback c (nextGame s).reply t)

end Sys2Proof.Machine
end

