-- ==== Sys2Proof/Machine/Input.lean ====
section
/-! DEFINITION. Unit IE: the tick phases SAMPLE, EDGE and GESTURE (42_input_edge_gesture.md). -/

namespace Sys2Proof.Machine

/-- raw <- v, the temporary handed to phase 2. -/
def setRaw (v : BitVec 6) (s : State) : State := { s with ie := { s.ie with raw := v } }

/-- SAMPLE's pseudocode (R222); a failure of the provider is GameFailure(10) (60_exceptions.md R290, R292). -/
def ieSample (s : State) : Run Unit :=
  let s := s.setPh 1
  if s.par.hasProvider then
    let a := askProvider s
    match a.1 with
    | .levels raw => .done (setRaw raw a.2)
    | .fail => raise codeGameFailure (.callback providerNumber) a.2
    | .never => block .provider a.2
  else .done (setRaw 0 s)

/-- SAMPLE. -/
def execSample (s : State) : Host.Outcome State Fault Refusal := (Play.ofRun (ieSample s)).outcome

/-- EDGE's pseudocode (R224): all six PRESSED bits come from the old IE.PREV. -/
def ieEdge (s : State) : State :=
  let s := s.setPh 2
  { s with ie := { s.ie with pressed := pressedBits s.ie.raw s.ie.prev, cur := s.ie.raw, prev := s.ie.raw } }

/-- EDGE. -/
def execEdge (s : State) : Host.Outcome State Fault Refusal := (Play.done (ieEdge s)).outcome

/-- IE.CAND <- c. -/
def setCand (c : Option Nat) (s : State) : State := { s with ie := { s.ie with cand := c } }

/-- FS.SKIP <- 1. -/
def setSkip (s : State) : State := { s with fs := { s.fs with skip := true } }

/-- GESTURE's pseudocode (R230 to R232): the Clock is read only when `up` is pressed. -/
def ieGesture (s : State) : Play :=
  let s := s.setPh 4
  if s.ie.pressed.getLsbD 0 then
    let c := readClock s
    if doubleTap c.2.ie.cand c.1 c.2.ie.thresh then
      let s := setCand none c.2
      (if s.exposes 6 then callGame .reset s else Play.done s).andThen fun s => Play.done (setSkip s)
    else Play.done (setCand (some c.1) c.2)
  else Play.done s

/-- GESTURE. -/
def execGesture (s : State) : Host.Outcome State Fault Refusal := (ieGesture s).outcome

end Sys2Proof.Machine
end

