-- ==== Sys2Proof/Machine/Scheduler.lean ====
section
/-! DEFINITION. Unit FS: RUN and the tick phases TICKSTART, DISPATCH, UPDATE, DRAW, PACE (43_frame_scheduler.md). STOP
is in Machine/Game.lean, since the Game may issue it. -/

namespace Sys2Proof.Machine

/-- RUN (R251): its registers, the first read of the Clock, and the loop begins at a tick boundary. The loop itself is
Machine/Control.lean's, one tick phase a step; its result comes when it ends. -/
def execRun (s : State) : Host.Outcome State Fault Refusal :=
  let s : State := { s with fs := { s.fs with running := true, first := true, skip := false } }
  let c := readClock s
  .next { c.2 with fs := { c.2.fs with last := c.1, ph := 0 }, ctl := { c.2.ctl with micro := some .tickstart } }

/-- TICKSTART (R253). -/
def execTickstart (s : State) : Host.Outcome State Fault Refusal :=
  let c := readClock s
  .next { c.2 with fs := { c.2.fs with tstart := c.1, dtms := c.1 - c.2.fs.last, last := c.1 } }

/-- The handlers of the buttons ks, in order (R257). -/
def callHandlers (ks : List (Fin 6)) (s : State) : Play :=
  match ks with
  | [] => Play.done s
  | k :: r =>
    (if s.ie.pressed.getLsbD k.val && s.exposes k.val then callGame (.handler k) s else Play.done s).andThen fun s =>
      callHandlers r s

/-- DISPATCH: "for each button, in fixed order" (R257). -/
def execDispatch (s : State) : Host.Outcome State Fault Refusal :=
  (callHandlers [0, 1, 2, 3, 4, 5] (s.setPh 3)).outcome

/-- The elapsed time in seconds, the exact rational FS.DTMS / 1000 (R253, R261). -/
def dtSeconds (dtms : Nat) : Rat := (dtms : Rat) / 1000

/-- UPDATE (R260). -/
def execUpdate (s : State) : Host.Outcome State Fault Refusal :=
  (callGame (.update (dtSeconds s.fs.dtms) s.ie.cur s.ie.pressed) (s.setPh 5)).outcome

/-- draw, then Present() (R264, R266). -/
def drawAndPresent (s : State) : Play := (callGame .draw s).andThen fun s => Play.done (s.emit .present)

/-- DRAW (R264, R265): shouldRedraw is asked whenever the Game has it, the first tick included. -/
def fsDraw (s : State) : Play :=
  let s := s.setPh 6
  if s.exposes 7 then
    (callGame .shouldRedraw s).andThen fun t =>
      if drawNeeded (redrawOf (nextGame s).reply) t.fs.first then drawAndPresent t else Play.done t
  else drawAndPresent s

/-- DRAW. -/
def execDraw (s : State) : Host.Outcome State Fault Refusal := (fsDraw s).outcome

/-- PACE (R267): sleep for what is left of the period, if anything is. -/
def execPace (s : State) : Host.Outcome State Fault Refusal :=
  let c := readClock (s.setPh 7)
  let e := c.1 - c.2.fs.tstart
  if e < c.2.fs.period then .next (sleepFor (c.2.fs.period - e) c.2) else .next c.2

end Sys2Proof.Machine
end

