-- ==== Sys2Proof/Machine/Control.lean ====
section
/-! DEFINITION. What a step does around exec: which tick phase follows which, the end of a tick, the tick boundary and
the return of RUN (43_frame_scheduler.md R251, R258, R269, R271), and where an instruction is put so that the next step
runs it. -/

namespace Sys2Proof.Machine

/-- The phase after a phase (R251): none at the end of a tick, after PACE or after a GESTURE that recognised a
double tap (R258); none for what is no phase. -/
def nextPhase (i : Instr) (skip : Bool) : Option Instr :=
  match i with
  | .tickstart => some .sample
  | .sample => some .edge
  | .edge => some .dispatch
  | .dispatch => some .gesture
  | .gesture => if skip then none else some .update
  | .update => some .draw
  | .draw => some .pace
  | .pace => none
  | .reset | .init | .setwin .. | .setwinrd .. | .wrpix .. | .rdpix .. => none
  | .clear .. | .fillrect .. | .safefillrect .. | .drawimage .. | .textsize .. => none
  | .drawtext .. | .rendertext .. | .clearcaches | .loadsprite .. | .run | .stop => none
  | .busCaset .. | .busPaset .. | .busRamwr | .busRamrd => none
  | .busSlpout | .busDispon | .busInitEntry .. => none

/-- Is it a tick phase? -/
def isPhase (i : Instr) : Bool := decide (i.space = .phase)

/-- The end of a tick (R269) and the top of the loop's next pass: FS.PH <- 0. -/
def endTick (s : State) : State :=
  { s with fs := { s.fs with first := false, skip := false, ph := 0 }, ctl := { s.ctl with micro := some .tickstart } }

/-- A phase completed: the next one is next, or the tick ends. -/
def advance (i : Instr) (s : State) : State :=
  match nextPhase i s.fs.skip with
  | some j => { s with ctl := { s.ctl with micro := some j } }
  | none => endTick s

/-- What follows a phase: nothing if the thread is stuck, the return of RUN if a fault abandoned it
(60_exceptions.md R296), else the next phase. -/
def afterPhase (i : Instr) (s : State) : State :=
  if s.ctl.blocked.isSome then s
  else if s.ctl.micro.isNone then returnToHost s
  else advance i s

/-- What follows an operation of the port: its result is returned, unless RUN has begun or the thread is stuck. -/
def afterPort (s : State) : State :=
  if s.ctl.blocked.isSome || s.ctl.micro.isSome then s else returnToHost s

/-- RUN returns `stopped` (R251, R271). -/
def returnStopped (s : State) : State :=
  returnToHost { s with ctl := { s.ctl with micro := none, result := .stopped } }

/-- A tick boundary with the stop signal raised: phase 0 is next and FS.RUNNING is 0 (R271). -/
def atStop (i : Instr) (s : State) : Bool := decide (i = .tickstart) && !s.fs.running

/-- The state after an outcome. -/
def mapNext (f : State → State) (o : Host.Outcome State Fault Refusal) : Host.Outcome State Fault Refusal :=
  match o with
  | .next s => .next (f s)
  | .fault r => .fault r
  | .refused r => .refused r

/-- The fault a stuck thread shows (60_exceptions.md R302, R303). -/
def Block.fault : Block → Fault
  | .bus => .busStalled
  | .game => .gameHung
  | .provider => .providerHung

/-- The operation being issued by the Host is taken from the port. -/
def State.setHost (ops : List (List Byte)) (s : State) : State := { s with env := { s.env with host := ops } }

/-- The sequencer's next internal operation. -/
def State.setMicro (m : Option Instr) (s : State) : State := { s with ctl := { s.ctl with micro := m } }

/-- s with instruction i placed where the next step takes it: an operation at the port, a tick phase as the next phase
of a running loop with no stop signal, a frame as an internally issued operation. -/
def placeInstr (i : Instr) (s : State) : State :=
  let s : State := { s with ctl := { s.ctl with blocked := none } }
  match i.space with
  | .port => (s.setHost (encode i :: s.env.host)).setMicro none
  | .phase =>
    ({ s with fs := { s.fs with running := true }, env := { s.env with stops := [] } } : State).setMicro (some i)
  | .frame => s.setMicro (some i)

/-- s with the instruction of a table word placed there; the word's own bytes at the port if it is none. -/
def placeWord (s : State) (nbits w : Nat) : State :=
  match decodeTableWord nbits w with
  | some i => placeInstr i s
  | none => (({ s with ctl := { s.ctl with blocked := none } } : State).setHost
      (tableBytes nbits w :: s.env.host)).setMicro none

end Sys2Proof.Machine
end

