-- ==== Sys2Proof/Machine/Dispatch.lean ====
section
/-! DEFINITION. exec: one arm per instruction, in the order of spec/opcode_table.json. -/

namespace Sys2Proof.Machine

def exec (i : Instr) (s : State) : Host.Outcome State Fault Refusal :=
  match i with
  -- unit DP
  | .reset => Sys2Proof.Machine.execReset s
  | .init => Sys2Proof.Machine.execInit s
  | .setwin x0 y0 x1 y1 => Sys2Proof.Machine.execSetwin x0 y0 x1 y1 s
  | .setwinrd x0 y0 x1 y1 => Sys2Proof.Machine.execSetwinrd x0 y0 x1 y1 s
  | .wrpix buf => Sys2Proof.Machine.execWrpix buf s
  | .rdpix n => Sys2Proof.Machine.execRdpix n s
  -- unit GS
  | .clear color => Sys2Proof.Machine.execClear color s
  | .fillrect x y w h color => Sys2Proof.Machine.execFillrect x y w h color s
  | .safefillrect x y w h color => Sys2Proof.Machine.execSafefillrect x y w h color s
  | .drawimage x y w h buf => Sys2Proof.Machine.execDrawimage x y w h buf s
  | .textsize text scale => Sys2Proof.Machine.execTextsize text scale s
  | .drawtext x y text color bg scale => Sys2Proof.Machine.execDrawtext x y text color bg scale s
  | .rendertext text color bg scale => Sys2Proof.Machine.execRendertext text color bg scale s
  | .clearcaches => Sys2Proof.Machine.execClearcaches s
  | .loadsprite name w h => Sys2Proof.Machine.execLoadsprite name w h s
  -- unit FS at the port
  | .run => Sys2Proof.Machine.execRun s
  | .stop => Sys2Proof.Machine.execStop s
  -- the tick phases of units FS and IE
  | .tickstart => Sys2Proof.Machine.execTickstart s
  | .sample => Sys2Proof.Machine.execSample s
  | .edge => Sys2Proof.Machine.execEdge s
  | .dispatch => Sys2Proof.Machine.execDispatch s
  | .gesture => Sys2Proof.Machine.execGesture s
  | .update => Sys2Proof.Machine.execUpdate s
  | .draw => Sys2Proof.Machine.execDraw s
  | .pace => Sys2Proof.Machine.execPace s
  -- the command frames of the bus
  | .busCaset x0 x1 => Sys2Proof.Machine.execBusCaset x0 x1 s
  | .busPaset y0 y1 => Sys2Proof.Machine.execBusPaset y0 y1 s
  | .busRamwr => Sys2Proof.Machine.execBusRamwr s
  | .busRamrd => Sys2Proof.Machine.execBusRamrd s
  | .busSlpout => Sys2Proof.Machine.execBusSlpout s
  | .busDispon => Sys2Proof.Machine.execBusDispon s
  | .busInitEntry cmd params => Sys2Proof.Machine.execBusInitEntry cmd params s

end Sys2Proof.Machine
end

