-- ==== Sys2Proof/Machine/Step.lean ====
section
/-! DEFINITION. One step of the engine thread (00_scope.md R4): a stuck thread has no next step; the internally issued
operation that is next, a tick phase of RUN, is performed; else the Host's next operation at the port; else the
hardware waits (70_reset_and_hazards.md R330). -/

namespace Sys2Proof.Machine

/-- One tick phase of RUN (43_frame_scheduler.md R251): the Stopper may act, and at a tick boundary the stop signal
ends the loop (R271). -/
def stepPhase (i : Instr) (s : State) : Host.Outcome State Fault Refusal :=
  if atStop i (pollStop s) then .next (returnStopped (pollStop s))
  else mapNext (afterPhase i) (exec i (pollStop s))

/-- One operation the Host presents (30_encoding.md R92), or its refusal (R96). -/
def stepPort (bs : List Byte) (s : State) : Host.Outcome State Fault Refusal :=
  match decodePort bs with
  | .ok i => mapNext afterPort (exec i s)
  | .error e => .refused (decodeRefusal e)

/-- One step. -/
def step (s : State) : Host.Outcome State Fault Refusal :=
  match s.ctl.blocked with
  | some b => .fault (Block.fault b)
  | none =>
    match s.ctl.micro with
    | some i => if isPhase i then stepPhase i s else exec i (s.setMicro none)
    | none =>
      match s.env.host with
      | [] => .next s
      | bs :: r => stepPort bs (s.setHost r)

/-- s with the instruction of a table word where the next step takes it (Machine/Control.lean). -/
def State.withFetchWord (s : State) (nbits w : Nat) : State := placeWord s nbits w

end Sys2Proof.Machine
end

