-- ==== Sys2Proof/Safety.lean ====
section
/-! DEFINITION. What claims speak of: the premises the spec names (no bus fault injected, a panel that is defined),
the contract of the bus (30_encoding.md R106), the observation (00_scope.md R15), and the invariants of the machine. -/

namespace Sys2Proof.Machine

/-- "no `BusError` is injected", the premise 60_exceptions.md R293 asks for; no timing fault and no stall either
(R294, R303). -/
abbrev Quiet (s : State) : Prop := s.env.bus = []

/-- The panel is defined and configured: "every claim about the panel" needs DEVU = 0 (60_exceptions.md R300), and
drawing needs INIT (40_display_protocol.md R152); the six commands are distinct (92_eei_decisions.md D8). -/
structure Ready (s : State) : Prop where
  quiet    : Quiet s
  defined  : s.devu = false
  inited   : s.dp.initd = true
  distinct : s.par.cmds.Distinct

/-- No fault has been latched: "every claim takes FAULT = 0 as a premise" (60_exceptions.md R298). -/
abbrev NoFault (s : State) : Prop := s.fault.code = 0

/-- The observation of a run (00_scope.md R15): the flat trace and the final fault state. -/
def State.observation (s : State) : List Event × FaultRegs := (s.flat, s.fault)

/-! ### The contract of the bus (30_encoding.md R106) -/

/-- Where a framed trace stands: outside a transaction, with the level DC was last set to if it was set since the last
CS(1); or inside one, with its level and how many bytes have gone. -/
inductive FramePos where
  | outside (dc : Option Bool)
  | inside (dc : Bool) (bytes : Nat)
  deriving DecidableEq, Repr

/-- One event of a framed trace; none: a framing law is broken. (a) every C, D, Q lies between CS(0) and CS(1); (b) the
level does not change there, and a command transaction has exactly one byte; (c) DC is set to the transaction's level
before CS(0). Events that are no part of a transaction happen outside one. -/
def frameStep (par : Params) (p : FramePos) (e : Event) : Option FramePos :=
  match p, e with
  | .outside _, .dc l => some (.outside (some l))
  | .outside (some l), .cs false => some (.inside l 0)
  | .inside l n, .cmd _ => if l = par.dcCmd ∧ n = 0 then some (.inside l 1) else none
  | .inside l n, .dat _ => if l = par.dcData then some (.inside l (n + 1)) else none
  | .inside l n, .rd _ => if l = par.dcData then some (.inside l (n + 1)) else none
  | .inside l n, .cs true => if l = par.dcCmd → n = 1 then some (.outside none) else none
  | .outside d, .rst _ => some (.outside d)
  | .outside d, .wait _ => some (.outside d)
  | .outside d, .provider => some (.outside d)
  | .outside d, .call _ => some (.outside d)
  | .outside d, .answer _ _ => some (.outside d)
  | .outside d, .present => some (.outside d)
  | .outside d, .sleep _ => some (.outside d)
  | .outside d, .ret _ => some (.outside d)
  | _, _ => none

/-- A whole framed trace. -/
def frameRun (par : Params) (p : FramePos) (es : List Event) : Option FramePos :=
  match es with
  | [] => some p
  | e :: r => (frameStep par p e).bind fun q => frameRun par q r

/-- "three framing laws that hold of every framed trace" (R106), as long as no fault is latched ("every claim takes
FAULT = 0 as a premise", 60_exceptions.md R298: a fault in the middle of a transaction leaves CS_n at 0, R296); no
transaction is open, CS_n is 1, unless the thread is stuck in one (R303). The two levels of DC differ (00_scope.md
R9). -/
def Framed (s : State) : Prop :=
  s.par.dcCmd ≠ s.par.dcData ∧
  (NoFault s → ∃ p, frameRun s.par (.outside none) s.trace = some p ∧
    (s.ctl.blocked ≠ some .bus → p = .outside none ∧ s.pins.csN = true))

/-! ### Invariants -/

/-- PAN.GRAM and PAN.CFG are in canonical form. -/
abbrev PanelWf (s : State) : Prop := s.pan.gram.wf = true ∧ cfgWf s.pan.cfg = true

/-- Every entry of GS.TCACHE equals what RENDERTEXT returns for its key, its scale is at least 1, and no key occurs
twice (10_state.md R33, 41_graphics_surface.md R196). -/
def TextCacheOk (s : State) : Prop :=
  (∀ e ∈ s.gs.tcache, e.2 = renderKey s.par.font e.1 ∧ 1 ≤ e.1.scale) ∧ (s.gs.tcache.map Prod.fst).Nodup

/-- Each map holds at most CACHE_CAPACITY entries (41_graphics_surface.md R200). -/
def CachesBounded (s : State) : Prop :=
  ∀ c, s.par.cacheCapacity = some c → s.gs.tcache.length ≤ c ∧ s.gs.scache.length ≤ c

/-- Every time in a register was read from the Clock, so none is later than its last answer
(43_frame_scheduler.md R252). -/
def TimesPast (s : State) : Prop :=
  s.fs.last ≤ s.env.now ∧ s.fs.tstart ≤ s.env.now ∧ ∀ c, s.ie.cand = some c → c ≤ s.env.now

/-- "Every operation starts and ends with DP.ST = DP_IDLE", except that a stalled bus leaves it (10_state.md R24). -/
def SequencerIdle (s : State) : Prop := s.ctl.blocked ≠ some .bus → s.dp.st = .idle

/-- What is constant after power-on (10_state.md R49; 00_scope.md R9): the configuration registers and the
parameters. -/
structure SameConfig (s t : State) : Prop where
  width    : t.cfgWidth = s.cfgWidth
  height   : t.cfgHeight = s.cfgHeight
  handlers : t.handlers = s.handlers
  thresh   : t.ie.thresh = s.ie.thresh
  period   : t.fs.period = s.fs.period
  par      : t.par = s.par

/-- What 00_scope.md R9 and 40_display_protocol.md R136 require of the parameters: a surface that has pixels (D12), a
positive period (D27), settle times at their lower bounds or above (R9, 70_reset_and_hazards.md R337), six distinct
command bytes (D8), INIT_SEQ of R136's shape, two levels of DC, and an even chunk of at least 2 (D18). -/
structure ParametersOk (s : State) : Prop where
  width   : 0 < s.cfgWidth.toNat
  height  : 0 < s.cfgHeight.toNat
  period  : 0 < s.fs.period
  rstLow  : 50 ≤ s.par.rstLowMs
  rstHigh : 50 ≤ s.par.rstHighMs
  slpout  : 120 ≤ s.par.slpoutMs
  dispon  : 20 ≤ s.par.disponMs
  cmds    : s.par.cmds.Distinct
  init    : s.par.init.Shape s.par.cmds
  levels  : s.par.dcCmd ≠ s.par.dcData
  chunk   : 2 ≤ s.par.chunkBytes ∧ s.par.chunkBytes % 2 = 0

/-! ### What the bus shows of an operation -/

/-- The frames of a window: columns, rows, then the RAM command `last` (30_encoding.md R107, 40_display_protocol.md
R140, R144). -/
def windowTrace (c : CmdBytes) (last : Byte) (x0 y0 x1 y1 : Half) : List Event :=
  .cmd c.caset :: (be16 x0 ++ be16 x1).map Event.dat ++ .cmd c.paset :: (be16 y0 ++ be16 y1).map Event.dat ++ [.cmd last]

/-- The handshake (R135). -/
def initTrace (par : Params) : List Event :=
  par.init.seq.flatMap (fun e => .cmd e.cmd :: e.params.map Event.dat) ++
    [.cmd par.cmds.slpout, .wait par.slpoutMs, .cmd par.cmds.dispon, .wait par.disponMs]

/-- A window sent by SETWIN, with integer bounds that fit their fields. -/
def setwinTrace (s : State) (x0 y0 x1 y1 : Int) : List Event :=
  windowTrace s.par.cmds s.par.cmds.ramwr (boundField x0) (boundField y0) (boundField x1) (boundField y1)

/-- DP.WIN, DP.MODE and DP.ST after SETWIN (mode = write) or SETWINRD (mode = read). -/
def windowedDp (s : State) (x0 y0 x1 y1 : Int) (mode : StreamMode) : DpRegs :=
  { s.dp with
    win := { x0 := boundField x0, y0 := boundField y0, x1 := boundField x1, y1 := boundField y1 }
    mode := mode, st := .idle }

/-- The pins after a transaction of the given level (10_state.md R27). -/
def pinsAfter (s : State) (level : Bool) : Pins := { s.pins with csN := true, dc := level }

/-- The pins after a window and then that many bytes of data: the last transaction was the RAM command or the data. -/
def pinsAfterBlit (s : State) (bytes : Nat) : Pins := pinsAfter s (if bytes = 0 then s.par.dcCmd else s.par.dcData)

/-- The pins after data, if there was any (30_encoding.md R101, R102). -/
def pinsAfterData (s : State) (bytes : Nat) : Pins := if bytes = 0 then s.pins else pinsAfter s s.par.dcData

/-! ### What an operation leaves alone -/

/-- What every operation of units DP and GS leaves alone while the bus works: FAULT, units IE and FS, the configuration,
the external agents and the sequencer (40_display_protocol.md R153, 41_graphics_surface.md R209 (g), 10_state.md
R49). -/
structure SameBeyondBus (s t : State) : Prop where
  fault     : t.fault = s.fault
  ie        : t.ie = s.ie
  fs        : t.fs = s.fs
  handlers  : t.handlers = s.handlers
  cfgWidth  : t.cfgWidth = s.cfgWidth
  cfgHeight : t.cfgHeight = s.cfgHeight
  par       : t.par = s.par
  env       : t.env = s.env
  micro     : t.ctl.micro = s.ctl.micro
  blocked   : t.ctl.blocked = s.ctl.blocked

/-- The two states differ at most in unit FS's and unit IE's registers, the agents' answers, the trace and the
sequencer: nothing was drawn, no register of unit DP, cache or pin changed. -/
structure SameDisplay (s t : State) : Prop where
  dp        : t.dp = s.dp
  pins      : t.pins = s.pins
  pan       : t.pan = s.pan
  devu      : t.devu = s.devu
  draws     : t.draws = s.draws
  gs        : t.gs = s.gs
  handlers  : t.handlers = s.handlers
  cfgWidth  : t.cfgWidth = s.cfgWidth
  cfgHeight : t.cfgHeight = s.cfgHeight
  par       : t.par = s.par

/-- Every byte of PAN.GRAM reads as before. -/
def SameGram (s t : State) : Prop := ∀ a, t.pan.gram.read a = s.pan.gram.read a

/-- Address a holds a byte of a pixel of the w by h rectangle at (x0,y0). -/
def InRectangle (x0 y0 w h a : Nat) : Prop :=
  ∃ i j, i < w ∧ j < h ∧ (a = pixelAddr (x0 + i) (y0 + j) ∨ a = pixelAddr (x0 + i) (y0 + j) + 1)

/-- Every byte of PAN.GRAM outside the rectangle reads as before. -/
def SameOutside (x0 y0 w h : Nat) (s t : State) : Prop :=
  ∀ a, ¬ InRectangle x0 y0 w h a → t.pan.gram.read a = s.pan.gram.read a

/-- Pixel k of a buffer in wire order (20_memory.md R67). -/
def bufferPixel (buf : List Byte) (k : Nat) : Half := half (buf.getD (2 * k) 0) (buf.getD (2 * k + 1) 0)

/-- The rectangle shows the buffer, row by row (20_memory.md R62, R109). -/
def Shows (x0 y0 w h : Nat) (buf : List Byte) (t : State) : Prop :=
  ∀ i j, i < w → j < h → t.pan.gram.readPixel (x0 + i) (y0 + j) = some (bufferPixel buf (j * w + i))

/-- Every cell of the rectangle has one colour. -/
def Filled (x0 y0 w h : Nat) (color : Half) (t : State) : Prop :=
  ∀ i j, i < w → j < h → t.pan.gram.readPixel (x0 + i) (y0 + j) = some color

/-- The panel after a window was sent to it (20_memory.md R81, R82). -/
def windowedPanel (p : Panel) (x0 y0 x1 y1 : Half) (mode : StreamMode) (cmd : Byte) : Panel :=
  { p with xs := x0, ys := y0, xe := x1, ye := y1, mode := mode, ptr := 0, hb := none, cmd := cmd, np := 0 }

/-- Two outcomes that differ at most in the panel and in what claims about it may say (20_memory.md R80). -/
def SameButPanel (a b : Host.Outcome State Fault Refusal) : Prop :=
  match a, b with
  | .next s, .next t => t = { s with pan := t.pan, devu := t.devu, draws := t.draws }
  | .refused q, .refused r => q = r
  | .fault e, .fault f => e = f
  | _, _ => False

/-- Two outcomes that differ at most in the text cache (41_graphics_surface.md R199). -/
def SameButTextCache (a b : Host.Outcome State Fault Refusal) : Prop :=
  match a, b with
  | .next s, .next t => t = { s with gs := { s.gs with tcache := t.gs.tcache } }
  | .refused q, .refused r => q = r
  | .fault e, .fault f => e = f
  | _, _ => False

/-! ### The laws of unit GS (41_graphics_surface.md R209) -/

/-- From s to t events were added to the trace, and the panel was read by none of them. -/
def ReadsNothing (s t : State) : Prop := ∃ es, t.out = es ++ s.out ∧ ∀ r, Event.rd r ∉ es

/-- "Properties a model should hold as tests" (R209), item by item; (a) and (c) while the bus works (60_exceptions.md
R293). In (g) "no GS operation changes IE or FS state" but by fault entry, which clears FS.RUNNING (R296). -/
structure SurfaceLaws (s : State) : Prop where
  /-- (a) FILLRECT sends nothing, or a valid window and exactly 2·w·h data bytes -/
  fillrect : Quiet s → ∀ (x y w h : Int) (color : Half), ∃ t, exec (.fillrect x y w h color) s = .next t ∧
    (t.flat = s.flat ∨ (winValid s.width s.height x y (x + w - 1) (y + h - 1) = true ∧
      ∃ bs : List Byte, (bs.length : Int) = 2 * w * h ∧
        t.flat = s.flat ++ setwinTrace s x y (x + w - 1) (y + h - 1) ++ bs.map Event.dat))
  /-- (b) SAFEFILLRECT never makes SETWIN see a window that is not WinValid -/
  safefillrect : ∀ (x y w h : Int) (color : Half),
    exec (.safefillrect x y w h color) s = .next (s.setResult .nothing) ∨
    ∃ xa ya wa ha : Int, exec (.safefillrect x y w h color) s = exec (.fillrect xa ya wa ha color) s ∧
      winValid s.width s.height xa ya (xa + wa - 1) (ya + ha - 1) = true
  /-- (c) CLEAR always draws -/
  clear : Quiet s → 0 < s.width → 0 < s.height → ∀ color : Half, ∃ t, exec (.clear color) s = .next t ∧
    t.flat = s.flat ++ setwinTrace s 0 0 (s.width - 1) (s.height - 1) ++
      (repeatColor (s.width * s.height).toNat color).map Event.dat
  /-- (d) TEXTSIZE is monotone in len and scale, and its height is 8·max(scale,1) -/
  textsize : ∀ (text text' : List Byte) (scale scale' : Int), text.length ≤ text'.length → scale ≤ scale' →
    ∃ w h w' h' : Int, exec (.textsize text scale) s = .next (s.setResult (.size w h)) ∧
      exec (.textsize text' scale') s = .next (s.setResult (.size w' h')) ∧ w ≤ w' ∧ h ≤ h' ∧ h = 8 * max scale 1
  /-- (e) the sprite at scale sc, sampled at (sc·sx, sc·sy), is the sprite at scale 1 at (sx, sy) -/
  rendertext : ∀ (text : List Byte) (color : Half) (bg : Option Half) (sc sx sy : Nat), 1 ≤ sc →
    sx < 8 * text.length → sy < 8 →
    ∃ big base : Sprite, exec (.rendertext text color bg sc) s = .next (s.setResult (.sprite big)) ∧
      exec (.rendertext text color bg 1) s = .next (s.setResult (.sprite base)) ∧
      bufferPixel big.pix (sc * sy * (8 * text.length * sc) + sc * sx) =
        bufferPixel base.pix (sy * (8 * text.length) + sx)
  /-- (f) no GS operation reads the panel -/
  reads : ∀ (i : Instr) (t : State), i.isSurface = true → exec i s = .next t → ReadsNothing s t
  /-- (g) no GS operation changes IE or FS state -/
  leaves : ∀ (i : Instr) (t : State), i.isSurface = true → exec i s = .next t →
    t.ie = s.ie ∧ (t.fs = s.fs ∨ (t.fs = { s.fs with running := false } ∧ t.fault.code ≠ 0))

/-! ### Callbacks -/

/-- What the Game does in the callback opened in s: its operations, each run to completion
(43_frame_scheduler.md R255). -/
def gameActs (c : Callback) (s : State) : Play := gameOps (nextGame s).ops (openCallback c s)

/-- A callback opened in s runs to state t and answers `ok b` there. -/
def CallbackOk (c : Callback) (s : State) (b : Bool) (t : State) : Prop :=
  ∃ u, gameActs c s = Play.done u ∧ (nextGame s).reply = .ok b ∧ t = u.emit (.answer c (.ok b))

/-- The state after a callback in which the Game issues no operation and answers `ok b`; g is what it does afterwards. -/
def silentCall (c : Callback) (b : Bool) (g : List GameAnswer) (s : State) : State :=
  { s with
    env := { s.env with game := g, asked := s.env.asked + 1 }
    out := .answer c (.ok b) :: .call c :: s.out }

/-- The handlers of the buttons ks, from s to t, each answering ok: one is called only if its button is pressed and
the Game exposes it (R257). -/
def HandlersRun (ks : List (Fin 6)) (s t : State) : Prop :=
  match ks with
  | [] => t = s
  | k :: r =>
    if s.ie.pressed.getLsbD k.val && s.exposes k.val then
      ∃ b u, CallbackOk (.handler k) s b u ∧ HandlersRun r u t
    else HandlersRun r s t

/-- The buttons before button k, in the fixed order (R257). -/
def buttonsBefore (k : Fin 6) : List (Fin 6) := ([0, 1, 2, 3, 4, 5] : List (Fin 6)).filter fun j => decide (j < k)

/-- Tick phase i, performed in s, opens callback c in state q, every callback it opened before having answered ok
(R257, R260, R264, 42_input_edge_gesture.md R230). -/
def CallbackOpens (i : Instr) (c : Callback) (s q : State) : Prop :=
  match i with
  | .dispatch => ∃ k : Fin 6, c = .handler k ∧ HandlersRun (buttonsBefore k) (s.setPh 3) q ∧
      q.ie.pressed.getLsbD k.val = true ∧ q.exposes k.val = true
  | .gesture => c = .reset ∧ s.exposes 6 = true ∧ s.ie.pressed.getLsbD 0 = true ∧
      doubleTap s.ie.cand (readClock (s.setPh 4)).1 s.ie.thresh = true ∧ q = setCand none (readClock (s.setPh 4)).2
  | .update => c = .update (s.fs.dtms / 1000) s.ie.cur s.ie.pressed ∧ q = s.setPh 5
  | .draw =>
    (c = .shouldRedraw ∧ s.exposes 7 = true ∧ q = s.setPh 6) ∨
    (c = .draw ∧ s.exposes 7 = false ∧ q = s.setPh 6) ∨
    (c = .draw ∧ s.exposes 7 = true ∧
      ∃ b, CallbackOk .shouldRedraw (s.setPh 6) b q ∧ (b = true ∨ q.fs.first = true))
  | .tickstart | .sample | .edge | .pace => False
  | .reset | .init | .setwin .. | .setwinrd .. | .wrpix .. | .rdpix .. => False
  | .clear .. | .fillrect .. | .safefillrect .. | .drawimage .. | .textsize .. => False
  | .drawtext .. | .rendertext .. | .clearcaches | .loadsprite .. | .run | .stop => False
  | .busCaset .. | .busPaset .. | .busRamwr | .busRamrd => False
  | .busSlpout | .busDispon | .busInitEntry .. => False

/-- The callbacks opened in a trace, in the order of the list. -/
def calls (es : List Event) : List Callback :=
  es.filterMap fun e => match e with
    | .call c => some c
    | .cmd _ | .dat _ | .rd _ | .rst _ | .wait _ | .cs _ | .dc _ => none
    | .provider | .answer _ _ | .present | .sleep _ | .ret _ => none

end Sys2Proof.Machine
end

