-- ==== Sys2Proof/Certificates/Slice0/Obligations.lean ====
section
/-! DEFINITION. The statements for the provers, rule by rule of the spec. "Quiet" is the premise 60_exceptions.md R293
names ("no BusError is injected"), for R294 and R303 too; what an injected fault or a stall does has statements of its
own. -/

open Sys2Proof Sys2Proof.Machine

/-! ## Encodings (30_encoding.md) -/

/-- R93, R107, R112: no bit of any encoding is dropped. Every well-formed instruction decodes, in its own language, to
itself; an operation of the port also when other bytes follow it. -/
def Obligations.DecodeEncodeRoundTrip : Prop :=
  (∀ i : Instr, i.WellFormed → decode i.space (encode i) = .ok (i, [])) ∧
  (∀ (i : Instr) (r : List Byte), i.WellFormed → i.space = .port → decodeOp (encode i ++ r) = .ok (i, r))

/-- Words of each family written out from 95_test_vectors.md P1 to P3 and from the tables of R91, R93, R107, R112. -/
def Obligations.WordsDecodeAsSpecified : Prop :=
  decodePort [0x01] = .ok .reset ∧
  decodePort [0x11, 0x00, 0x01, 0x00, 0x00, 0x00, 0x02, 0x00, 0x01, 0xF8, 0x00] = .ok (.fillrect 1 0 2 1 0xF800) ∧
  decodePort [0x12, 0xFF, 0xFB, 0x00, 0x00, 0x00, 0x0A, 0x00, 0x0A, 0x07, 0xE0] =
    .ok (.safefillrect (-5) 0 10 10 0x07E0) ∧
  decodePort [0x04, 0x00, 0x00, 0x00, 0x00, 0x00, 0x01, 0x00, 0x00] = .ok (.setwinrd 0 0 1 0) ∧
  decodePort [0x06, 0x00, 0x00, 0x00, 0x02] = .ok (.rdpix 2) ∧
  decodePort [0x15, 0x00, 0x14, 0x00, 0x00, 0xF8, 0x00, 0x00, 0x00, 0x00, 0x00, 0x01, 0x00, 0x01, 0x41] =
    .ok (.drawtext 20 0 [0x41] 0xF800 none 1) ∧
  decodePort [0x21] = .ok .stop ∧
  decodePhase 4 = .gesture ∧
  decodeFrame Config.cmdBytes [0x2A, 0x00, 0x00, 0x00, 0x04] = .ok (.busCaset 0 4, [])

/-- R96: a code that is none of R91's, a bgf other than 0 or 1, an operation shorter than its format, and RUN from the
Game, are refused. -/
def Obligations.ReservedEncodingsRefused : Prop :=
  (∀ (code : Byte) (r : List Byte), code ∉ operationCodes → decodePort (code :: r) = .error (.reservedCode code)) ∧
  (∀ (f r : List Byte) (bgf : Byte), 2 ≤ bgf.toNat → 2 ≤ r.length → f.length = 6 →
    decodePort (0x15 :: (f ++ bgf :: r)) = .error (.reservedBackground bgf)) ∧
  (∀ (f r : List Byte) (bgf : Byte), 2 ≤ bgf.toNat → 2 ≤ r.length → f.length = 2 →
    decodePort (0x16 :: (f ++ bgf :: r)) = .error (.reservedBackground bgf)) ∧
  (∀ (i : Instr) (n : Nat), i.WellFormed → i.space = .port → n < (encode i).length →
    decodePort ((encode i).take n) = .error .truncated) ∧
  (∀ (s : State) (bs : List Byte) (r : List (List Byte)) (e : DecodeError), s.ctl.blocked = none →
    s.ctl.micro = none → s.env.host = bs :: r → decodePort bs = .error e → step s = .refused (decodeRefusal e)) ∧
  (∀ (s : State) (bs : List Byte) (e : DecodeError), decodePort bs = .error e →
    gameBytes bs s = Play.refuse (decodeRefusal e) s) ∧
  ∀ s : State, gameBytes [0x20] s = Play.refuse .issuerNotAllowed s

/-! ## Steps (00_scope.md R4, 30_encoding.md R92, 43_frame_scheduler.md) -/

/-- R4, R92, R255: a step runs the decoded instruction. That the Stopper is asked before every phase and that a step is one
phase are log entries 13 and 14, that a frame runs as an internally issued operation is log entry 25. It performs the operation the Host presents and returns its
result; or the tick phase that is next, after the Stopper could act, unless the loop ends there; or the bus frame that
is next. While an operation issued internally is next (RUN is in progress), the port is not read. Inside a callback an
operation means what it means at the port. -/
def Obligations.StepRunsDecodedInstruction : Prop :=
  (∀ (s : State) (bs : List Byte) (r : List (List Byte)) (i : Instr), s.ctl.blocked = none → s.ctl.micro = none →
    s.env.host = bs :: r → decodePort bs = .ok i → step s = mapNext afterPort (exec i (s.setHost r))) ∧
  (∀ t : State, t.ctl.blocked = none → t.ctl.micro = none → afterPort t = t.emit (.ret t.ctl.result)) ∧
  (∀ (s : State) (i : Instr), s.ctl.blocked = none → s.ctl.micro = some i → i.space = .phase →
    ¬ (i = .tickstart ∧ (pollStop s).fs.running = false) →
    step s = mapNext (afterPhase i) (exec i (pollStop s))) ∧
  (∀ (s : State) (i : Instr), s.ctl.blocked = none → s.ctl.micro = some i → i.space ≠ .phase →
    step s = exec i (s.setMicro none)) ∧
  (∀ (s t : State) (i : Instr), s.ctl.micro = some i → step s = .next t → t.env.host = s.env.host) ∧
  ∀ (i : Instr) (s : State), i.space = .port → i ≠ .run → (gameOp i s).outcome = exec i s

/-- R251, R258, R269, R40: which phase follows a phase that completed, and the end of a tick: after PACE, and at once
after a GESTURE that recognised a double tap. One phase a step, the Stopper asked before it: log entries 13 and 14. -/
def Obligations.TickPhaseOrder : Prop :=
  ∀ s t : State, s.ctl.blocked = none → t.ctl.blocked = none → t.ctl.micro ≠ none →
    let goesOn := fun i j : Instr => s.ctl.micro = some i → exec i (pollStop s) = .next t →
      step s = .next (t.setMicro (some j))
    let ends := fun i : Instr => s.ctl.micro = some i → exec i (pollStop s) = .next t →
      step s = .next ({ t with fs := { t.fs with first := false, skip := false, ph := 0 } }.setMicro (some .tickstart))
    ((pollStop s).fs.running = true → goesOn .tickstart .sample) ∧
    goesOn .sample .edge ∧ goesOn .edge .dispatch ∧ goesOn .dispatch .gesture ∧
    (t.fs.skip = false → goesOn .gesture .update) ∧ (t.fs.skip = true → ends .gesture) ∧
    goesOn .update .draw ∧ goesOn .draw .pace ∧ ends .pace

/-- R271: "Loop terminates only on an explicit external stop signal, checked once per tick boundary". At the boundary
with FS.RUNNING = 0 RUN returns stopped and nothing else changes but that the Stopper has been asked (log entry 13); and a
phase ends the loop there only, unless a fault is raised or the thread hangs. -/
def Obligations.LoopEndsOnlyAtBoundary : Prop :=
  (∀ s : State, s.ctl.blocked = none → s.ctl.micro = some .tickstart → (pollStop s).fs.running = false →
    ∃ t, step s = .next t ∧ t.ctl.micro = none ∧ t.ctl.result = .stopped ∧ t.out = .ret .stopped :: s.out ∧
      t.fs = { s.fs with running := false } ∧ t.ie = s.ie ∧ t.fault = s.fault ∧ t.env = (pollStop s).env ∧
      t.ctl.blocked = none ∧ SameDisplay s t) ∧
  (∀ (s t : State) (i : Instr), s.ctl.micro = some i → i.space = .phase → step s = .next t → t.ctl.micro = none →
    (i = .tickstart ∧ (pollStop s).fs.running = false) ∨ t.fault.code ≠ 0)

/-- R330: the state after power-on reset, and that the hardware then waits for the Host's first operation. Panel.undef is
"wholly undef": free values and no cell; that its streams are closed and its display is off is the model's choice (log
entry 5), and so is a step that changes nothing while the hardware waits (log entry 3). -/
def Obligations.PowerOnReset : Prop :=
  State.reset.dp.st = .idle ∧ State.reset.fs.ph = 0 ∧ State.reset.fs.running = false ∧ State.reset.fault.code = 0 ∧
  State.reset.devu = false ∧ State.reset.pins.csN = true ∧ State.reset.pins.rstN = true ∧
  State.reset.gs.tcache = [] ∧ State.reset.gs.scache = [] ∧ State.reset.ie.prev = 0 ∧ State.reset.ie.cur = 0 ∧
  State.reset.ie.pressed = 0 ∧ State.reset.ie.cand = none ∧ State.reset.dp.mode = .none ∧
  State.reset.dp.rstd = false ∧ State.reset.dp.initd = false ∧ State.reset.dp.seq = 0 ∧
  State.reset.fs.first = false ∧ State.reset.fs.skip = false ∧
  State.reset.ie.thresh = Config.threshMs ∧ State.reset.fs.period = Config.periodMs ∧
  State.reset.handlers = Config.handlers ∧ State.reset.cfgWidth = Config.width ∧
  State.reset.cfgHeight = Config.height ∧
  State.reset.pan = Panel.undef 0 ∧ (∀ a, State.reset.pan.gram.read a = none) ∧
  step State.reset = .next State.reset

/-! ## Unit DP (40_display_protocol.md) -/

/-- RESET (R132, R133) and what the panel loses (20_memory.md R84). -/
def Obligations.ResetPulsesLineAndForgetsPanel : Prop :=
  ∀ s : State, Quiet s → ∃ t, exec .reset s = .next t ∧
    t.flat = s.flat ++ [.rst false, .wait s.par.rstLowMs, .rst true, .wait s.par.rstHighMs] ∧
    t.dp = { s.dp with rstd := true, initd := false, mode := .none, st := .idle } ∧
    t.pins = { s.pins with rstN := true } ∧ t.devu = s.devu ∧ t.gs = s.gs ∧ t.ctl.result = .nothing ∧
    SameBeyondBus s t ∧
    (s.devu = false → t.pan = Panel.undef s.draws ∧ t.pan.mode = .none ∧ t.pan.awake = false ∧ t.pan.on = false ∧
      ∀ a, t.pan.gram.read a = none)

/-- INIT (R135, R138, R139): the handshake goes out; DEVU if no RESET came before. If no entry of INIT_SEQ is one of the
six named commands, nothing else sets DEVU, and the panel is awake and on, its pixels as they were. -/
def Obligations.InitSendsHandshake : Prop :=
  ∀ s : State, Quiet s → ∃ t, exec .init s = .next t ∧ t.flat = s.flat ++ initTrace s.par ∧
    t.dp = { s.dp with initd := true, mode := .none, seq := 0, st := .idle } ∧
    t.pins = pinsAfter s s.par.dcCmd ∧ t.gs = s.gs ∧ t.ctl.result = .nothing ∧ SameBeyondBus s t ∧
    (s.dp.rstd = false → t.devu = true) ∧
    ((∀ e ∈ s.par.init.seq, e.cmd ∉ s.par.cmds.all) → t.devu = (s.devu || !s.dp.rstd) ∧
      (t.devu = false → s.par.cmds.Distinct →
        t.pan.awake = true ∧ t.pan.on = true ∧ t.pan.mode = .none ∧ SameGram s t))

/-- SETWIN and SETWINRD (R140, R141, R144, R152) with bounds in 0..65535: three frames, whatever the window; DEVU is set
exactly when the window is not WinValid or no INIT came before; else the reference panel latches the window and its
stream starts at the first cell (20_memory.md R81, R82). -/
def Obligations.WindowOperationsSendAndLatch : Prop :=
  ∀ (s : State) (x0 y0 x1 y1 : Int), Quiet s →
    (0 ≤ x0 ∧ x0 ≤ 65535) ∧ (0 ≤ y0 ∧ y0 ≤ 65535) ∧ (0 ≤ x1 ∧ x1 ≤ 65535) ∧ (0 ≤ y1 ∧ y1 ≤ 65535) →
    let does := fun (i : Instr) (ram : Byte) (mode : StreamMode) => ∃ t, exec i s = .next t ∧
      t.flat = s.flat ++ windowTrace s.par.cmds ram (boundField x0) (boundField y0) (boundField x1) (boundField y1) ∧
      t.dp = windowedDp s x0 y0 x1 y1 mode ∧ t.pins = pinsAfter s s.par.dcCmd ∧ t.gs = s.gs ∧
      t.ctl.result = .nothing ∧ SameBeyondBus s t ∧
      (t.devu = true ↔ s.devu = true ∨ s.dp.initd = false ∨
        ¬ (0 ≤ x0 ∧ x0 ≤ x1 ∧ x1 < s.width ∧ 0 ≤ y0 ∧ y0 ≤ y1 ∧ y1 < s.height)) ∧
      (t.devu = false → SameGram s t) ∧
      (t.devu = false → s.par.cmds.Distinct →
        t.pan = windowedPanel s.pan (boundField x0) (boundField y0) (boundField x1) (boundField y1) mode ram)
    does (.setwin x0 y0 x1 y1) s.par.cmds.ramwr .write ∧ does (.setwinrd x0 y0 x1 y1) s.par.cmds.ramrd .read

/-- R142: a bound outside 0..65535 is refused before any byte is sent, in SETWIN, SETWINRD, DRAWIMAGE and DRAWTEXT. -/
def Obligations.WindowBoundRefused : Prop :=
  ∀ (s : State) (x0 y0 x1 y1 : Int),
    ¬ ((0 ≤ x0 ∧ x0 ≤ 65535) ∧ (0 ≤ y0 ∧ y0 ≤ 65535) ∧ (0 ≤ x1 ∧ x1 ≤ 65535) ∧ (0 ≤ y1 ∧ y1 ≤ 65535)) →
    exec (.setwin x0 y0 x1 y1) s = .refused .windowBound ∧
    exec (.setwinrd x0 y0 x1 y1) s = .refused .windowBound ∧
    (∀ buf : List Byte, exec (.drawimage x0 y0 (x1 - x0 + 1) (y1 - y0 + 1) buf) s = .refused .windowBound) ∧
    (∀ (x y : Int) (text : List Byte) (color : Half) (bg : Option Half) (scale : Int), TextCacheOk s →
      x0 = clampPos x s.width (textWidth text scale) → y0 = clampPos y s.height (textHeight scale) →
      x1 = x0 + textWidth text scale - 1 → y1 = y0 + textHeight scale - 1 →
      exec (.drawtext x y text color bg scale) s = .refused .windowBound)

/-- R138, R141, R147, R150, R152: a broken duty stops nothing; the bytes go out, the operation completes, and DEVU is
set. -/
def Obligations.BrokenDutiesSetDevu : Prop :=
  ∀ s : State, Quiet s →
    (s.dp.rstd = false → ∃ t, exec .init s = .next t ∧ t.flat = s.flat ++ initTrace s.par ∧ t.devu = true) ∧
    (∀ x0 y0 x1 y1 : Int,
      (0 ≤ x0 ∧ x0 ≤ 65535) ∧ (0 ≤ y0 ∧ y0 ≤ 65535) ∧ (0 ≤ x1 ∧ x1 ≤ 65535) ∧ (0 ≤ y1 ∧ y1 ≤ 65535) →
      ¬ (0 ≤ x0 ∧ x0 ≤ x1 ∧ x1 < s.width ∧ 0 ≤ y0 ∧ y0 ≤ y1 ∧ y1 < s.height) ∨ s.dp.initd = false →
      (∃ t, exec (.setwin x0 y0 x1 y1) s = .next t ∧ t.devu = true ∧
        t.flat = s.flat ++ windowTrace s.par.cmds s.par.cmds.ramwr (boundField x0) (boundField y0) (boundField x1)
          (boundField y1)) ∧
      (∃ t, exec (.setwinrd x0 y0 x1 y1) s = .next t ∧ t.devu = true ∧
        t.flat = s.flat ++ windowTrace s.par.cmds s.par.cmds.ramrd (boundField x0) (boundField y0) (boundField x1)
          (boundField y1))) ∧
    (s.dp.mode ≠ .write ∨ s.dp.initd = false → ∀ buf : List Byte,
      ∃ t, exec (.wrpix buf) s = .next t ∧ t.devu = true ∧ t.flat = s.flat ++ buf.map Event.dat) ∧
    (s.dp.mode ≠ .read ∨ s.dp.initd = false → ∀ n : Nat,
      ∃ t r, exec (.rdpix n) s = .next t ∧ t.devu = true ∧ t.ctl.result = .bytes r ∧ r.length = 2 * n ∧
        t.flat = s.flat ++ r.map Event.rd)

/-- WRPIX (R146, R148): every byte of the buffer goes out, whatever its length. RDPIX (R149, R151): 2·n bytes come in and
are returned unaltered; reading changes no cell. -/
def Obligations.StreamOperationsMoveBytes : Prop :=
  (∀ (s : State) (buf : List Byte), Quiet s → ∃ t, exec (.wrpix buf) s = .next t ∧
    t.flat = s.flat ++ buf.map Event.dat ∧ t.dp = { s.dp with st := .idle } ∧
    t.pins = pinsAfterData s buf.length ∧ t.gs = s.gs ∧ t.ctl.result = .nothing ∧ SameBeyondBus s t) ∧
  ∀ (s : State) (n : Nat), Quiet s → ∃ t r, exec (.rdpix n) s = .next t ∧ r.length = 2 * n ∧
    t.ctl.result = .bytes r ∧ t.flat = s.flat ++ r.map Event.rd ∧ t.dp = { s.dp with st := .idle } ∧
    t.pins = pinsAfterData s (2 * n) ∧ t.gs = s.gs ∧ SameBeyondBus s t ∧ (t.devu = false → SameGram s t)

/-- R146, R148, 20_memory.md R82: from wherever a WRITE stream stands (a high byte pending or not), each whole pixel of
the stream lands in the next cell, row-major; an odd last byte is pending after it; nothing else changes; and a stream
longer than the window sets DEVU. -/
def Obligations.WrpixPaintsStream : Prop :=
  ∀ (s : State) (buf : List Byte), Ready s → s.dp.mode = .write → s.pan.cmd = s.par.cmds.ramwr →
    s.pan.mode = .write → winValid s.width s.height s.pan.xs.toNat s.pan.ys.toNat s.pan.xe.toNat s.pan.ye.toNat = true →
    let bytes := s.pan.hb.toList ++ buf
    let n := bytes.length / 2
    let w := s.pan.xe.toNat - s.pan.xs.toNat + 1
    let h := s.pan.ye.toNat - s.pan.ys.toNat + 1
    let cellX := fun k => s.pan.xs.toNat + (s.pan.ptr + k) % w
    let cellY := fun k => s.pan.ys.toNat + (s.pan.ptr + k) / w
    ∃ t, exec (.wrpix buf) s = .next t ∧
      (n = 0 ∨ s.pan.ptr + n ≤ w * h →
        t.devu = false ∧
        t.pan = { s.pan with
          ptr := s.pan.ptr + n, hb := if bytes.length % 2 = 1 then bytes.getLast? else none, gram := t.pan.gram } ∧
        (∀ k, k < n → t.pan.gram.readPixel (cellX k) (cellY k) = some (bufferPixel bytes k)) ∧
        ∀ a, (∀ k, k < n → a ≠ pixelAddr (cellX k) (cellY k) ∧ a ≠ pixelAddr (cellX k) (cellY k) + 1) →
          t.pan.gram.read a = s.pan.gram.read a) ∧
      (0 < n ∧ w * h < s.pan.ptr + n → t.devu = true)

/-- R153, third law, 20_memory.md R78: WRPIX (a ++ b) and WRPIX a ; WRPIX b have the same flat trace and the same effect
on the panel. -/
def Obligations.WrpixSplitsAnywhere : Prop :=
  ∀ (s : State) (a b : List Byte), Quiet s → ∃ t u v, exec (.wrpix a) s = .next t ∧ exec (.wrpix b) t = .next u ∧
    exec (.wrpix (a ++ b)) s = .next v ∧ u.flat = v.flat ∧ u.devu = v.devu ∧ u.dp = v.dp ∧
    (s.dp.mode = .write → s.dp.initd = true → u.pan = v.pan)

/-- R149, R151, 20_memory.md R71, R83: in a READ stream RDPIX returns the pixels of the next n cells, high byte first;
a cell that holds nothing gives any value, and the stream moves on past it all the same (log entry 12); reading past
the window sets DEVU. -/
def Obligations.RdpixReturnsPixels : Prop :=
  ∀ (s : State) (n : Nat), Ready s → s.dp.mode = .read → s.pan.mode = .read → s.pan.hb = none →
    winValid s.width s.height s.pan.xs.toNat s.pan.ys.toNat s.pan.xe.toNat s.pan.ye.toNat = true →
    let w := s.pan.xe.toNat - s.pan.xs.toNat + 1
    let h := s.pan.ye.toNat - s.pan.ys.toNat + 1
    let cellX := fun k => s.pan.xs.toNat + (s.pan.ptr + k) % w
    let cellY := fun k => s.pan.ys.toNat + (s.pan.ptr + k) / w
    ∃ t r, exec (.rdpix n) s = .next t ∧ t.ctl.result = .bytes r ∧ r.length = 2 * n ∧
      (n = 0 ∨ s.pan.ptr + n ≤ w * h → t.devu = false ∧ t.pan = { s.pan with ptr := s.pan.ptr + n } ∧
        ∀ k p, k < n → s.pan.gram.readPixel (cellX k) (cellY k) = some p → bufferPixel r k = p) ∧
      (0 < n ∧ w * h < s.pan.ptr + n → t.devu = true)

/-- R153, second law, and R149 (95_test_vectors.md V-DP-15): SETWIN of a valid window, then WRPIX of its pixels, shows
exactly them and changes no other cell; SETWINRD of the window and RDPIX then return the buffer. -/
def Obligations.WrittenPixelsShowAndReadBack : Prop :=
  ∀ (s : State) (x0 y0 x1 y1 : Int) (buf : List Byte), Ready s → winValid s.width s.height x0 y0 x1 y1 = true →
    (buf.length : Int) = 2 * (x1 - x0 + 1) * (y1 - y0 + 1) →
    let w := (x1 - x0 + 1).toNat
    let h := (y1 - y0 + 1).toNat
    ∃ t u v q, exec (.setwin x0 y0 x1 y1) s = .next t ∧ exec (.wrpix buf) t = .next u ∧
      exec (.setwinrd x0 y0 x1 y1) u = .next v ∧ exec (.rdpix (w * h)) v = .next q ∧
      Shows x0.toNat y0.toNat w h buf u ∧ SameOutside x0.toNat y0.toNat w h s u ∧ u.devu = false ∧
      q.ctl.result = .bytes buf ∧ q.devu = false ∧ SameGram u q

/-! ## The bus (30_encoding.md, 60_exceptions.md) -/

/-- R100 to R104: what each bus primitive puts on the framed trace and where it leaves the pins. -/
def Obligations.BusPrimitivesFrameTransactions : Prop :=
  ∀ s : State, Quiet s →
    (∀ b : Byte, ∃ t, busCmd b s = .live () t ∧ t.pins = pinsAfter s s.par.dcCmd ∧
      t.trace = s.trace ++ [.dc s.par.dcCmd, .cs false, .cmd b, .cs true]) ∧
    busData [] s = .live () s ∧
    (∀ (b : Byte) (r : List Byte), ∃ t, busData (b :: r) s = .live () t ∧ t.pins = pinsAfter s s.par.dcData ∧
      t.trace = s.trace ++ [.dc s.par.dcData, .cs false] ++ (b :: r).map Event.dat ++ [.cs true]) ∧
    busRead 0 s = .live [] s ∧
    (∀ n : Nat, ∃ t r, busRead (n + 1) s = .live r t ∧ r.length = n + 1 ∧ t.pins = pinsAfter s s.par.dcData ∧
      t.trace = s.trace ++ [.dc s.par.dcData, .cs false] ++ r.map Event.rd ++ [.cs true]) ∧
    (∀ l : Bool, ∃ t, rstLine l s = .live () t ∧ t.pins = { s.pins with rstN := l } ∧
      t.trace = s.trace ++ [.rst l]) ∧
    ∀ ms : Nat, busWait ms s = .live () (s.emit (.wait ms))

/-- R107: the seven frames: one command byte, then its parameters. That a frame by itself is an instruction that ends with
DP.ST idle and leaves unit DP's other registers alone is log entry 25. -/
def Obligations.BusFramesSendBytes : Prop :=
  ∀ s : State, Quiet s →
    let sends := fun (i : Instr) (cmd : Byte) (ps : List Byte) => ∃ t, exec i s = .next t ∧
      t.flat = s.flat ++ .cmd cmd :: ps.map Event.dat ∧ t.dp = { s.dp with st := .idle } ∧
      t.pins = pinsAfterBlit s ps.length ∧ t.gs = s.gs ∧ t.ctl.result = .nothing ∧ SameBeyondBus s t
    (∀ x0 x1 : Half, sends (.busCaset x0 x1) s.par.cmds.caset (be16 x0 ++ be16 x1)) ∧
    (∀ y0 y1 : Half, sends (.busPaset y0 y1) s.par.cmds.paset (be16 y0 ++ be16 y1)) ∧
    sends .busRamwr s.par.cmds.ramwr [] ∧ sends .busRamrd s.par.cmds.ramrd [] ∧
    sends .busSlpout s.par.cmds.slpout [] ∧ sends .busDispon s.par.cmds.dispon [] ∧
    ∀ (cmd : Byte) (params : List Byte), sends (.busInitEntry cmd params) cmd params

/-- 20_memory.md R81, R82: what each frame does to the reference panel; that it runs by itself is log entry 25. -/
def Obligations.BusFramesReachPanel : Prop :=
  ∀ s : State, Quiet s → s.devu = false → s.par.cmds.Distinct →
    let reaches := fun (i : Instr) (p : Panel) => ∃ t, exec i s = .next t ∧ t.devu = false ∧ t.pan = p
    (∀ x0 x1 : Half, reaches (.busCaset x0 x1)
      { s.pan with xs := x0, xe := x1, cmd := s.par.cmds.caset, np := 4, hb := none, mode := .none }) ∧
    (∀ y0 y1 : Half, reaches (.busPaset y0 y1)
      { s.pan with ys := y0, ye := y1, cmd := s.par.cmds.paset, np := 4, hb := none, mode := .none }) ∧
    reaches .busRamwr { s.pan with cmd := s.par.cmds.ramwr, np := 0, hb := none, mode := .write, ptr := 0 } ∧
    reaches .busRamrd { s.pan with cmd := s.par.cmds.ramrd, np := 0, hb := none, mode := .read, ptr := 0 } ∧
    reaches .busSlpout { s.pan with cmd := s.par.cmds.slpout, np := 0, hb := none, mode := .none, awake := true } ∧
    reaches .busDispon { s.pan with cmd := s.par.cmds.dispon, np := 0, hb := none, mode := .none, on := true } ∧
    ∀ (cmd : Byte) (params : List Byte), cmd ∉ s.par.cmds.all →
      ∃ cfg, reaches (.busInitEntry cmd params)
          { s.pan with cmd := cmd, np := params.length, hb := none, mode := .none, cfg := cfg } ∧
        cfgGet cfg cmd = (if params = [] then cfgGet s.pan.cfg cmd else params) ∧
        ∀ k, k ≠ cmd → cfgGet cfg k = cfgGet s.pan.cfg k

/-- 60_exceptions.md R293, R294, R296, R297: a bus error or a timing fault may be injected in a WRPIX after any prefix
of its bytes: those stay sent, the first fault is latched, the run flag falls, the operation is abandoned up to the
port, and CS_n stays 0 unless the fault fell before the transaction. -/
def Obligations.BusFaultAfterAnyPrefix : Prop :=
  ∀ (s : State) (buf : List Byte) (k : Nat) (fate : BusFate) (r : List (Nat × BusFate)) (code : BitVec 8),
    (fate = .busError ∧ code = 3) ∨ (fate = .timingFault ∧ code = 4) → s.env.bus = (k, fate) :: r →
    buf ≠ [] → k ≤ buf.length + 1 →
    ∃ t, exec (.wrpix buf) s = .next t ∧ t.flat = s.flat ++ (buf.take (k - 1)).map Event.dat ∧
      t.fault = (if s.fault.code = 0 then { code := code, info := .nothing } else s.fault) ∧
      t.fs = { s.fs with running := false } ∧ t.ctl.micro = none ∧ t.ctl.result = .fault code .nothing ∧
      t.ctl.blocked = s.ctl.blocked ∧ t.dp.mode = s.dp.mode ∧ t.dp.win = s.dp.win ∧
      t.pins.csN = (if k = 0 then s.pins.csN else false) ∧ t.env.bus = r ∧ t.ie = s.ie ∧ t.gs = s.gs

/-- R303: a transfer that never completes leaves DP.ST and CS_n where they are, is no fault, and has no next step. The mark
ctl.blocked, and that the step after it is the one that stops, are log entry 18; that a stall due before a transaction
(k = 0) waits for its first transfer is log entry 16. -/
def Obligations.StalledBusBlocksForEver : Prop :=
  (∀ (s : State) (buf : List Byte) (k : Nat) (r : List (Nat × BusFate)), s.env.bus = (k, .stall) :: r → buf ≠ [] →
    k ≤ buf.length + 1 →
    ∃ t, exec (.wrpix buf) s = .next t ∧ t.flat = s.flat ++ (buf.take (k - 1)).map Event.dat ∧
      t.ctl.blocked = some .bus ∧ t.dp.st = .tx ∧ t.pins.csN = false ∧ t.fault = s.fault ∧ t.fs = s.fs ∧
      step t = .fault .busStalled) ∧
  (∀ s : State, s.ctl.blocked = some .bus → step s = .fault .busStalled) ∧
  (∀ s : State, s.ctl.blocked = some .game → step s = .fault .gameHung) ∧
  ∀ s : State, s.ctl.blocked = some .provider → step s = .fault .providerHung

/-- R106: the three framing laws hold of the trace after every step, as long as no fault is latched. -/
def Obligations.EveryStepKeepsFraming : Prop :=
  ∀ s t : State, Framed s → step s = .next t → Framed t

/-! ## Unit GS (41_graphics_surface.md) -/

/-- FILLRECT inside the surface (R176, R178): the window, then w·h times the colour, whatever CHUNK_BYTES is; on a
defined panel every cell of the rectangle becomes the colour and no other cell changes. -/
def Obligations.FillrectStreamsColor : Prop :=
  ∀ (s : State) (x y w h : Int) (color : Half), Quiet s → inSurface s.width s.height x y w h = true →
    ∃ t, exec (.fillrect x y w h color) s = .next t ∧
      t.flat = s.flat ++ setwinTrace s x y (x + w - 1) (y + h - 1) ++
        (repeatColor (w * h).toNat color).map Event.dat ∧
      t.dp = windowedDp s x y (x + w - 1) (y + h - 1) .write ∧ t.pins = pinsAfter s s.par.dcData ∧ t.gs = s.gs ∧
      t.ctl.result = .nothing ∧ SameBeyondBus s t ∧ (s.dp.initd = false → t.devu = true) ∧
      (Ready s → t.devu = false ∧ Filled x.toNat y.toNat w.toNat h.toNat color t ∧
        SameOutside x.toNat y.toNat w.toNat h.toNat s t)

/-- R177: "the operation does nothing at all: no SETWIN, no byte on the bus, no register written, DEVU untouched, no
fault". -/
def Obligations.FillrectOutsideDoesNothing : Prop :=
  ∀ (s : State) (x y w h : Int) (color : Half),
    ¬ (0 < w ∧ 0 < h ∧ 0 ≤ x ∧ 0 ≤ y ∧ x + w ≤ s.width ∧ y + h ≤ s.height) →
    exec (.fillrect x y w h color) s = .next (s.setResult .nothing)

/-- CLEAR (R174): a full-surface FILLRECT, which always draws on a surface that has pixels. -/
def Obligations.ClearFillsSurface : Prop :=
  (∀ (s : State) (color : Half), exec (.clear color) s = exec (.fillrect 0 0 s.width s.height color) s) ∧
  (∀ (s : State) (color : Half), Quiet s → 0 < s.width → 0 < s.height →
    ∃ t, exec (.clear color) s = .next t ∧
      t.flat = s.flat ++ setwinTrace s 0 0 (s.width - 1) (s.height - 1) ++
        (repeatColor (s.width * s.height).toNat color).map Event.dat ∧ t.gs = s.gs ∧ SameBeyondBus s t) ∧
  (∀ (s : State) (color : Half), Ready s → 0 < s.width → 0 < s.height →
    ∃ t, exec (.clear color) s = .next t ∧ t.devu = false ∧
      Filled 0 0 s.width.toNat s.height.toNat color t ∧ SameOutside 0 0 s.width.toNat s.height.toNat s t)

/-- SAFEFILLRECT (R180, R181): nothing, or the FILLRECT of the intersection, which is inside the surface. -/
def Obligations.SafefillrectClipsToSurface : Prop :=
  ∀ (s : State) (x y w h : Int) (color : Half),
    let xa := max x 0
    let ya := max y 0
    let xb := min (x + w) s.width
    let yb := min (y + h) s.height
    (xb - xa ≤ 0 ∨ yb - ya ≤ 0 → exec (.safefillrect x y w h color) s = .next (s.setResult .nothing)) ∧
    (¬ (xb - xa ≤ 0 ∨ yb - ya ≤ 0) → inSurface s.width s.height xa ya (xb - xa) (yb - ya) = true ∧
      exec (.safefillrect x y w h color) s = exec (.fillrect xa ya (xb - xa) (yb - ya) color) s) ∧
    (Quiet s → ∃ t, exec (.safefillrect x y w h color) s = .next t ∧ t.gs = s.gs ∧ SameBeyondBus s t)

/-- R180: exactly the pixels of the rectangle that lie on the surface become the colour. -/
def Obligations.SafefillrectPaintsIntersection : Prop :=
  ∀ (s : State) (x y w h : Int) (color : Half), Ready s →
    ∃ t, exec (.safefillrect x y w h color) s = .next t ∧ t.devu = false ∧
      ∀ i j : Nat, i < 65536 → j < 65536 → t.pan.gram.readPixel i j =
        if x ≤ i ∧ (i : Int) < x + w ∧ y ≤ j ∧ (j : Int) < y + h ∧ (i : Int) < s.width ∧ (j : Int) < s.height then
          some color
        else s.pan.gram.readPixel i j

/-- DRAWIMAGE (R183, R184) with bounds that fit: the window and the buffer, untested. -/
def Obligations.DrawimageStreamsBuffer : Prop :=
  ∀ (s : State) (x y w h : Int) (buf : List Byte), Quiet s →
    boundsOk x y (x + w - 1) (y + h - 1) = true →
    ∃ t, exec (.drawimage x y w h buf) s = .next t ∧
      t.flat = s.flat ++ setwinTrace s x y (x + w - 1) (y + h - 1) ++ buf.map Event.dat ∧
      t.dp = windowedDp s x y (x + w - 1) (y + h - 1) .write ∧ t.pins = pinsAfterBlit s buf.length ∧ t.gs = s.gs ∧
      t.ctl.result = .nothing ∧ SameBeyondBus s t ∧
      (winValid s.width s.height x y (x + w - 1) (y + h - 1) = false ∨ s.dp.initd = false → t.devu = true)

/-- R99: DRAWIMAGE is SETWIN and then WRPIX; and the picture it leaves (R183). -/
def Obligations.DrawimageIsWindowThenPixels : Prop :=
  (∀ (s : State) (x y w h : Int) (buf : List Byte), Quiet s → boundsOk x y (x + w - 1) (y + h - 1) = true →
    ∃ t u, exec (.setwin x y (x + w - 1) (y + h - 1)) s = .next t ∧ exec (.wrpix buf) t = .next u ∧
      exec (.drawimage x y w h buf) s = .next u) ∧
  (∀ (s : State) (x y w h : Int) (buf : List Byte), Ready s → inSurface s.width s.height x y w h = true →
    (buf.length : Int) = 2 * w * h →
    ∃ t, exec (.drawimage x y w h buf) s = .next t ∧ t.devu = false ∧
      Shows x.toNat y.toNat w.toNat h.toNat buf t ∧ SameOutside x.toNat y.toNat w.toNat h.toNat s t)

/-- TEXTSIZE (R186, R187): the size in pixels, and nothing else. -/
def Obligations.TextsizeReturnsPixels : Prop :=
  ∀ (s : State) (text : List Byte) (scale : Int), exec (.textsize text scale) s =
    .next (s.setResult (.size (8 * (text.length : Int) * max scale 1) (8 * max scale 1)))

/-- RENDERTEXT (R194, R195): a sprite whose pixel (dx,dy) is the foreground where the glyph's bit is set and the
background elsewhere (black if there is none); nothing but the result is written. -/
def Obligations.RendertextRasterizesGlyphs : Prop :=
  ∀ (s : State) (text : List Byte) (color : Half) (bg : Option Half) (scale : Int),
    let sc := (max scale 1).toNat
    let w := 8 * text.length * sc
    ∃ pix, exec (.rendertext text color bg scale) s =
        .next (s.setResult (.sprite { width := w, height := 8 * sc, pix := pix })) ∧
      pix.length = 2 * w * (8 * sc) ∧
      ∀ dx dy, dx < w → dy < 8 * sc →
        bufferPixel pix (dy * w + dx) =
          if fontBit s.par.font (text.getD (dx / sc / 8) 0) (dy / sc) (dx / sc % 8) then color else bg.getD 0

/-- R197: "destination pixel (dx,dy) equals base glyph-buffer pixel (dx/s, dy/s) for all valid (dx,dy)": the sprite at
scale s against the sprite at scale 1. -/
def Obligations.ScalingReplicatesPixels : Prop :=
  ∀ (s : State) (text : List Byte) (color : Half) (bg : Option Half) (sc : Nat), 1 ≤ sc →
    ∃ big base : Sprite, exec (.rendertext text color bg sc) s = .next (s.setResult (.sprite big)) ∧
      exec (.rendertext text color bg 1) s = .next (s.setResult (.sprite base)) ∧
      big.width = base.width * sc ∧ big.height = base.height * sc ∧
      ∀ dx dy, dx < 8 * text.length * sc → dy < 8 * sc →
        bufferPixel big.pix (dy * (8 * text.length * sc) + dx) =
          bufferPixel base.pix (dy / sc * (8 * text.length) + dx / sc)

/-- R189: the clamp moves the text by the least amount that keeps it on the surface, and never to a negative origin;
text that does not fit is drawn from 0, its window is not WinValid, and DEVU is set. -/
def Obligations.TextPositionIsClamped : Prop :=
  (∀ x extent t : Int, t ≤ extent → 0 ≤ clampPos x extent t ∧ clampPos x extent t + t ≤ extent) ∧
  (∀ x extent t : Int, t ≤ extent → x < 0 → clampPos x extent t = 0) ∧
  (∀ x extent t : Int, t ≤ extent → extent < x + t → clampPos x extent t = extent - t) ∧
  (∀ x extent t : Int, 0 ≤ x → x + t ≤ extent → clampPos x extent t = x) ∧
  (∀ x extent t : Int, extent < t → clampPos x extent t = 0) ∧
  ∀ (s t : State) (x y : Int) (text : List Byte) (color : Half) (bg : Option Half) (scale : Int), Quiet s →
    TextCacheOk s → s.width < textWidth text scale ∨ s.height < textHeight scale →
    exec (.drawtext x y text color bg scale) s = .next t → t.devu = true

/-- DRAWTEXT's fast path (R188, R191): scale 1 after the clamp and no background: one window, the 1× raster streamed
into it, the text cache neither read nor written. -/
def Obligations.DrawtextFastPath : Prop :=
  ∀ (s : State) (x y : Int) (text : List Byte) (color : Half) (scale : Int), Quiet s → scale ≤ 1 →
    let tw := 8 * (text.length : Int)
    let xc := max 0 (min x (s.width - tw))
    let yc := max 0 (min y (s.height - 8))
    let pix := rasterBytes s.par.font text color none 1
    boundsOk xc yc (xc + tw - 1) (yc + 8 - 1) = true →
    ∃ t, exec (.drawtext x y text color none scale) s = .next t ∧
      t.flat = s.flat ++ setwinTrace s xc yc (xc + tw - 1) (yc + 8 - 1) ++ pix.map Event.dat ∧
      t.dp = windowedDp s xc yc (xc + tw - 1) (yc + 8 - 1) .write ∧ t.pins = pinsAfterBlit s pix.length ∧
      t.gs = s.gs ∧ t.ctl.result = .nothing ∧ SameBeyondBus s t ∧
      (Ready s → inSurface s.width s.height xc yc tw 8 = true → t.devu = false ∧
        Shows xc.toNat yc.toNat tw.toNat 8 pix t ∧ SameOutside xc.toNat yc.toNat tw.toNat 8 s t)

/-- DRAWTEXT's cached path (R188, R190, R192, R200): any other colour, background and scale: the sprite of its key is
drawn, and memoised on a miss if the map has room. -/
def Obligations.DrawtextCachedPath : Prop :=
  ∀ (s : State) (x y : Int) (text : List Byte) (color : Half) (bg : Option Half) (scale : Int), Quiet s →
    TextCacheOk s → 1 < scale ∨ bg ≠ none →
    let sc := max scale 1
    let tw := 8 * (text.length : Int) * sc
    let th := 8 * sc
    let xc := max 0 (min x (s.width - tw))
    let yc := max 0 (min y (s.height - th))
    let pix := rasterBytes s.par.font text color bg sc.toNat
    let key : TextKey := { text := text, fg := color, bg := bg, scale := sc }
    boundsOk xc yc (xc + tw - 1) (yc + th - 1) = true →
    ∃ t, exec (.drawtext x y text color bg scale) s = .next t ∧
      t.flat = s.flat ++ setwinTrace s xc yc (xc + tw - 1) (yc + th - 1) ++ pix.map Event.dat ∧
      t.dp = windowedDp s xc yc (xc + tw - 1) (yc + th - 1) .write ∧ t.pins = pinsAfterBlit s pix.length ∧
      t.ctl.result = .nothing ∧ SameBeyondBus s t ∧ t.gs.scache = s.gs.scache ∧
      t.gs.tcache =
        (if (s.gs.tcache.lookup key).isNone ∧ (∀ c, s.par.cacheCapacity = some c → s.gs.tcache.length < c) then
          s.gs.tcache ++ [(key, { width := tw, height := th, pix := pix })]
        else s.gs.tcache) ∧
      (Ready s → inSurface s.width s.height xc yc tw th = true → t.devu = false ∧
        Shows xc.toNat yc.toNat tw.toNat th.toNat pix t ∧ SameOutside xc.toNat yc.toNat tw.toNat th.toNat s t)

/-- R199: cache transparency. Whatever sound contents GS.TCACHE has, DRAWTEXT leaves the same state but for
GS.TCACHE, with bus faults injected or not. -/
def Obligations.TextCacheIsTransparent : Prop :=
  ∀ (s : State) (c : List (TextKey × Sprite)) (x y : Int) (text : List Byte) (color : Half) (bg : Option Half)
    (scale : Int),
    TextCacheOk s → TextCacheOk { s with gs := { s.gs with tcache := c } } →
    SameButTextCache (exec (.drawtext x y text color bg scale) s)
      (exec (.drawtext x y text color bg scale) { s with gs := { s.gs with tcache := c } })

/-- R202: the fast path and the cached path with a black background send the same bytes and leave the same panel. -/
def Obligations.TextPathsAgree : Prop :=
  ∀ (s : State) (x y : Int) (text : List Byte) (color : Half), TextCacheOk s →
    SameButTextCache (exec (.drawtext x y text color none 1) s) (exec (.drawtext x y text color (some 0) 1) s)

/-- CLEARCACHES (R204). -/
def Obligations.ClearcachesEmptiesBoth : Prop :=
  ∀ s : State, exec .clearcaches s = .next ({ s with gs := { tcache := [], scache := [] } }.setResult .nothing)

/-- LOADSPRITE (R206, R207, 60_exceptions.md R291): a hit reads no resource; a miss reads it once, unchecked, and
memoises it if the map has room; `absent` is ResourceNotFound, which inserts nothing. That fault entry leaves DP.ST at
DP_IDLE is log entry 8. -/
def Obligations.LoadspriteHitMissAbsent : Prop :=
  ∀ (s : State) (name : List Byte) (w h : Int),
    let key : SpriteKey := { name := name, width := w, height := h }
    (∀ spr, s.gs.scache.lookup key = some spr →
      exec (.loadsprite name w h) s = .next (s.setResult (.sprite spr))) ∧
    (∀ pix, s.gs.scache.lookup key = none → (readResource s).1 = some pix →
      ∃ t, exec (.loadsprite name w h) s = .next t ∧
        t.ctl.result = .sprite { width := w, height := h, pix := pix } ∧
        t = { (readResource s).2 with gs := t.gs, ctl := { s.ctl with result := t.ctl.result } } ∧
        t.gs.tcache = s.gs.tcache ∧
        t.gs.scache =
          (if ∀ c, s.par.cacheCapacity = some c → s.gs.scache.length < c then
            s.gs.scache ++ [(key, { width := w, height := h, pix := pix })]
          else s.gs.scache)) ∧
    (s.gs.scache.lookup key = none → (readResource s).1 = none →
      ∃ t, exec (.loadsprite name w h) s = .next t ∧ t.ctl.result = .fault 1 (.resource name) ∧
        t.fault = (if s.fault.code = 0 then { code := 1, info := .resource name } else s.fault) ∧
        t.fs = { s.fs with running := false } ∧ t.ctl.micro = none ∧ t.gs = s.gs ∧ t.out = s.out ∧ t.pan = s.pan ∧
        t.pins = s.pins ∧ t.dp = { s.dp with st := .idle } ∧ t.ie = s.ie)

/-! ## Unit IE (42_input_edge_gesture.md) -/

/-- SAMPLE (R222, 60_exceptions.md R292, R302): the provider is called exactly once, all-false if there is none; its
failure is GameFailure(10), and one that never answers hangs the hardware: that it leaves a next state with the mark
ctl.blocked is log entry 18, that fault entry leaves DP.ST idle log entry 8. -/
def Obligations.SampleReadsLevels : Prop :=
  ∀ s : State,
    let asked := (askProvider (s.setPh 1)).2
    (s.par.hasProvider = false →
      exec .sample s = .next { s.setPh 1 with ie := { s.ie with raw := 0 } }) ∧
    (∀ raw, s.par.hasProvider = true → (askProvider (s.setPh 1)).1 = .levels raw →
      exec .sample s = .next { asked with ie := { s.ie with raw := raw } } ∧ asked.out = .provider :: s.out) ∧
    (s.par.hasProvider = true → (askProvider (s.setPh 1)).1 = .fail →
      exec .sample s = .next (enterFault codeGameFailure (.callback 10) asked)) ∧
    (s.par.hasProvider = true → (askProvider (s.setPh 1)).1 = .never →
      exec .sample s = .next { asked with ctl := { s.ctl with blocked := some .provider } })

/-- EDGE (R224, R225): for each button, pressed = raw and not previous raw; then both snapshots are raw. -/
def Obligations.EdgeFindsPresses : Prop :=
  ∀ s : State, ∃ t, exec .edge s = .next t ∧
    t = { s.setPh 2 with ie := { s.ie with cur := s.ie.raw, prev := s.ie.raw, pressed := t.ie.pressed } } ∧
    ∀ k, k < 6 → t.ie.pressed.getLsbD k = (s.ie.raw.getLsbD k && !s.ie.prev.getLsbD k)

/-- GESTURE (R230, R231, R232): the Clock is read only if up is pressed; within the threshold of the candidate it is a
double tap: the candidate is cleared, the Game's reset is called if it has one, and the tick will skip update and draw;
else the time is the new candidate. -/
def Obligations.GestureRecognisesDoubleTap : Prop :=
  ∀ s : State,
    let now := (readClock (s.setPh 4)).1
    let read := (readClock (s.setPh 4)).2
    let cleared : State := { read with ie := { s.ie with cand := none } }
    (s.ie.pressed.getLsbD 0 = false → exec .gesture s = .next (s.setPh 4)) ∧
    (s.ie.pressed.getLsbD 0 = true → (∀ c, s.ie.cand = some c → c + s.ie.thresh < now) →
      exec .gesture s = .next { read with ie := { s.ie with cand := some now } }) ∧
    (∀ c, s.ie.pressed.getLsbD 0 = true → s.ie.cand = some c → now ≤ c + s.ie.thresh → s.exposes 6 = false →
      exec .gesture s = .next { cleared with fs := { cleared.fs with skip := true } }) ∧
    (∀ (c : Nat) (b : Bool) (u : State), s.ie.pressed.getLsbD 0 = true → s.ie.cand = some c →
      now ≤ c + s.ie.thresh → s.exposes 6 = true → CallbackOk .reset cleared b u →
      exec .gesture s = .next { u with fs := { u.fs with skip := true } })

/-! ## Unit FS (43_frame_scheduler.md) -/

/-- RUN (R251): FS.RUNNING and FS.FIRST are set, FS.SKIP cleared, FS.LAST is the Clock's answer, and the loop is at a
tick boundary (RUN as a step that only starts the loop is log entry 14); no other unit is re-initialised
(70_reset_and_hazards.md R331). STOP (R270): FS.RUNNING <- 0, and nothing
else. -/
def Obligations.RunStartsLoopStopEndsIt : Prop :=
  (∀ s : State, ∃ t, exec .run s = .next t ∧
    t.fs = { s.fs with running := true, first := true, skip := false, last := (readClock s).1, ph := 0 } ∧
    t.ctl = { s.ctl with micro := some .tickstart } ∧ t.env = (readClock s).2.env ∧ t.ie = s.ie ∧
    t.fault = s.fault ∧ t.out = s.out ∧ SameDisplay s t) ∧
  ∀ s : State, exec .stop s = .next ({ s with fs := { s.fs with running := false } }.setResult .nothing)

/-- TICKSTART (R253); the difference of times is log entry 11. -/
def Obligations.TickstartMeasuresDelta : Prop :=
  ∀ s : State,
    let now := (readClock s).1
    exec .tickstart s =
      .next { (readClock s).2 with fs := { s.fs with tstart := now, dtms := now - s.fs.last, last := now } }

/-- DISPATCH (R257, R259, R274 (a)): the handlers of the buttons that are pressed and that the Game exposes, in the order
up, down, left, right, a, b; FS.PH is 3. Whatever the Game does in its handlers, the callbacks opened are, in order, a
beginning of the list of those buttons: each at most once, none out of order. -/
def Obligations.DispatchCallsHandlersInOrder : Prop :=
  (∀ s t : State, HandlersRun [0, 1, 2, 3, 4, 5] (s.setPh 3) t → exec .dispatch s = .next t) ∧
  (∀ s : State, (∀ k : Fin 6, s.ie.pressed.getLsbD k.val = false ∨ s.exposes k.val = false) →
    exec .dispatch s = .next (s.setPh 3)) ∧
  ∀ s t : State, exec .dispatch s = .next t →
    ∃ es, t.out = es.reverse ++ s.out ∧
      calls es <+: (([0, 1, 2, 3, 4, 5] : List (Fin 6)).filter
        fun k => s.ie.pressed.getLsbD k.val && s.exposes k.val).map Callback.handler

/-- UPDATE (R260, R261): update is called with FS.DTMS / 1000 seconds and the input state; FS.PH is 5. -/
def Obligations.UpdateCallsGame : Prop :=
  (∀ (s t : State) (b : Bool),
    CallbackOk (.update (s.fs.dtms / 1000) s.ie.cur s.ie.pressed) (s.setPh 5) b t → exec .update s = .next t) ∧
  ∀ (s : State) (b : Bool) (g : List GameAnswer), s.env.game = { ops := [], reply := .ok b } :: g →
    exec .update s =
      .next (silentCall (.update (s.fs.dtms / 1000) s.ie.cur s.ie.pressed) b g (s.setPh 5))

/-- DRAW (R264, R265, R266): shouldRedraw is asked if the Game has it; draw and Present follow if it has none, if it
answers true, or on the first tick; else nothing. FS.PH is 6. -/
def Obligations.DrawAsksThenDraws : Prop :=
  (∀ (s t : State) (b : Bool), s.exposes 7 = false → CallbackOk .draw (s.setPh 6) b t →
    exec .draw s = .next (t.emit .present)) ∧
  (∀ (s : State) (b : Bool) (g : List GameAnswer), s.exposes 7 = false →
    s.env.game = { ops := [], reply := .ok b } :: g →
    exec .draw s = .next ((silentCall .draw b g (s.setPh 6)).emit .present)) ∧
  (∀ (s u t : State) (b c : Bool), s.exposes 7 = true → CallbackOk .shouldRedraw (s.setPh 6) b u →
    b = true ∨ s.fs.first = true → CallbackOk .draw u c t → exec .draw s = .next (t.emit .present)) ∧
  (∀ s u : State, s.exposes 7 = true → CallbackOk .shouldRedraw (s.setPh 6) false u → s.fs.first = false →
    exec .draw s = .next u)

/-- PACE (R267): sleep for what is left of the period; nothing if the tick took that long or longer. FS.PH is 7. The elapsed
time is a difference of times cut off at 0, which the model chose (log entry 11); it is exact where TimesPast holds. -/
def Obligations.PaceSleepsRemainder : Prop :=
  ∀ s : State,
    let read := (readClock (s.setPh 7)).2
    let e := (readClock (s.setPh 7)).1 - s.fs.tstart
    (e < s.fs.period → ∃ t, exec .pace s = .next t ∧ t.out = .sleep (s.fs.period - e) :: s.out ∧
      t = { read with out := t.out, env := { read.env with slept := s.fs.period - e } }) ∧
    (s.fs.period ≤ e → exec .pace s = .next read)

/-- R272, R292, R296: the Game answers `fail` to any callback: the handlers 0 to 5, reset 6, shouldRedraw 7, update 8, draw 9
(30_encoding.md R113). The rest of the tick is not executed, GameFailure with the callback's number is latched unless a
fault was before it, the run flag falls, RUN returns the fault to the Host, and everything else is as the callback left
it, but that DP.ST is idle (log entry 8). -/
def Obligations.FailedCallbackEndsRun : Prop :=
  ∀ (s q u : State) (i : Instr) (c : Callback), s.ctl.blocked = none → s.ctl.micro = some i →
    CallbackOpens i c (pollStop s) q → gameActs c q = Play.done u → (nextGame q).reply = .fail → u.ctl.blocked = none →
    step s = .next { u with
      fs := { u.fs with running := false }
      fault := if u.fault.code = 0 then { code := 2, info := .callback c.number } else u.fault
      dp := { u.dp with st := .idle }
      ctl := { u.ctl with micro := none, result := .fault 2 (.callback c.number) }
      out := .ret (.fault 2 (.callback c.number)) :: .answer c .fail :: u.out }

/-- R255, R291, R296: a fault raised by any operation inside any callback ends the callback with `fail`; the operation's
fault, never GameFailure, is the one reported, latched unless a fault was before it; and RUN returns at once. That the
answer stands in the trace after the operation's own events is log entry 19, that DP.ST is idle log entry 8. The second
clause is one such fault: LOADSPRITE of a resource that is absent, first in update. -/
def Obligations.FaultInsideCallbackEndsRun : Prop :=
  (∀ (s q : State) (i : Instr) (c : Callback), s.ctl.blocked = none → s.ctl.micro = some i →
    CallbackOpens i c (pollStop s) q → (gameActs c q).refusal = none → (gameActs c q).live = false →
    (gameActs c q).st.ctl.blocked = none →
    let u := (gameActs c q).st
    ∃ code info, (code = 1 ∨ code = 3 ∨ code = 4) ∧
      u.fault = (if q.fault.code = 0 then { code := code, info := info } else q.fault) ∧
      u.fs.running = false ∧ u.dp.st = .idle ∧ u.ctl.micro = none ∧ u.ctl.result = .fault code info ∧
      step s = .next { u with out := .ret (.fault code info) :: .answer c .fail :: u.out }) ∧
  ∀ (s : State) (name : List Byte) (w h : Int) (rest : List (List Byte)) (g : List GameAnswer) (reply : Reply)
    (r : List (Option (List Byte))),
    let c := Callback.update (s.fs.dtms / 1000) s.ie.cur s.ie.pressed
    s.ctl.blocked = none → s.ctl.micro = some .update → (Instr.loadsprite name w h).WellFormed →
    s.env.game = { ops := encode (.loadsprite name w h) :: rest, reply := reply } :: g →
    s.gs.scache.lookup { name := name, width := w, height := h } = none → s.env.res = none :: r →
    ∃ t, step s = .next t ∧
      t.fault = (if s.fault.code = 0 then { code := 1, info := .resource name } else s.fault) ∧
      t.fs.running = false ∧ t.ctl.micro = none ∧ t.gs = s.gs ∧ t.pan = s.pan ∧
      t.out = .ret (.fault 1 (.resource name)) :: .answer c .fail :: .call c :: s.out

/-- R153, R209 (f) and (g), 10_state.md R49: no operation of the port but RUN changes unit IE, the configuration, or
anything of unit FS but FS.RUNNING; none reads the Clock, the provider or the Game; no operation of unit GS reads the
panel, with bus faults injected or not. -/
def Obligations.OperationsLeaveInputAndScheduler : Prop :=
  (∀ (i : Instr) (s t : State), i.isSurface = true → exec i s = .next t → ReadsNothing s t) ∧
  ∀ (i : Instr) (s t : State), i.space ≠ .phase → i ≠ .run → exec i s = .next t →
    t.ie = s.ie ∧ t.fs = { s.fs with running := t.fs.running } ∧ (t.fs.running = true → s.fs.running = true) ∧
    t.handlers = s.handlers ∧ t.cfgWidth = s.cfgWidth ∧ t.cfgHeight = s.cfgHeight ∧ t.par = s.par ∧
    t.env = { s.env with bus := t.env.bus, res := t.env.res, asked := t.env.asked }

/-! ## Whole-machine rules -/

/-- 20_memory.md R80, 10_state.md R31: "The hardware's own rules never depend on" the panel. Whatever the panel holds
and whether DEVU is set, every operation but RDPIX, which reads it, does the same to everything else. -/
def Obligations.PanelIsUnobservable : Prop :=
  ∀ (i : Instr) (s : State) (p : Panel) (d : Bool) (n : Nat), i.space ≠ .phase → (∀ k, i ≠ .rdpix k) →
    SameButPanel (exec i s) (exec i { s with pan := p, devu := d, draws := n })

/-- 10_state.md R30, R31: FAULT holds the code of the first fault of R290, or 0; once non-zero it is never written
again. DEVU is sticky. -/
def Obligations.FaultFlagsAreSticky : Prop :=
  State.reset.fault.code = 0 ∧ State.reset.devu = false ∧
  (∀ s t : State, step s = .next t → s.fault.code ≠ 0 → t.fault = s.fault) ∧
  (∀ s t : State, step s = .next t → s.fault.code.toNat ≤ 4 → t.fault.code.toNat ≤ 4) ∧
  ∀ s t : State, step s = .next t → s.devu = true → t.devu = true

/-- R49: the configuration registers and the parameters are constant; so what R9 and R136 require of them holds for ever
once it holds. -/
def Obligations.ConfigurationIsConstant : Prop :=
  ∀ s t : State, step s = .next t → SameConfig s t ∧ (ParametersOk s → ParametersOk t)

/-- PAN.GRAM and PAN.CFG keep their canonical form. -/
def Obligations.PanelStaysCanonical : Prop :=
  ∀ s t : State, step s = .next t → PanelWf s → PanelWf t

/-- R33, R196, R200: every entry of GS.TCACHE is what RENDERTEXT returns for its key, at a scale of at least 1, no key
occurs twice, and each map holds at most CACHE_CAPACITY entries. -/
def Obligations.CachesStaySound : Prop :=
  ∀ s t : State, step s = .next t → TextCacheOk s ∧ CachesBounded s → TextCacheOk t ∧ CachesBounded t

/-- R231, R252, R268: successive reads of the Clock do not decrease; the first one after Sleep(ms) is at least ms later
than the last one before it; and every time in a register is an answer the Clock has given, so none lies in the
future. -/
def Obligations.ClockNeverRunsBackward : Prop :=
  (∀ s : State, s.env.now ≤ (readClock s).1 ∧ (readClock s).2.env.now = (readClock s).1) ∧
  (∀ (s : State) (ms : Nat), (readClock s).1 + ms ≤ (readClock (sleepFor ms (readClock s).2)).1) ∧
  ∀ s t : State, step s = .next t → TimesPast s → TimesPast t ∧ s.env.now ≤ t.env.now

/-- R24: every step leaves DP.ST at DP_IDLE, unless the bus is stalled; after a fault entry that is log entry 8. -/
def Obligations.SequencerReturnsToIdle : Prop :=
  ∀ s t : State, step s = .next t → SequencerIdle s → SequencerIdle t

/-- The state after power-on reset meets every invariant above, and R9's and R136's demands on the parameters. TimesPast
rests on the zeros of FS.LAST, FS.TSTART and the Clock (log entries 1 and 10), Framed and ParametersOk on the defaults
of R9 (log entry 26) and the chunk size (log entry 6). -/
def Obligations.ResetMeetsInvariants : Prop :=
  Framed State.reset ∧ PanelWf State.reset ∧ TextCacheOk State.reset ∧ CachesBounded State.reset ∧
  TimesPast State.reset ∧ SequencerIdle State.reset ∧ NoFault State.reset ∧ State.reset.devu = false ∧
  ParametersOk State.reset
end

