-- ==== Sys2Proof/Laws/Memory.lean ====
section
/-! SUPPORT. The laws of PAN.GRAM and PAN.CFG: a read after a write, every other address left alone, and the canonical
form, which every operation keeps. -/

namespace Sys2Proof.Machine

/-! ### Bytes -/

/-- A read after a write to the same address gives the byte written; any other address reads as before. -/
theorem Memory.read_write (m : Memory) (a b : Nat) (v : Byte) :
    (m.write a v).read b = if b = a then some v else m.read b := by
  induction m with
  | nil => simp [Memory.write, Memory.read]
  | cons c r ih =>
    obtain ⟨x, w⟩ := c
    simp only [Memory.write]
    split
    · simp [Memory.read]
    · split
      · subst x; simp only [Memory.read]; split <;> simp_all
      · simp only [Memory.read, ih]
        by_cases h1 : b = x <;> by_cases h2 : b = a <;> simp_all

/-- The addresses of a canonical memory rise from the first. -/
theorem Memory.wf_cons {a : Nat} {v : Byte} {m : Memory} :
    Memory.wf ((a, v) :: m) = true ↔ Memory.wf m = true ∧ ∀ c ∈ m, a < c.1 := by
  induction m generalizing a v with
  | nil => simp [Memory.wf]
  | cons c r ih =>
    obtain ⟨b, w⟩ := c
    simp only [Memory.wf, Bool.and_eq_true, decide_eq_true_eq, List.mem_cons, forall_eq_or_imp]
    constructor
    · rintro ⟨hab, hr⟩
      exact ⟨hr, hab, fun c hc => lt_trans hab ((ih.1 hr).2 c hc)⟩
    · rintro ⟨hr, hab, -⟩
      exact ⟨hab, hr⟩

/-- Where an address of a written memory comes from. -/
theorem Memory.mem_write {m : Memory} {a : Nat} {v : Byte} {c : Host.Cell} (h : c ∈ m.write a v) :
    c = (a, v) ∨ c ∈ m := by
  induction m with
  | nil => simpa [Memory.write] using h
  | cons d r ih =>
    obtain ⟨b, w⟩ := d
    simp only [Memory.write] at h
    split at h
    · simpa using h
    · split at h
      · rcases List.mem_cons.1 h with h | h <;> simp [h]
      · rcases List.mem_cons.1 h with h | h
        · simp [h]
        · rcases ih h with h | h <;> simp [h]

/-- A write keeps the canonical form. -/
theorem Memory.wf_write {m : Memory} (h : m.wf = true) (a : Nat) (v : Byte) : (m.write a v).wf = true := by
  induction m with
  | nil => simp [Memory.write, Memory.wf]
  | cons c r ih =>
    obtain ⟨b, w⟩ := c
    obtain ⟨hr, hb⟩ := Memory.wf_cons.1 h
    simp only [Memory.write]
    split
    · rename_i hab
      refine Memory.wf_cons.2 ⟨h, fun c hc => ?_⟩
      rcases List.mem_cons.1 hc with hc | hc
      · simpa [hc] using hab
      · exact lt_trans hab (hb c hc)
    · split
      · subst b; exact Memory.wf_cons.2 ⟨hr, hb⟩
      · refine Memory.wf_cons.2 ⟨ih hr, fun c hc => ?_⟩
        rcases Memory.mem_write hc with hc | hc
        · subst hc; simp only; omega
        · exact hb c hc

/-- A memory made of writes is canonical. -/
theorem Memory.wf_ofCells (cells : List Host.Cell) : (Memory.ofCells cells).wf = true := by
  suffices h : ∀ m : Memory, m.wf = true → (cells.foldl (fun m c => m.write c.1 c.2) m).wf = true from
    h [] rfl
  induction cells with
  | nil => exact fun m h => h
  | cons c r ih => exact fun m h => ih _ (Memory.wf_write h _ _)

/-! ### Cells -/

/-- The two bytes of a pixel are the pixel. -/
theorem half_bytes (p : Half) : (p.extractLsb' 8 8 ++ p.extractLsb' 0 8 : Half) = p := by
  ext i hi
  simp only [BitVec.getElem_append, BitVec.getElem_extractLsb']
  by_cases h : i < 8
  · simp [h, ← BitVec.getLsbD_eq_getElem]
  · have h8 : 8 + (i - 8) = i := by omega
    simp [h, h8, ← BitVec.getLsbD_eq_getElem]

/-- Two bytes make a half whose high byte is the first. -/
@[simp] theorem half_hi (h l : Byte) : ((h ++ l : Half)).extractLsb' 8 8 = h := by
  ext i hi
  simp only [BitVec.getElem_extractLsb', BitVec.getLsbD_append]
  simp [show ¬ (8 + i < 8) by omega, show 8 + i - 8 = i by omega, ← BitVec.getLsbD_eq_getElem]

/-- And whose low byte is the second. -/
@[simp] theorem half_lo (h l : Byte) : ((h ++ l : Half)).extractLsb' 0 8 = l := by
  ext i hi
  simp only [BitVec.getElem_extractLsb', BitVec.getLsbD_append]
  simp [hi, ← BitVec.getLsbD_eq_getElem]

/-- Different cells have different bytes. -/
theorem pixelAddr_inj {x y x' y' : Nat} (hx : x < 65536) (hx' : x' < 65536)
    (h : pixelAddr x y = pixelAddr x' y') : x = x' ∧ y = y' := by
  unfold pixelAddr at h; omega

/-- A cell read after a cell write (20_memory.md R62). -/
theorem Memory.readPixel_writePixel (m : Memory) {x y x' y' : Nat} (p : Half) (hx : x < 65536) (hx' : x' < 65536) :
    (m.writePixel x y p).readPixel x' y' = if x' = x ∧ y' = y then some p else m.readPixel x' y' := by
  unfold Memory.readPixel Memory.writePixel
  by_cases h : x' = x ∧ y' = y
  · obtain ⟨rfl, rfl⟩ := h
    simp [Memory.read_write, half_bytes]
  · have h0 : pixelAddr x' y' ≠ pixelAddr x y := fun e => h (pixelAddr_inj hx' hx e)
    have h1 : pixelAddr x' y' ≠ pixelAddr x y + 1 := by unfold pixelAddr; omega
    have h2 : pixelAddr x' y' + 1 ≠ pixelAddr x y := by unfold pixelAddr; omega
    simp [Memory.read_write, h, h0, h1, h2]

/-- A cell write keeps the canonical form. -/
theorem Memory.wf_writePixel {m : Memory} (h : m.wf = true) (x y : Nat) (p : Half) :
    (m.writePixel x y p).wf = true :=
  Memory.wf_write (Memory.wf_write h _ _) _ _

/-! ### PAN.CFG -/

/-- The commands of a canonical map rise from the first. -/
theorem cfgWf_cons {k : Byte} {ps : List Byte} {m : List (Byte × List Byte)} :
    cfgWf ((k, ps) :: m) = true ↔ cfgWf m = true ∧ ∀ c ∈ m, k.toNat < c.1.toNat := by
  induction m generalizing k ps with
  | nil => simp [cfgWf]
  | cons c r ih =>
    obtain ⟨j, qs⟩ := c
    simp only [cfgWf, Bool.and_eq_true, decide_eq_true_eq, List.mem_cons, forall_eq_or_imp]
    constructor
    · rintro ⟨hab, hr⟩
      exact ⟨hr, hab, fun c hc => lt_trans hab ((ih.1 hr).2 c hc)⟩
    · rintro ⟨hr, hab, -⟩
      exact ⟨hab, hr⟩

/-- Where an entry of an updated map comes from. -/
theorem mem_cfgSet {m : List (Byte × List Byte)} {k : Byte} {ps : List Byte} {c : Byte × List Byte}
    (h : c ∈ cfgSet m k ps) : c = (k, ps) ∨ c ∈ m := by
  induction m with
  | nil => simpa [cfgSet] using h
  | cons d r ih =>
    obtain ⟨j, qs⟩ := d
    simp only [cfgSet] at h
    split at h
    · simpa using h
    · split at h
      · rcases List.mem_cons.1 h with h | h <;> simp [h]
      · rcases List.mem_cons.1 h with h | h
        · simp [h]
        · rcases ih h with h | h <;> simp [h]

/-- An update keeps the canonical form. -/
theorem cfgWf_cfgSet {m : List (Byte × List Byte)} (h : cfgWf m = true) (k : Byte) (ps : List Byte) :
    cfgWf (cfgSet m k ps) = true := by
  induction m with
  | nil => simp [cfgSet, cfgWf]
  | cons c r ih =>
    obtain ⟨j, qs⟩ := c
    obtain ⟨hr, hb⟩ := cfgWf_cons.1 h
    simp only [cfgSet]
    split
    · rename_i hab
      refine cfgWf_cons.2 ⟨h, fun c hc => ?_⟩
      rcases List.mem_cons.1 hc with hc | hc
      · simpa [hc] using hab
      · exact lt_trans hab (hb c hc)
    · rename_i hkj
      split
      · subst j; exact cfgWf_cons.2 ⟨hr, hb⟩
      · rename_i hne
        refine cfgWf_cons.2 ⟨ih hr, fun c hc => ?_⟩
        rcases mem_cfgSet hc with hc | hc
        · subst hc
          have : k.toNat ≠ j.toNat := fun e => hne (BitVec.eq_of_toNat_eq e)
          simp only; omega
        · exact hb c hc

/-- A map made of updates is canonical. -/
theorem cfgWf_fold (es : List (Byte × List Byte)) :
    cfgWf (es.foldl (fun m e => cfgSet m e.1 e.2) []) = true := by
  suffices h : ∀ m, cfgWf m = true → cfgWf (es.foldl (fun m e => cfgSet m e.1 e.2) m) = true from h [] rfl
  induction es with
  | nil => exact fun m h => h
  | cons c r ih => exact fun m h => ih _ (cfgWf_cfgSet h _ _)

/-- What an updated map answers. -/
theorem cfgGet_cfgSet (m : List (Byte × List Byte)) (k : Byte) (ps : List Byte) : cfgGet (cfgSet m k ps) k = ps := by
  induction m with
  | nil => simp [cfgSet, cfgGet]
  | cons c r ih =>
    obtain ⟨j, qs⟩ := c
    simp only [cfgSet]
    split
    · simp [cfgGet]
    · split
      · simp [cfgGet]
      · rename_i hne
        have hb : (k == j) = false := by simpa using hne
        simpa [cfgGet, List.lookup_cons, hb] using ih

end Sys2Proof.Machine
end

