-- ==== Sys2Proof/Laws/State.lean ====
section
/-! SUPPORT. One lemma per field per update of State, so that no later proof unfolds a record update. -/

namespace Sys2Proof.Machine

variable (s : State)

@[simp] theorem State.emit_dp (e : Event) : (s.emit e).dp = s.dp := rfl
@[simp] theorem State.emit_pins (e : Event) : (s.emit e).pins = s.pins := rfl
@[simp] theorem State.emit_pan (e : Event) : (s.emit e).pan = s.pan := rfl
@[simp] theorem State.emit_devu (e : Event) : (s.emit e).devu = s.devu := rfl
@[simp] theorem State.emit_draws (e : Event) : (s.emit e).draws = s.draws := rfl
@[simp] theorem State.emit_fault (e : Event) : (s.emit e).fault = s.fault := rfl
@[simp] theorem State.emit_gs (e : Event) : (s.emit e).gs = s.gs := rfl
@[simp] theorem State.emit_ie (e : Event) : (s.emit e).ie = s.ie := rfl
@[simp] theorem State.emit_fs (e : Event) : (s.emit e).fs = s.fs := rfl
@[simp] theorem State.emit_handlers (e : Event) : (s.emit e).handlers = s.handlers := rfl
@[simp] theorem State.emit_cfgWidth (e : Event) : (s.emit e).cfgWidth = s.cfgWidth := rfl
@[simp] theorem State.emit_cfgHeight (e : Event) : (s.emit e).cfgHeight = s.cfgHeight := rfl
@[simp] theorem State.emit_par (e : Event) : (s.emit e).par = s.par := rfl
@[simp] theorem State.emit_env (e : Event) : (s.emit e).env = s.env := rfl
@[simp] theorem State.emit_ctl (e : Event) : (s.emit e).ctl = s.ctl := rfl
@[simp] theorem State.emit_out (e : Event) : (s.emit e).out = e :: s.out := rfl

@[simp] theorem State.setSt_dp (st : DpState) : (s.setSt st).dp = { s.dp with st := st } := rfl
@[simp] theorem State.setSt_pins (st : DpState) : (s.setSt st).pins = s.pins := rfl
@[simp] theorem State.setSt_pan (st : DpState) : (s.setSt st).pan = s.pan := rfl
@[simp] theorem State.setSt_devu (st : DpState) : (s.setSt st).devu = s.devu := rfl
@[simp] theorem State.setSt_draws (st : DpState) : (s.setSt st).draws = s.draws := rfl
@[simp] theorem State.setSt_fault (st : DpState) : (s.setSt st).fault = s.fault := rfl
@[simp] theorem State.setSt_gs (st : DpState) : (s.setSt st).gs = s.gs := rfl
@[simp] theorem State.setSt_ie (st : DpState) : (s.setSt st).ie = s.ie := rfl
@[simp] theorem State.setSt_fs (st : DpState) : (s.setSt st).fs = s.fs := rfl
@[simp] theorem State.setSt_handlers (st : DpState) : (s.setSt st).handlers = s.handlers := rfl
@[simp] theorem State.setSt_cfgWidth (st : DpState) : (s.setSt st).cfgWidth = s.cfgWidth := rfl
@[simp] theorem State.setSt_cfgHeight (st : DpState) : (s.setSt st).cfgHeight = s.cfgHeight := rfl
@[simp] theorem State.setSt_par (st : DpState) : (s.setSt st).par = s.par := rfl
@[simp] theorem State.setSt_env (st : DpState) : (s.setSt st).env = s.env := rfl
@[simp] theorem State.setSt_ctl (st : DpState) : (s.setSt st).ctl = s.ctl := rfl
@[simp] theorem State.setSt_out (st : DpState) : (s.setSt st).out = s.out := rfl

@[simp] theorem State.setPh_dp (k : BitVec 3) : (s.setPh k).dp = s.dp := rfl
@[simp] theorem State.setPh_pins (k : BitVec 3) : (s.setPh k).pins = s.pins := rfl
@[simp] theorem State.setPh_pan (k : BitVec 3) : (s.setPh k).pan = s.pan := rfl
@[simp] theorem State.setPh_devu (k : BitVec 3) : (s.setPh k).devu = s.devu := rfl
@[simp] theorem State.setPh_draws (k : BitVec 3) : (s.setPh k).draws = s.draws := rfl
@[simp] theorem State.setPh_fault (k : BitVec 3) : (s.setPh k).fault = s.fault := rfl
@[simp] theorem State.setPh_gs (k : BitVec 3) : (s.setPh k).gs = s.gs := rfl
@[simp] theorem State.setPh_ie (k : BitVec 3) : (s.setPh k).ie = s.ie := rfl
@[simp] theorem State.setPh_fs (k : BitVec 3) : (s.setPh k).fs = { s.fs with ph := k } := rfl
@[simp] theorem State.setPh_handlers (k : BitVec 3) : (s.setPh k).handlers = s.handlers := rfl
@[simp] theorem State.setPh_cfgWidth (k : BitVec 3) : (s.setPh k).cfgWidth = s.cfgWidth := rfl
@[simp] theorem State.setPh_cfgHeight (k : BitVec 3) : (s.setPh k).cfgHeight = s.cfgHeight := rfl
@[simp] theorem State.setPh_par (k : BitVec 3) : (s.setPh k).par = s.par := rfl
@[simp] theorem State.setPh_env (k : BitVec 3) : (s.setPh k).env = s.env := rfl
@[simp] theorem State.setPh_ctl (k : BitVec 3) : (s.setPh k).ctl = s.ctl := rfl
@[simp] theorem State.setPh_out (k : BitVec 3) : (s.setPh k).out = s.out := rfl

@[simp] theorem State.setResult_dp (r : Result) : (s.setResult r).dp = s.dp := rfl
@[simp] theorem State.setResult_pins (r : Result) : (s.setResult r).pins = s.pins := rfl
@[simp] theorem State.setResult_pan (r : Result) : (s.setResult r).pan = s.pan := rfl
@[simp] theorem State.setResult_devu (r : Result) : (s.setResult r).devu = s.devu := rfl
@[simp] theorem State.setResult_draws (r : Result) : (s.setResult r).draws = s.draws := rfl
@[simp] theorem State.setResult_fault (r : Result) : (s.setResult r).fault = s.fault := rfl
@[simp] theorem State.setResult_gs (r : Result) : (s.setResult r).gs = s.gs := rfl
@[simp] theorem State.setResult_ie (r : Result) : (s.setResult r).ie = s.ie := rfl
@[simp] theorem State.setResult_fs (r : Result) : (s.setResult r).fs = s.fs := rfl
@[simp] theorem State.setResult_handlers (r : Result) : (s.setResult r).handlers = s.handlers := rfl
@[simp] theorem State.setResult_cfgWidth (r : Result) : (s.setResult r).cfgWidth = s.cfgWidth := rfl
@[simp] theorem State.setResult_cfgHeight (r : Result) : (s.setResult r).cfgHeight = s.cfgHeight := rfl
@[simp] theorem State.setResult_par (r : Result) : (s.setResult r).par = s.par := rfl
@[simp] theorem State.setResult_env (r : Result) : (s.setResult r).env = s.env := rfl
@[simp] theorem State.setResult_ctl (r : Result) : (s.setResult r).ctl = { s.ctl with result := r } := rfl
@[simp] theorem State.setResult_out (r : Result) : (s.setResult r).out = s.out := rfl

@[simp] theorem State.setBus_dp (b : List (Nat × BusFate)) : (s.setBus b).dp = s.dp := rfl
@[simp] theorem State.setBus_pins (b : List (Nat × BusFate)) : (s.setBus b).pins = s.pins := rfl
@[simp] theorem State.setBus_pan (b : List (Nat × BusFate)) : (s.setBus b).pan = s.pan := rfl
@[simp] theorem State.setBus_devu (b : List (Nat × BusFate)) : (s.setBus b).devu = s.devu := rfl
@[simp] theorem State.setBus_draws (b : List (Nat × BusFate)) : (s.setBus b).draws = s.draws := rfl
@[simp] theorem State.setBus_fault (b : List (Nat × BusFate)) : (s.setBus b).fault = s.fault := rfl
@[simp] theorem State.setBus_gs (b : List (Nat × BusFate)) : (s.setBus b).gs = s.gs := rfl
@[simp] theorem State.setBus_ie (b : List (Nat × BusFate)) : (s.setBus b).ie = s.ie := rfl
@[simp] theorem State.setBus_fs (b : List (Nat × BusFate)) : (s.setBus b).fs = s.fs := rfl
@[simp] theorem State.setBus_handlers (b : List (Nat × BusFate)) : (s.setBus b).handlers = s.handlers := rfl
@[simp] theorem State.setBus_cfgWidth (b : List (Nat × BusFate)) : (s.setBus b).cfgWidth = s.cfgWidth := rfl
@[simp] theorem State.setBus_cfgHeight (b : List (Nat × BusFate)) : (s.setBus b).cfgHeight = s.cfgHeight := rfl
@[simp] theorem State.setBus_par (b : List (Nat × BusFate)) : (s.setBus b).par = s.par := rfl
@[simp] theorem State.setBus_env (b : List (Nat × BusFate)) : (s.setBus b).env = { s.env with bus := b } := rfl
@[simp] theorem State.setBus_ctl (b : List (Nat × BusFate)) : (s.setBus b).ctl = s.ctl := rfl
@[simp] theorem State.setBus_out (b : List (Nat × BusFate)) : (s.setBus b).out = s.out := rfl

@[simp] theorem State.setHost_dp (h : List (List Byte)) : (s.setHost h).dp = s.dp := rfl
@[simp] theorem State.setHost_pins (h : List (List Byte)) : (s.setHost h).pins = s.pins := rfl
@[simp] theorem State.setHost_pan (h : List (List Byte)) : (s.setHost h).pan = s.pan := rfl
@[simp] theorem State.setHost_devu (h : List (List Byte)) : (s.setHost h).devu = s.devu := rfl
@[simp] theorem State.setHost_draws (h : List (List Byte)) : (s.setHost h).draws = s.draws := rfl
@[simp] theorem State.setHost_fault (h : List (List Byte)) : (s.setHost h).fault = s.fault := rfl
@[simp] theorem State.setHost_gs (h : List (List Byte)) : (s.setHost h).gs = s.gs := rfl
@[simp] theorem State.setHost_ie (h : List (List Byte)) : (s.setHost h).ie = s.ie := rfl
@[simp] theorem State.setHost_fs (h : List (List Byte)) : (s.setHost h).fs = s.fs := rfl
@[simp] theorem State.setHost_handlers (h : List (List Byte)) : (s.setHost h).handlers = s.handlers := rfl
@[simp] theorem State.setHost_cfgWidth (h : List (List Byte)) : (s.setHost h).cfgWidth = s.cfgWidth := rfl
@[simp] theorem State.setHost_cfgHeight (h : List (List Byte)) : (s.setHost h).cfgHeight = s.cfgHeight := rfl
@[simp] theorem State.setHost_par (h : List (List Byte)) : (s.setHost h).par = s.par := rfl
@[simp] theorem State.setHost_env (h : List (List Byte)) : (s.setHost h).env = { s.env with host := h } := rfl
@[simp] theorem State.setHost_ctl (h : List (List Byte)) : (s.setHost h).ctl = s.ctl := rfl
@[simp] theorem State.setHost_out (h : List (List Byte)) : (s.setHost h).out = s.out := rfl

@[simp] theorem State.setMicro_dp (m : Option Instr) : (s.setMicro m).dp = s.dp := rfl
@[simp] theorem State.setMicro_pins (m : Option Instr) : (s.setMicro m).pins = s.pins := rfl
@[simp] theorem State.setMicro_pan (m : Option Instr) : (s.setMicro m).pan = s.pan := rfl
@[simp] theorem State.setMicro_devu (m : Option Instr) : (s.setMicro m).devu = s.devu := rfl
@[simp] theorem State.setMicro_draws (m : Option Instr) : (s.setMicro m).draws = s.draws := rfl
@[simp] theorem State.setMicro_fault (m : Option Instr) : (s.setMicro m).fault = s.fault := rfl
@[simp] theorem State.setMicro_gs (m : Option Instr) : (s.setMicro m).gs = s.gs := rfl
@[simp] theorem State.setMicro_ie (m : Option Instr) : (s.setMicro m).ie = s.ie := rfl
@[simp] theorem State.setMicro_fs (m : Option Instr) : (s.setMicro m).fs = s.fs := rfl
@[simp] theorem State.setMicro_handlers (m : Option Instr) : (s.setMicro m).handlers = s.handlers := rfl
@[simp] theorem State.setMicro_cfgWidth (m : Option Instr) : (s.setMicro m).cfgWidth = s.cfgWidth := rfl
@[simp] theorem State.setMicro_cfgHeight (m : Option Instr) : (s.setMicro m).cfgHeight = s.cfgHeight := rfl
@[simp] theorem State.setMicro_par (m : Option Instr) : (s.setMicro m).par = s.par := rfl
@[simp] theorem State.setMicro_env (m : Option Instr) : (s.setMicro m).env = s.env := rfl
@[simp] theorem State.setMicro_ctl (m : Option Instr) : (s.setMicro m).ctl = { s.ctl with micro := m } := rfl
@[simp] theorem State.setMicro_out (m : Option Instr) : (s.setMicro m).out = s.out := rfl

@[simp] theorem openTx_dp (l : Bool) : (openTx l s).dp = s.dp := rfl
@[simp] theorem openTx_pins (l : Bool) : (openTx l s).pins = { s.pins with dc := l, csN := false } := rfl
@[simp] theorem openTx_pan (l : Bool) : (openTx l s).pan = s.pan := rfl
@[simp] theorem openTx_devu (l : Bool) : (openTx l s).devu = s.devu := rfl
@[simp] theorem openTx_draws (l : Bool) : (openTx l s).draws = s.draws := rfl
@[simp] theorem openTx_fault (l : Bool) : (openTx l s).fault = s.fault := rfl
@[simp] theorem openTx_gs (l : Bool) : (openTx l s).gs = s.gs := rfl
@[simp] theorem openTx_ie (l : Bool) : (openTx l s).ie = s.ie := rfl
@[simp] theorem openTx_fs (l : Bool) : (openTx l s).fs = s.fs := rfl
@[simp] theorem openTx_handlers (l : Bool) : (openTx l s).handlers = s.handlers := rfl
@[simp] theorem openTx_cfgWidth (l : Bool) : (openTx l s).cfgWidth = s.cfgWidth := rfl
@[simp] theorem openTx_cfgHeight (l : Bool) : (openTx l s).cfgHeight = s.cfgHeight := rfl
@[simp] theorem openTx_par (l : Bool) : (openTx l s).par = s.par := rfl
@[simp] theorem openTx_env (l : Bool) : (openTx l s).env = s.env := rfl
@[simp] theorem openTx_ctl (l : Bool) : (openTx l s).ctl = s.ctl := rfl
@[simp] theorem openTx_out (l : Bool) : (openTx l s).out = .cs false :: .dc l :: s.out := rfl

@[simp] theorem closeTx_dp : (closeTx s).dp = s.dp := rfl
@[simp] theorem closeTx_pins : (closeTx s).pins = { s.pins with csN := true } := rfl
@[simp] theorem closeTx_pan : (closeTx s).pan = s.pan := rfl
@[simp] theorem closeTx_devu : (closeTx s).devu = s.devu := rfl
@[simp] theorem closeTx_draws : (closeTx s).draws = s.draws := rfl
@[simp] theorem closeTx_fault : (closeTx s).fault = s.fault := rfl
@[simp] theorem closeTx_gs : (closeTx s).gs = s.gs := rfl
@[simp] theorem closeTx_ie : (closeTx s).ie = s.ie := rfl
@[simp] theorem closeTx_fs : (closeTx s).fs = s.fs := rfl
@[simp] theorem closeTx_handlers : (closeTx s).handlers = s.handlers := rfl
@[simp] theorem closeTx_cfgWidth : (closeTx s).cfgWidth = s.cfgWidth := rfl
@[simp] theorem closeTx_cfgHeight : (closeTx s).cfgHeight = s.cfgHeight := rfl
@[simp] theorem closeTx_par : (closeTx s).par = s.par := rfl
@[simp] theorem closeTx_env : (closeTx s).env = s.env := rfl
@[simp] theorem closeTx_ctl : (closeTx s).ctl = s.ctl := rfl
@[simp] theorem closeTx_out : (closeTx s).out = .cs true :: s.out := rfl

@[simp] theorem resetRegs_dp : (resetRegs s).dp = { s.dp with rstd := true, initd := false, mode := .none, st := .idle } := rfl
@[simp] theorem resetRegs_pins : (resetRegs s).pins = s.pins := rfl
@[simp] theorem resetRegs_pan : (resetRegs s).pan = s.pan := rfl
@[simp] theorem resetRegs_devu : (resetRegs s).devu = s.devu := rfl
@[simp] theorem resetRegs_draws : (resetRegs s).draws = s.draws := rfl
@[simp] theorem resetRegs_fault : (resetRegs s).fault = s.fault := rfl
@[simp] theorem resetRegs_gs : (resetRegs s).gs = s.gs := rfl
@[simp] theorem resetRegs_ie : (resetRegs s).ie = s.ie := rfl
@[simp] theorem resetRegs_fs : (resetRegs s).fs = s.fs := rfl
@[simp] theorem resetRegs_handlers : (resetRegs s).handlers = s.handlers := rfl
@[simp] theorem resetRegs_cfgWidth : (resetRegs s).cfgWidth = s.cfgWidth := rfl
@[simp] theorem resetRegs_cfgHeight : (resetRegs s).cfgHeight = s.cfgHeight := rfl
@[simp] theorem resetRegs_par : (resetRegs s).par = s.par := rfl
@[simp] theorem resetRegs_env : (resetRegs s).env = s.env := rfl
@[simp] theorem resetRegs_ctl : (resetRegs s).ctl = s.ctl := rfl
@[simp] theorem resetRegs_out : (resetRegs s).out = s.out := rfl

@[simp] theorem initRegs_dp : (initRegs s).dp = { s.dp with initd := true, mode := .none, seq := 0, st := .idle } := rfl
@[simp] theorem initRegs_pins : (initRegs s).pins = s.pins := rfl
@[simp] theorem initRegs_pan : (initRegs s).pan = s.pan := rfl
@[simp] theorem initRegs_devu : (initRegs s).devu = s.devu := rfl
@[simp] theorem initRegs_draws : (initRegs s).draws = s.draws := rfl
@[simp] theorem initRegs_fault : (initRegs s).fault = s.fault := rfl
@[simp] theorem initRegs_gs : (initRegs s).gs = s.gs := rfl
@[simp] theorem initRegs_ie : (initRegs s).ie = s.ie := rfl
@[simp] theorem initRegs_fs : (initRegs s).fs = s.fs := rfl
@[simp] theorem initRegs_handlers : (initRegs s).handlers = s.handlers := rfl
@[simp] theorem initRegs_cfgWidth : (initRegs s).cfgWidth = s.cfgWidth := rfl
@[simp] theorem initRegs_cfgHeight : (initRegs s).cfgHeight = s.cfgHeight := rfl
@[simp] theorem initRegs_par : (initRegs s).par = s.par := rfl
@[simp] theorem initRegs_env : (initRegs s).env = s.env := rfl
@[simp] theorem initRegs_ctl : (initRegs s).ctl = s.ctl := rfl
@[simp] theorem initRegs_out : (initRegs s).out = s.out := rfl

@[simp] theorem windowRegs_dp (x0 y0 x1 y1 : Half) (m : StreamMode) : (windowRegs x0 y0 x1 y1 m s).dp = { s.dp with win := ⟨x0, y0, x1, y1⟩, mode := m, st := .idle } := rfl
@[simp] theorem windowRegs_pins (x0 y0 x1 y1 : Half) (m : StreamMode) : (windowRegs x0 y0 x1 y1 m s).pins = s.pins := rfl
@[simp] theorem windowRegs_pan (x0 y0 x1 y1 : Half) (m : StreamMode) : (windowRegs x0 y0 x1 y1 m s).pan = s.pan := rfl
@[simp] theorem windowRegs_devu (x0 y0 x1 y1 : Half) (m : StreamMode) : (windowRegs x0 y0 x1 y1 m s).devu = s.devu := rfl
@[simp] theorem windowRegs_draws (x0 y0 x1 y1 : Half) (m : StreamMode) : (windowRegs x0 y0 x1 y1 m s).draws = s.draws := rfl
@[simp] theorem windowRegs_fault (x0 y0 x1 y1 : Half) (m : StreamMode) : (windowRegs x0 y0 x1 y1 m s).fault = s.fault := rfl
@[simp] theorem windowRegs_gs (x0 y0 x1 y1 : Half) (m : StreamMode) : (windowRegs x0 y0 x1 y1 m s).gs = s.gs := rfl
@[simp] theorem windowRegs_ie (x0 y0 x1 y1 : Half) (m : StreamMode) : (windowRegs x0 y0 x1 y1 m s).ie = s.ie := rfl
@[simp] theorem windowRegs_fs (x0 y0 x1 y1 : Half) (m : StreamMode) : (windowRegs x0 y0 x1 y1 m s).fs = s.fs := rfl
@[simp] theorem windowRegs_handlers (x0 y0 x1 y1 : Half) (m : StreamMode) : (windowRegs x0 y0 x1 y1 m s).handlers = s.handlers := rfl
@[simp] theorem windowRegs_cfgWidth (x0 y0 x1 y1 : Half) (m : StreamMode) : (windowRegs x0 y0 x1 y1 m s).cfgWidth = s.cfgWidth := rfl
@[simp] theorem windowRegs_cfgHeight (x0 y0 x1 y1 : Half) (m : StreamMode) : (windowRegs x0 y0 x1 y1 m s).cfgHeight = s.cfgHeight := rfl
@[simp] theorem windowRegs_par (x0 y0 x1 y1 : Half) (m : StreamMode) : (windowRegs x0 y0 x1 y1 m s).par = s.par := rfl
@[simp] theorem windowRegs_env (x0 y0 x1 y1 : Half) (m : StreamMode) : (windowRegs x0 y0 x1 y1 m s).env = s.env := rfl
@[simp] theorem windowRegs_ctl (x0 y0 x1 y1 : Half) (m : StreamMode) : (windowRegs x0 y0 x1 y1 m s).ctl = s.ctl := rfl
@[simp] theorem windowRegs_out (x0 y0 x1 y1 : Half) (m : StreamMode) : (windowRegs x0 y0 x1 y1 m s).out = s.out := rfl

@[simp] theorem setRaw_dp (v : BitVec 6) : (setRaw v s).dp = s.dp := rfl
@[simp] theorem setRaw_pins (v : BitVec 6) : (setRaw v s).pins = s.pins := rfl
@[simp] theorem setRaw_pan (v : BitVec 6) : (setRaw v s).pan = s.pan := rfl
@[simp] theorem setRaw_devu (v : BitVec 6) : (setRaw v s).devu = s.devu := rfl
@[simp] theorem setRaw_draws (v : BitVec 6) : (setRaw v s).draws = s.draws := rfl
@[simp] theorem setRaw_fault (v : BitVec 6) : (setRaw v s).fault = s.fault := rfl
@[simp] theorem setRaw_gs (v : BitVec 6) : (setRaw v s).gs = s.gs := rfl
@[simp] theorem setRaw_ie (v : BitVec 6) : (setRaw v s).ie = { s.ie with raw := v } := rfl
@[simp] theorem setRaw_fs (v : BitVec 6) : (setRaw v s).fs = s.fs := rfl
@[simp] theorem setRaw_handlers (v : BitVec 6) : (setRaw v s).handlers = s.handlers := rfl
@[simp] theorem setRaw_cfgWidth (v : BitVec 6) : (setRaw v s).cfgWidth = s.cfgWidth := rfl
@[simp] theorem setRaw_cfgHeight (v : BitVec 6) : (setRaw v s).cfgHeight = s.cfgHeight := rfl
@[simp] theorem setRaw_par (v : BitVec 6) : (setRaw v s).par = s.par := rfl
@[simp] theorem setRaw_env (v : BitVec 6) : (setRaw v s).env = s.env := rfl
@[simp] theorem setRaw_ctl (v : BitVec 6) : (setRaw v s).ctl = s.ctl := rfl
@[simp] theorem setRaw_out (v : BitVec 6) : (setRaw v s).out = s.out := rfl

@[simp] theorem setCand_dp (c : Option Nat) : (setCand c s).dp = s.dp := rfl
@[simp] theorem setCand_pins (c : Option Nat) : (setCand c s).pins = s.pins := rfl
@[simp] theorem setCand_pan (c : Option Nat) : (setCand c s).pan = s.pan := rfl
@[simp] theorem setCand_devu (c : Option Nat) : (setCand c s).devu = s.devu := rfl
@[simp] theorem setCand_draws (c : Option Nat) : (setCand c s).draws = s.draws := rfl
@[simp] theorem setCand_fault (c : Option Nat) : (setCand c s).fault = s.fault := rfl
@[simp] theorem setCand_gs (c : Option Nat) : (setCand c s).gs = s.gs := rfl
@[simp] theorem setCand_ie (c : Option Nat) : (setCand c s).ie = { s.ie with cand := c } := rfl
@[simp] theorem setCand_fs (c : Option Nat) : (setCand c s).fs = s.fs := rfl
@[simp] theorem setCand_handlers (c : Option Nat) : (setCand c s).handlers = s.handlers := rfl
@[simp] theorem setCand_cfgWidth (c : Option Nat) : (setCand c s).cfgWidth = s.cfgWidth := rfl
@[simp] theorem setCand_cfgHeight (c : Option Nat) : (setCand c s).cfgHeight = s.cfgHeight := rfl
@[simp] theorem setCand_par (c : Option Nat) : (setCand c s).par = s.par := rfl
@[simp] theorem setCand_env (c : Option Nat) : (setCand c s).env = s.env := rfl
@[simp] theorem setCand_ctl (c : Option Nat) : (setCand c s).ctl = s.ctl := rfl
@[simp] theorem setCand_out (c : Option Nat) : (setCand c s).out = s.out := rfl

@[simp] theorem setSkip_dp : (setSkip s).dp = s.dp := rfl
@[simp] theorem setSkip_pins : (setSkip s).pins = s.pins := rfl
@[simp] theorem setSkip_pan : (setSkip s).pan = s.pan := rfl
@[simp] theorem setSkip_devu : (setSkip s).devu = s.devu := rfl
@[simp] theorem setSkip_draws : (setSkip s).draws = s.draws := rfl
@[simp] theorem setSkip_fault : (setSkip s).fault = s.fault := rfl
@[simp] theorem setSkip_gs : (setSkip s).gs = s.gs := rfl
@[simp] theorem setSkip_ie : (setSkip s).ie = s.ie := rfl
@[simp] theorem setSkip_fs : (setSkip s).fs = { s.fs with skip := true } := rfl
@[simp] theorem setSkip_handlers : (setSkip s).handlers = s.handlers := rfl
@[simp] theorem setSkip_cfgWidth : (setSkip s).cfgWidth = s.cfgWidth := rfl
@[simp] theorem setSkip_cfgHeight : (setSkip s).cfgHeight = s.cfgHeight := rfl
@[simp] theorem setSkip_par : (setSkip s).par = s.par := rfl
@[simp] theorem setSkip_env : (setSkip s).env = s.env := rfl
@[simp] theorem setSkip_ctl : (setSkip s).ctl = s.ctl := rfl
@[simp] theorem setSkip_out : (setSkip s).out = s.out := rfl

@[simp] theorem scramble_dp : (scramble s).dp = s.dp := rfl
@[simp] theorem scramble_pins : (scramble s).pins = s.pins := rfl
@[simp] theorem scramble_pan : (scramble s).pan = Panel.free s.draws := rfl
@[simp] theorem scramble_devu : (scramble s).devu = s.devu := rfl
@[simp] theorem scramble_draws : (scramble s).draws = s.draws + 1 := rfl
@[simp] theorem scramble_fault : (scramble s).fault = s.fault := rfl
@[simp] theorem scramble_gs : (scramble s).gs = s.gs := rfl
@[simp] theorem scramble_ie : (scramble s).ie = s.ie := rfl
@[simp] theorem scramble_fs : (scramble s).fs = s.fs := rfl
@[simp] theorem scramble_handlers : (scramble s).handlers = s.handlers := rfl
@[simp] theorem scramble_cfgWidth : (scramble s).cfgWidth = s.cfgWidth := rfl
@[simp] theorem scramble_cfgHeight : (scramble s).cfgHeight = s.cfgHeight := rfl
@[simp] theorem scramble_par : (scramble s).par = s.par := rfl
@[simp] theorem scramble_env : (scramble s).env = s.env := rfl
@[simp] theorem scramble_ctl : (scramble s).ctl = s.ctl := rfl
@[simp] theorem scramble_out : (scramble s).out = s.out := rfl

@[simp] theorem setDevu_dp : (setDevu s).dp = s.dp := rfl
@[simp] theorem setDevu_pins : (setDevu s).pins = s.pins := rfl
@[simp] theorem setDevu_pan : (setDevu s).pan = Panel.free s.draws := rfl
@[simp] theorem setDevu_devu : (setDevu s).devu = true := rfl
@[simp] theorem setDevu_draws : (setDevu s).draws = s.draws + 1 := rfl
@[simp] theorem setDevu_fault : (setDevu s).fault = s.fault := rfl
@[simp] theorem setDevu_gs : (setDevu s).gs = s.gs := rfl
@[simp] theorem setDevu_ie : (setDevu s).ie = s.ie := rfl
@[simp] theorem setDevu_fs : (setDevu s).fs = s.fs := rfl
@[simp] theorem setDevu_handlers : (setDevu s).handlers = s.handlers := rfl
@[simp] theorem setDevu_cfgWidth : (setDevu s).cfgWidth = s.cfgWidth := rfl
@[simp] theorem setDevu_cfgHeight : (setDevu s).cfgHeight = s.cfgHeight := rfl
@[simp] theorem setDevu_par : (setDevu s).par = s.par := rfl
@[simp] theorem setDevu_env : (setDevu s).env = s.env := rfl
@[simp] theorem setDevu_ctl : (setDevu s).ctl = s.ctl := rfl
@[simp] theorem setDevu_out : (setDevu s).out = s.out := rfl

@[simp] theorem openCallback_dp (c : Callback) : (openCallback c s).dp = s.dp := rfl
@[simp] theorem openCallback_pins (c : Callback) : (openCallback c s).pins = s.pins := rfl
@[simp] theorem openCallback_pan (c : Callback) : (openCallback c s).pan = s.pan := rfl
@[simp] theorem openCallback_devu (c : Callback) : (openCallback c s).devu = s.devu := rfl
@[simp] theorem openCallback_draws (c : Callback) : (openCallback c s).draws = s.draws := rfl
@[simp] theorem openCallback_fault (c : Callback) : (openCallback c s).fault = s.fault := rfl
@[simp] theorem openCallback_gs (c : Callback) : (openCallback c s).gs = s.gs := rfl
@[simp] theorem openCallback_ie (c : Callback) : (openCallback c s).ie = s.ie := rfl
@[simp] theorem openCallback_fs (c : Callback) : (openCallback c s).fs = s.fs := rfl
@[simp] theorem openCallback_handlers (c : Callback) : (openCallback c s).handlers = s.handlers := rfl
@[simp] theorem openCallback_cfgWidth (c : Callback) : (openCallback c s).cfgWidth = s.cfgWidth := rfl
@[simp] theorem openCallback_cfgHeight (c : Callback) : (openCallback c s).cfgHeight = s.cfgHeight := rfl
@[simp] theorem openCallback_par (c : Callback) : (openCallback c s).par = s.par := rfl
@[simp] theorem openCallback_env (c : Callback) : (openCallback c s).env = { s.env with game := s.env.game.tail, asked := s.env.asked + 1 } := rfl
@[simp] theorem openCallback_ctl (c : Callback) : (openCallback c s).ctl = s.ctl := rfl
@[simp] theorem openCallback_out (c : Callback) : (openCallback c s).out = .call c :: s.out := rfl

end Sys2Proof.Machine
end

