-- ==== Sys2Proof/Laws/Bus.lean ====
section
/-! SUPPORT. What each shared operation can do, said once: the combinators of Run and Play, and the closed form of every
bus primitive when no bus fault is injected. -/

namespace Sys2Proof.Machine

/-! ### Combinators -/

@[simp] theorem Run.state_live {α : Type} (a : α) (s : State) : (Run.live a s).state = s := rfl
@[simp] theorem Run.state_dead {α : Type} (s : State) : (Run.dead s : Run α).state = s := rfl
@[simp] theorem Run.isLive_live {α : Type} (a : α) (s : State) : (Run.live a s).isLive = true := rfl
@[simp] theorem Run.isLive_dead {α : Type} (s : State) : (Run.dead s : Run α).isLive = false := rfl
@[simp] theorem Run.bind_live {α β : Type} (a : α) (s : State) (f : α → State → Run β) :
    (Run.live a s).bind f = f a s := rfl
@[simp] theorem Run.bind_dead {α β : Type} (s : State) (f : α → State → Run β) :
    (Run.dead s : Run α).bind f = .dead s := rfl
@[simp] theorem Run.andThen_live {α : Type} (u : Unit) (s : State) (f : State → Run α) :
    (Run.live u s).andThen f = f s := rfl
@[simp] theorem Run.andThen_dead {α : Type} (s : State) (f : State → Run α) :
    (Run.dead s : Run Unit).andThen f = .dead s := rfl

@[simp] theorem Play.ofRun_live (u : Unit) (s : State) : Play.ofRun (.live u s) = Play.done s := rfl
@[simp] theorem Play.done_andThen (s : State) (f : State → Play) : (Play.done s).andThen f = f s := rfl
@[simp] theorem Play.refuse_andThen (r : Refusal) (s : State) (f : State → Play) :
    (Play.refuse r s).andThen f = Play.refuse r s := rfl
@[simp] theorem Play.outcome_done (s : State) : (Play.done s).outcome = .next s := rfl
@[simp] theorem Play.outcome_refuse (r : Refusal) (s : State) : (Play.refuse r s).outcome = .refused r := rfl
@[simp] theorem Play.outcome_ofRun (r : Run Unit) : (Play.ofRun r).outcome = .next r.state := rfl

/-! ### No bus fault is injected (60_exceptions.md R293) -/

@[simp] theorem pollIdle_quiet {s : State} (h : Quiet s) : pollIdle s = .done s := by
  unfold pollIdle; rw [h]

@[simp] theorem pollTransfer_quiet {s : State} (h : Quiet s) : pollTransfer s = .done s := by
  unfold pollTransfer; rw [h]

/-- The panel never touches the hardware: what every panel operation leaves alone (20_memory.md R80). -/
structure PanelOnly (s t : State) : Prop where
  dp : t.dp = s.dp
  pins : t.pins = s.pins
  fault : t.fault = s.fault
  gs : t.gs = s.gs
  ie : t.ie = s.ie
  fs : t.fs = s.fs
  handlers : t.handlers = s.handlers
  cfgWidth : t.cfgWidth = s.cfgWidth
  cfgHeight : t.cfgHeight = s.cfgHeight
  par : t.par = s.par
  env : t.env = s.env
  ctl : t.ctl = s.ctl
  out : t.out = s.out

theorem PanelOnly.refl (s : State) : PanelOnly s s := by constructor <;> rfl

theorem PanelOnly.trans {s t u : State} (h : PanelOnly s t) (k : PanelOnly t u) : PanelOnly s u := by
  constructor
  · rw [k.dp, h.dp]
  · rw [k.pins, h.pins]
  · rw [k.fault, h.fault]
  · rw [k.gs, h.gs]
  · rw [k.ie, h.ie]
  · rw [k.fs, h.fs]
  · rw [k.handlers, h.handlers]
  · rw [k.cfgWidth, h.cfgWidth]
  · rw [k.cfgHeight, h.cfgHeight]
  · rw [k.par, h.par]
  · rw [k.env, h.env]
  · rw [k.ctl, h.ctl]
  · rw [k.out, h.out]

theorem scramble_panelOnly (s : State) : PanelOnly s (scramble s) := by constructor <;> rfl
theorem setDevu_panelOnly (s : State) : PanelOnly s (setDevu s) := by constructor <;> rfl
theorem setDevuIf_panelOnly (c : Bool) (s : State) : PanelOnly s (setDevuIf c s) := by
  cases c
  · exact PanelOnly.refl s
  · exact setDevu_panelOnly s

theorem panelCmd_panelOnly (b : Byte) (s : State) : PanelOnly s (panelCmd b s) := by
  unfold panelCmd; split <;> constructor <;> rfl

theorem panelPixel_panelOnly (p : Half) (s : State) : PanelOnly s (panelPixel p s) := by
  unfold panelPixel; split <;> constructor <;> rfl

theorem panelData_panelOnly (d : Byte) (s : State) : PanelOnly s (panelData d s) := by
  unfold panelData
  split
  · exact scramble_panelOnly s
  split
  · split
    · constructor <;> rfl
    · exact setDevu_panelOnly s
  split
  · split
    · constructor <;> rfl
    · exact setDevu_panelOnly s
  split
  · split
    · constructor <;> rfl
    · exact panelPixel_panelOnly _ s
  · constructor <;> rfl

theorem panelRead_panelOnly (s : State) : PanelOnly s (panelRead s).2 := by
  unfold panelRead
  split
  · constructor <;> rfl
  split
  · split
    · split <;> constructor <;> rfl
    · constructor <;> rfl
  · constructor <;> rfl

theorem panelRst_panelOnly (l : Bool) (s : State) : PanelOnly s (panelRst l s) := by
  unfold panelRst
  split
  · exact PanelOnly.refl s
  split <;> constructor <;> rfl

/-! ### Closed forms -/

/-- The state after data bytes have gone out. -/
def sentData (bs : List Byte) (s : State) : State :=
  match bs with
  | [] => s
  | b :: r => sentData r (panelData b (s.emit (.dat b)))

/-- The bytes received and the state after them, newest byte first. -/
def received (n : Nat) (got : List Byte) (s : State) : List Byte × State :=
  match n with
  | 0 => (got.reverse, s)
  | n + 1 => received n ((panelRead s).1 :: got) ((panelRead s).2.emit (.rd (panelRead s).1))

theorem sendData_quiet (bs : List Byte) {s : State} (h : Quiet s) : sendData bs s = .done (sentData bs s) := by
  induction bs generalizing s with
  | nil => rfl
  | cons b r ih =>
    simp only [sendData, pollTransfer_quiet h, Run.andThen_live, sentData]
    exact ih (by simp only [Quiet, (panelData_panelOnly b _).env]; exact h)

theorem recvData_quiet (n : Nat) (got : List Byte) {s : State} (h : Quiet s) :
    recvData n got s = .live (received n got s).1 (received n got s).2 := by
  induction n generalizing got s with
  | zero => rfl
  | succ n ih =>
    simp only [recvData, pollTransfer_quiet h, Run.andThen_live, received]
    exact ih _ (by simp only [Quiet, State.emit_env, (panelRead_panelOnly s).env]; exact h)

/-- What sending data bytes leaves alone: everything but the panel and the trace. -/
theorem sentData_keeps (bs : List Byte) (s : State) :
    PanelOnly { s with out := (sentData bs s).out } (sentData bs s) := by
  induction bs generalizing s with
  | nil => exact PanelOnly.refl s
  | cons b r ih =>
    have h1 := panelData_panelOnly b (s.emit (.dat b))
    have h2 := ih (panelData b (s.emit (.dat b)))
    constructor
    · exact h2.dp.trans h1.dp
    · exact h2.pins.trans h1.pins
    · exact h2.fault.trans h1.fault
    · exact h2.gs.trans h1.gs
    · exact h2.ie.trans h1.ie
    · exact h2.fs.trans h1.fs
    · exact h2.handlers.trans h1.handlers
    · exact h2.cfgWidth.trans h1.cfgWidth
    · exact h2.cfgHeight.trans h1.cfgHeight
    · exact h2.par.trans h1.par
    · exact h2.env.trans h1.env
    · exact h2.ctl.trans h1.ctl
    · rfl

/-- The events of data bytes, newest first. -/
theorem sentData_out (bs : List Byte) (s : State) : (sentData bs s).out = (bs.map Event.dat).reverse ++ s.out := by
  induction bs generalizing s with
  | nil => rfl
  | cons b r ih => simp [sentData, ih, (panelData_panelOnly b _).out]

/-- Sending a ++ b is sending a, then b (20_memory.md R78). -/
theorem sentData_append (a b : List Byte) (s : State) : sentData (a ++ b) s = sentData b (sentData a s) := by
  induction a generalizing s with
  | nil => rfl
  | cons x r ih => exact ih _

/-- What receiving data bytes leaves alone. -/
theorem received_keeps (n : Nat) (got : List Byte) (s : State) :
    PanelOnly { s with out := (received n got s).2.out } (received n got s).2 := by
  induction n generalizing got s with
  | zero => exact PanelOnly.refl s
  | succ n ih =>
    have h1 := panelRead_panelOnly s
    have h2 := ih ((panelRead s).1 :: got) ((panelRead s).2.emit (.rd (panelRead s).1))
    constructor
    · exact h2.dp.trans h1.dp
    · exact h2.pins.trans h1.pins
    · exact h2.fault.trans h1.fault
    · exact h2.gs.trans h1.gs
    · exact h2.ie.trans h1.ie
    · exact h2.fs.trans h1.fs
    · exact h2.handlers.trans h1.handlers
    · exact h2.cfgWidth.trans h1.cfgWidth
    · exact h2.cfgHeight.trans h1.cfgHeight
    · exact h2.par.trans h1.par
    · exact h2.env.trans h1.env
    · exact h2.ctl.trans h1.ctl
    · rfl

/-- The bytes received are n more than `got`, and each one's event is in the trace. -/
theorem received_bytes (n : Nat) (got : List Byte) (s : State) :
    ∃ r : List Byte, r.length = n ∧ (received n got s).1 = got.reverse ++ r ∧
      (received n got s).2.out = (r.map Event.rd).reverse ++ s.out := by
  induction n generalizing got s with
  | zero => exact ⟨[], rfl, by simp [received], rfl⟩
  | succ n ih =>
    obtain ⟨r, hl, hb, ho⟩ := ih ((panelRead s).1 :: got) ((panelRead s).2.emit (.rd (panelRead s).1))
    exact ⟨(panelRead s).1 :: r, by simp [hl], by simp [received, hb],
      by simp [received, ho, (panelRead_panelOnly s).out]⟩

/-- The state after a command transaction. -/
def cmdDone (b : Byte) (s : State) : State := closeTx (panelCmd b ((openTx s.par.dcCmd s).emit (.cmd b)))

theorem busCmd_quiet (b : Byte) {s : State} (h : Quiet s) : busCmd b s = .done (cmdDone b s) := by
  have h1 : Quiet (openTx s.par.dcCmd s) := h
  have h2 : Quiet (panelCmd b ((openTx s.par.dcCmd s).emit (.cmd b))) := by
    simp only [Quiet, (panelCmd_panelOnly b _).env]; exact h
  simp [busCmd, pollIdle_quiet h, sendCmd, pollTransfer_quiet h1, endTx, pollTransfer_quiet h2, cmdDone]

/-- The state after BusData. -/
def dataDone (bs : List Byte) (s : State) : State :=
  match bs with
  | [] => s
  | b :: r => closeTx (sentData (b :: r) (openTx s.par.dcData s))

theorem busData_quiet (bs : List Byte) {s : State} (h : Quiet s) : busData bs s = .done (dataDone bs s) := by
  cases bs with
  | nil => rfl
  | cons b r =>
    have h1 : Quiet (openTx s.par.dcData s) := h
    have h2 : Quiet (sentData (b :: r) (openTx s.par.dcData s)) := by
      simp only [Quiet, (sentData_keeps (b :: r) _).env]; exact h
    simp [busData, pollIdle_quiet h, sendData_quiet _ h1, endTx, pollTransfer_quiet h2, dataDone]

/-- The state after BusRead, and the bytes. -/
def readDone (n : Nat) (s : State) : List Byte × State :=
  match n with
  | 0 => ([], s)
  | n + 1 => ((received (n + 1) [] (openTx s.par.dcData s)).1, closeTx (received (n + 1) [] (openTx s.par.dcData s)).2)

theorem busRead_quiet (n : Nat) {s : State} (h : Quiet s) :
    busRead n s = .live (readDone n s).1 (readDone n s).2 := by
  cases n with
  | zero => rfl
  | succ n =>
    have h1 : Quiet (openTx s.par.dcData s) := h
    have h2 : Quiet (received (n + 1) [] (openTx s.par.dcData s)).2 := by
      simp only [Quiet, (received_keeps (n + 1) [] _).env]; exact h
    simp only [busRead, pollIdle_quiet h, Run.andThen_live, recvData_quiet _ _ h1, Run.bind_live, endTx,
      pollTransfer_quiet h2, readDone]

/-- The state after RstLine. -/
def rstDone (l : Bool) (s : State) : State :=
  panelRst l (({ s with pins := { s.pins with rstN := l } } : State).emit (.rst l))

theorem rstLine_quiet (l : Bool) {s : State} (h : Quiet s) : rstLine l s = .done (rstDone l s) := by
  simp [rstLine, pollIdle_quiet h, rstDone]

theorem busWait_quiet (ms : Nat) {s : State} (h : Quiet s) : busWait ms s = .done (s.emit (.wait ms)) := by
  simp [busWait, pollIdle_quiet h]

/-- What a whole bus primitive leaves alone: everything but the pins, the panel and the trace. -/
structure BusOnly (s t : State) : Prop where
  dp : t.dp = s.dp
  fault : t.fault = s.fault
  gs : t.gs = s.gs
  ie : t.ie = s.ie
  fs : t.fs = s.fs
  handlers : t.handlers = s.handlers
  cfgWidth : t.cfgWidth = s.cfgWidth
  cfgHeight : t.cfgHeight = s.cfgHeight
  par : t.par = s.par
  env : t.env = s.env
  ctl : t.ctl = s.ctl

theorem BusOnly.refl (s : State) : BusOnly s s := by constructor <;> rfl

theorem BusOnly.trans {s t u : State} (h : BusOnly s t) (k : BusOnly t u) : BusOnly s u :=
  ⟨k.dp.trans h.dp, k.fault.trans h.fault, k.gs.trans h.gs, k.ie.trans h.ie, k.fs.trans h.fs,
    k.handlers.trans h.handlers, k.cfgWidth.trans h.cfgWidth, k.cfgHeight.trans h.cfgHeight, k.par.trans h.par,
    k.env.trans h.env, k.ctl.trans h.ctl⟩

theorem PanelOnly.busOnly {s t : State} (h : PanelOnly s t) : BusOnly s t :=
  ⟨h.dp, h.fault, h.gs, h.ie, h.fs, h.handlers, h.cfgWidth, h.cfgHeight, h.par, h.env, h.ctl⟩

theorem cmdDone_busOnly (b : Byte) (s : State) : BusOnly s (cmdDone b s) := by
  have h := (panelCmd_panelOnly b ((openTx s.par.dcCmd s).emit (.cmd b))).busOnly
  exact ⟨h.dp, h.fault, h.gs, h.ie, h.fs, h.handlers, h.cfgWidth, h.cfgHeight, h.par, h.env, h.ctl⟩

theorem dataDone_busOnly (bs : List Byte) (s : State) : BusOnly s (dataDone bs s) := by
  cases bs with
  | nil => exact BusOnly.refl s
  | cons b r =>
    have h := (sentData_keeps (b :: r) (openTx s.par.dcData s)).busOnly
    exact ⟨h.dp, h.fault, h.gs, h.ie, h.fs, h.handlers, h.cfgWidth, h.cfgHeight, h.par, h.env, h.ctl⟩

theorem readDone_busOnly (n : Nat) (s : State) : BusOnly s (readDone n s).2 := by
  cases n with
  | zero => exact BusOnly.refl s
  | succ n =>
    have h := (received_keeps (n + 1) [] (openTx s.par.dcData s)).busOnly
    exact ⟨h.dp, h.fault, h.gs, h.ie, h.fs, h.handlers, h.cfgWidth, h.cfgHeight, h.par, h.env, h.ctl⟩

theorem rstDone_busOnly (l : Bool) (s : State) : BusOnly s (rstDone l s) := by
  have h := (panelRst_panelOnly l (({ s with pins := { s.pins with rstN := l } } : State).emit (.rst l))).busOnly
  exact ⟨h.dp, h.fault, h.gs, h.ie, h.fs, h.handlers, h.cfgWidth, h.cfgHeight, h.par, h.env, h.ctl⟩

/-! ### The flat trace -/

@[simp] theorem flat_emit (e : Event) (s : State) :
    (s.emit e).flat = s.flat ++ (if e.isFlat then [e] else []) := by
  simp only [State.flat, State.trace, State.emit_out, List.reverse_cons, List.filter_append]
  cases h : e.isFlat <;> simp [h]

/-- States with the same trace have the same flat trace. -/
theorem flat_congr {s t : State} (h : t.out = s.out) : t.flat = s.flat := by
  simp [State.flat, State.trace, h]

theorem flat_openTx (l : Bool) (s : State) : (openTx l s).flat = s.flat := by
  simp [openTx, Event.isFlat]; exact flat_congr rfl

theorem flat_closeTx (s : State) : (closeTx s).flat = s.flat := by
  simp [closeTx, Event.isFlat]; exact flat_congr rfl

/-- A command transaction adds C(b). -/
theorem cmdDone_flat (b : Byte) (s : State) : (cmdDone b s).flat = s.flat ++ [.cmd b] := by
  rw [cmdDone, flat_closeTx, flat_congr (panelCmd_panelOnly b _).out, flat_emit, flat_openTx]; rfl

theorem sentData_flat (bs : List Byte) (s : State) : (sentData bs s).flat = s.flat ++ bs.map Event.dat := by
  induction bs generalizing s with
  | nil => simp [sentData]
  | cons b r ih => simp [sentData, ih, flat_congr (panelData_panelOnly b _).out, Event.isFlat]

/-- BusData(bs) adds D(b) for each byte. -/
theorem dataDone_flat (bs : List Byte) (s : State) : (dataDone bs s).flat = s.flat ++ bs.map Event.dat := by
  cases bs with
  | nil => simp [dataDone]
  | cons b r => rw [dataDone, flat_closeTx, sentData_flat, flat_openTx]

/-- BusRead(n) adds Q(r) for each of its n bytes. -/
theorem readDone_flat (n : Nat) (s : State) :
    (readDone n s).1.length = n ∧ (readDone n s).2.flat = s.flat ++ (readDone n s).1.map Event.rd := by
  cases n with
  | zero => simp [readDone]
  | succ n =>
    obtain ⟨r, hl, hb, ho⟩ := received_bytes (n + 1) [] (openTx s.par.dcData s)
    simp only [readDone, flat_closeTx]
    rw [hb]
    refine ⟨by simpa using hl, ?_⟩
    have : (received (n + 1) [] (openTx s.par.dcData s)).2.flat = (openTx s.par.dcData s).flat ++ r.map Event.rd := by
      simp only [State.flat, State.trace, ho, List.reverse_append, List.reverse_reverse, List.filter_append]
      congr 1
      simp [List.filter_map, Function.comp_def, Event.isFlat]
    rw [this, flat_openTx]; simp

/-- RstLine(l) adds RST(l). -/
theorem rstDone_flat (l : Bool) (s : State) : (rstDone l s).flat = s.flat ++ [.rst l] := by
  rw [rstDone, flat_congr (panelRst_panelOnly l _).out, flat_emit]
  simp [Event.isFlat]; exact flat_congr rfl

end Sys2Proof.Machine
end

