-- ==== Sys2Proof/Laws/Faults.lean ====
section
/-! SUPPORT. What an operation that did not complete has done: the thread is stuck, or the last thing was fault entry
(60_exceptions.md R296, R303), and no fault was latched before it. -/

namespace Sys2Proof.Machine

/-- Fault entry with a code that an operation of the port raises was the last thing; until then FAULT was f. -/
def Faulted (f : FaultRegs) (t : State) : Prop :=
  ∃ code info u, (code = 1 ∨ code = 3 ∨ code = 4) ∧ u.fault = f ∧ t = enterFault code info u

theorem Faulted.enter {f : FaultRegs} {code : BitVec 8} {info : FaultInfo} {u : State}
    (hc : code = 1 ∨ code = 3 ∨ code = 4) (hu : u.fault = f) : Faulted f (enterFault code info u) :=
  ⟨code, info, u, hc, hu, rfl⟩

/-- How a piece of an operation ends: complete with FAULT still f, stuck, or in fault entry. -/
def Run.Ends {α : Type} (f : FaultRegs) (r : Run α) : Prop :=
  match r with
  | .live _ t => t.fault = f
  | .dead t => t.ctl.blocked.isSome = true ∨ Faulted f t

/-- How an operation ends. -/
def Play.Ends (f : FaultRegs) (p : Play) : Prop :=
  (p.live = true → p.st.fault = f) ∧
  (p.live = false → p.refusal = none → p.st.ctl.blocked.isSome = true ∨ Faulted f p.st)

variable {f : FaultRegs}

theorem ends_bind {α β : Type} {r : Run α} {k : α → State → Run β} (h : r.Ends f)
    (hk : ∀ a t, t.fault = f → (k a t).Ends f) : (r.bind k).Ends f := by
  cases r with
  | live a t => exact hk a t h
  | dead t => exact h

theorem ends_andThen {α : Type} {r : Run Unit} {k : State → Run α} (h : r.Ends f)
    (hk : ∀ t, t.fault = f → (k t).Ends f) : (r.andThen k).Ends f := ends_bind h fun _ t => hk t

theorem ends_done {s : State} (h : s.fault = f) : (Run.done s).Ends f := h

theorem ends_ofRun {r : Run Unit} (h : r.Ends f) : (Play.ofRun r).Ends f := by
  cases r with
  | live a t => exact ⟨fun _ => h, fun e => by cases e⟩
  | dead t => exact ⟨fun e => (by cases e), fun _ _ => h⟩

theorem ends_playDone {s : State} (h : s.fault = f) : (Play.done s).Ends f := ⟨fun _ => h, fun e => by cases e⟩
theorem ends_refuse (r : Refusal) (s : State) : (Play.refuse r s).Ends f := ⟨fun e => (by cases e), fun _ e => (by cases e)⟩

theorem ends_playThen {p : Play} {k : State → Play} (h : p.Ends f) (hk : ∀ t, t.fault = f → (k t).Ends f) :
    (p.andThen k).Ends f := by
  unfold Play.andThen
  split
  · rename_i hl
    exact hk _ (h.1 hl)
  · exact h

theorem fault_setDevuIf (c : Bool) {s : State} (h : s.fault = f) : (setDevuIf c s).fault = f :=
  (setDevuIf_panelOnly c s).fault.trans h

theorem ends_pollIdle {s : State} (h : s.fault = f) : (pollIdle s).Ends f := by
  unfold pollIdle
  split
  · exact h
  · exact h
  · exact .inr (Faulted.enter (.inr (.inl rfl)) h)
  · exact .inr (Faulted.enter (.inr (.inr rfl)) h)
  · exact h

theorem ends_pollTransfer {s : State} (h : s.fault = f) : (pollTransfer s).Ends f := by
  unfold pollTransfer
  split
  · exact h
  · exact h
  · exact .inr (Faulted.enter (.inr (.inl rfl)) h)
  · exact .inr (Faulted.enter (.inr (.inr rfl)) h)
  · exact .inl rfl

theorem ends_sendCmd (b : Byte) {s : State} (h : s.fault = f) : (sendCmd b s).Ends f :=
  ends_andThen (ends_pollTransfer h) fun t ht => (panelCmd_panelOnly b (t.emit (.cmd b))).fault.trans ht

theorem ends_sendData (bs : List Byte) {s : State} (h : s.fault = f) : (sendData bs s).Ends f := by
  induction bs generalizing s with
  | nil => exact h
  | cons b r ih =>
    exact ends_andThen (ends_pollTransfer h) fun t ht => ih ((panelData_panelOnly b (t.emit (.dat b))).fault.trans ht)

theorem ends_recvData (n : Nat) (got : List Byte) {s : State} (h : s.fault = f) : (recvData n got s).Ends f := by
  induction n generalizing got s with
  | zero => exact h
  | succ n ih =>
    exact ends_andThen (ends_pollTransfer h) fun t ht => ih _ ((panelRead_panelOnly t).fault.trans ht)

theorem ends_endTx {s : State} (h : s.fault = f) : (endTx s).Ends f := ends_andThen (ends_pollTransfer h) fun _ ht => ht

theorem ends_busCmd (b : Byte) {s : State} (h : s.fault = f) : (busCmd b s).Ends f :=
  ends_andThen (ends_pollIdle h) fun _ ht => ends_andThen (ends_sendCmd b ht) fun _ hu => ends_endTx hu

theorem ends_busData (bs : List Byte) {s : State} (h : s.fault = f) : (busData bs s).Ends f := by
  cases bs with
  | nil => exact h
  | cons b r =>
    exact ends_andThen (ends_pollIdle h) fun _ ht => ends_andThen (ends_sendData (b :: r) ht) fun _ hu => ends_endTx hu

theorem ends_busRead (n : Nat) {s : State} (h : s.fault = f) : (busRead n s).Ends f := by
  cases n with
  | zero => exact h
  | succ n =>
    exact ends_andThen (ends_pollIdle h) fun _ ht =>
      ends_bind (ends_recvData _ _ ht) fun _ _ hu => ends_andThen (ends_endTx hu) fun _ hv => hv

theorem ends_rstLine (l : Bool) {s : State} (h : s.fault = f) : (rstLine l s).Ends f :=
  ends_andThen (ends_pollIdle h) fun _ ht => (panelRst_panelOnly l _).fault.trans ht

theorem ends_busWait (ms : Nat) {s : State} (h : s.fault = f) : (busWait ms s).Ends f :=
  ends_andThen (ends_pollIdle h) fun _ ht => ht

/-! ### Unit DP -/

theorem ends_frameCaset (x0 x1 : Half) {s : State} (h : s.fault = f) : (frameCaset x0 x1 s).Ends f :=
  ends_andThen (ends_busCmd _ h) fun _ ht => ends_busData _ ht
theorem ends_framePaset (y0 y1 : Half) {s : State} (h : s.fault = f) : (framePaset y0 y1 s).Ends f :=
  ends_andThen (ends_busCmd _ h) fun _ ht => ends_busData _ ht
theorem ends_frameInitEntry (c : Byte) (ps : List Byte) {s : State} (h : s.fault = f) : (frameInitEntry c ps s).Ends f :=
  ends_andThen (ends_busCmd _ h) fun _ ht => ends_busData _ ht

theorem ends_dpReset {s : State} (h : s.fault = f) : (dpReset s).Ends f :=
  ends_andThen (ends_rstLine false h) fun _ h => ends_andThen (ends_busWait _ h) fun _ h =>
    ends_andThen (ends_rstLine true h) fun _ h => ends_andThen (ends_busWait _ h) fun _ h => h

theorem ends_sendEntries (es : List InitEntry) (k : Nat) {s : State} (h : s.fault = f) : (sendEntries es k s).Ends f := by
  induction es generalizing k s with
  | nil => exact h
  | cons e r ih => exact ends_andThen (ends_frameInitEntry _ _ h) fun _ ht => ih _ ht

theorem ends_dpInit {s : State} (h : s.fault = f) : (dpInit s).Ends f :=
  ends_andThen (ends_sendEntries _ _ (fault_setDevuIf _ h)) fun _ h => ends_andThen (ends_busCmd _ h) fun _ h =>
    ends_andThen (ends_busWait _ h) fun _ h => ends_andThen (ends_busCmd _ h) fun _ h =>
      ends_andThen (ends_busWait _ h) fun _ h => h

theorem ends_dpSetwin (x0 y0 x1 y1 : Int) {s : State} (h : s.fault = f) : (dpSetwin x0 y0 x1 y1 s).Ends f :=
  ends_andThen (ends_frameCaset _ _ (fault_setDevuIf _ h)) fun _ h => ends_andThen (ends_framePaset _ _ h) fun _ h =>
    ends_andThen (ends_busCmd _ h) fun _ h => h

theorem ends_dpSetwinrd (x0 y0 x1 y1 : Int) {s : State} (h : s.fault = f) : (dpSetwinrd x0 y0 x1 y1 s).Ends f :=
  ends_andThen (ends_frameCaset _ _ (fault_setDevuIf _ h)) fun _ h => ends_andThen (ends_framePaset _ _ h) fun _ h =>
    ends_andThen (ends_busCmd _ h) fun _ h => h

theorem ends_dpWrpix (buf : List Byte) {s : State} (h : s.fault = f) : (dpWrpix buf s).Ends f :=
  ends_andThen (ends_busData buf (fault_setDevuIf (streamDevu s .write) h)) fun _ h => h

theorem ends_dpRdpix (n : Nat) {s : State} (h : s.fault = f) : (dpRdpix n s).Ends f :=
  ends_bind (ends_busRead (2 * n) (fault_setDevuIf (streamDevu s .read) h)) fun _ _ h => h

/-! ### Unit GS -/

theorem ends_streamRep (fuel k left : Nat) (color : Half) {s : State} (h : s.fault = f) :
    (streamRep fuel k left color s).Ends f := by
  induction fuel generalizing left s with
  | zero => exact h
  | succ n ih =>
    unfold streamRep
    split
    · exact h
    · exact ends_andThen (ends_dpWrpix _ h) fun _ ht => ih _ ht

theorem ends_gsFillrect (x y w h : Int) (color : Half) {s : State} (hs : s.fault = f) :
    (gsFillrect x y w h color s).Ends f := by
  unfold gsFillrect
  split
  · exact ends_andThen (ends_dpSetwin _ _ _ _ hs) fun _ ht => ends_streamRep _ _ _ _ ht
  · exact hs

theorem ends_gsSafefillrect (x y w h : Int) (color : Half) {s : State} (hs : s.fault = f) :
    (gsSafefillrect x y w h color s).Ends f := by
  simp only [gsSafefillrect]
  split
  · exact hs
  · exact ends_gsFillrect _ _ _ _ _ hs

theorem ends_opBlit (x y x1 y1 : Int) (buf : List Byte) {s : State} (h : s.fault = f) :
    (opBlit x y x1 y1 buf s).Ends f := by
  unfold opBlit
  split
  · exact ends_ofRun (ends_andThen (ends_andThen (ends_dpSetwin _ _ _ _ h) fun _ ht => ends_dpWrpix _ ht) fun _ h => h)
  · exact ends_refuse _ s

theorem fault_cacheGetOrBuild (key : TextKey) {s : State} (h : s.fault = f) : (cacheGetOrBuild key s).2.fault = f := by
  unfold cacheGetOrBuild
  split
  · exact h
  · dsimp only
    split <;> exact h

theorem ends_opDrawtext (x y : Int) (text : List Byte) (color : Half) (bg : Option Half) (scale : Int) {s : State}
    (h : s.fault = f) : (opDrawtext x y text color bg scale s).Ends f := by
  simp only [opDrawtext]
  split
  · exact ends_opBlit _ _ _ _ _ h
  · exact ends_opBlit _ _ _ _ _ (fault_cacheGetOrBuild _ h)

theorem ends_gsLoadsprite (key : SpriteKey) {s : State} (h : s.fault = f) : (gsLoadsprite key s).Ends f := by
  unfold gsLoadsprite
  split
  · exact h
  · simp only [loadMiss]
    split
    · exact .inr (Faulted.enter (.inl rfl) h)
    · split <;> exact h

/-! ### What the Game issues -/

theorem ends_gameOp (i : Instr) {s : State} (h : s.fault = f) : (gameOp i s).Ends f := by
  cases i with
  | reset => exact ends_ofRun (ends_andThen (ends_dpReset h) fun _ h => h)
  | init => exact ends_ofRun (ends_andThen (ends_dpInit h) fun _ h => h)
  | setwin x0 y0 x1 y1 =>
    simp only [gameOp, opSetwin]
    split
    · exact ends_ofRun (ends_andThen (ends_dpSetwin _ _ _ _ h) fun _ h => h)
    · exact ends_refuse _ s
  | setwinrd x0 y0 x1 y1 =>
    simp only [gameOp, opSetwinrd]
    split
    · exact ends_ofRun (ends_andThen (ends_dpSetwinrd _ _ _ _ h) fun _ h => h)
    · exact ends_refuse _ s
  | wrpix buf => exact ends_ofRun (ends_andThen (ends_dpWrpix buf h) fun _ h => h)
  | rdpix n => exact ends_ofRun (ends_bind (ends_dpRdpix n h) fun _ _ h => h)
  | clear color => exact ends_ofRun (ends_andThen (ends_gsFillrect _ _ _ _ _ h) fun _ h => h)
  | fillrect x y w h' color => exact ends_ofRun (ends_andThen (ends_gsFillrect _ _ _ _ _ h) fun _ h => h)
  | safefillrect x y w h' color => exact ends_ofRun (ends_andThen (ends_gsSafefillrect _ _ _ _ _ h) fun _ h => h)
  | drawimage x y w h' buf => exact ends_opBlit _ _ _ _ _ h
  | textsize text scale => exact ends_playDone h
  | drawtext x y text color bg scale => exact ends_opDrawtext _ _ _ _ _ _ h
  | rendertext text color bg scale => exact ends_playDone h
  | clearcaches => exact ends_playDone h
  | loadsprite name w h' => exact ends_ofRun (ends_bind (ends_gsLoadsprite _ h) fun _ _ h => h)
  | stop => exact ends_playDone h
  | run => exact ends_refuse _ s
  | tickstart => exact ends_refuse _ s
  | sample => exact ends_refuse _ s
  | edge => exact ends_refuse _ s
  | dispatch => exact ends_refuse _ s
  | gesture => exact ends_refuse _ s
  | update => exact ends_refuse _ s
  | draw => exact ends_refuse _ s
  | pace => exact ends_refuse _ s
  | busCaset x0 x1 => exact ends_refuse _ s
  | busPaset y0 y1 => exact ends_refuse _ s
  | busRamwr => exact ends_refuse _ s
  | busRamrd => exact ends_refuse _ s
  | busSlpout => exact ends_refuse _ s
  | busDispon => exact ends_refuse _ s
  | busInitEntry c ps => exact ends_refuse _ s

theorem ends_gameBytes (bs : List Byte) {s : State} (h : s.fault = f) : (gameBytes bs s).Ends f := by
  unfold gameBytes
  split
  · exact ends_gameOp _ h
  · exact ends_refuse _ s

/-- THE LAW: the operations of a callback complete with FAULT as it was, or are refused, or leave a stuck thread, or the
last thing was the entry of a fault of an operation's own. -/
theorem ends_gameOps (ops : List (List Byte)) {s : State} (h : s.fault = f) : (gameOps ops s).Ends f := by
  induction ops generalizing s with
  | nil => exact ends_playDone h
  | cons bs r ih => exact ends_playThen (ends_gameBytes bs h) fun _ ht => ih ht

end Sys2Proof.Machine
end

