-- ==== Sys2Proof/Laws/Callbacks.lean ====
section
/-! SUPPORT. What a callback that does not complete does to its tick phase: the phase ends as the callback ended. -/

namespace Sys2Proof.Machine

theorem callGame_ok {c : Callback} {s t : State} {b : Bool} (h : CallbackOk c s b t) : callGame c s = Play.done t := by
  obtain ⟨v, hv, hw, rfl⟩ := h
  unfold gameActs at hv
  unfold callGame
  rw [hv, hw]
  rfl

/-- A callback whose operations completed and whose answer is `fail`. -/
theorem callGame_fail {c : Callback} {q u : State} (hg : gameActs c q = Play.done u) (hr : (nextGame q).reply = .fail) :
    callGame c q =
      { refusal := none, st := enterFault codeGameFailure (.callback c.number) (u.emit (.answer c .fail)), live := false } := by
  unfold callGame
  unfold gameActs at hg
  rw [hg, hr]
  rfl

/-- A callback in which an operation ended in a fault answers `fail` (43_frame_scheduler.md R255). -/
theorem callGame_faulted {c : Callback} {q : State} (hr : (gameActs c q).refusal = none) (hl : (gameActs c q).live = false)
    (hb : (gameActs c q).st.ctl.blocked = none) :
    callGame c q = { refusal := none, st := (gameActs c q).st.emit (.answer c .fail), live := false } := by
  have hf : failCallback c (gameActs c q) =
      { refusal := none, st := (gameActs c q).st.emit (.answer c .fail), live := false } := by
    unfold failCallback
    rw [hl, hb, hr, if_neg (by decide)]
  exact congrArg (Play.andThen · _) hf

/-- Button k's handler is called and answers ok; the others follow. -/
theorem handlersRun_on {k : Fin 6} {r : List (Fin 6)} {s u t : State} {b : Bool} (hp : s.ie.pressed.getLsbD k.val = true)
    (he : s.exposes k.val = true) (hc : CallbackOk (.handler k) s b u) (hr : HandlersRun r u t) :
    HandlersRun (k :: r) s t := by
  unfold HandlersRun
  rw [if_pos (by rw [hp, he]; rfl)]
  exact ⟨b, u, hc, hr⟩

/-- Button k is not pressed; the others follow. -/
theorem handlersRun_off {k : Fin 6} {r : List (Fin 6)} {s t : State} (hp : s.ie.pressed.getLsbD k.val = false)
    (hr : HandlersRun r s t) : HandlersRun (k :: r) s t := by
  unfold HandlersRun
  rw [if_neg (by rw [hp]; simp)]
  exact hr

/-- A tick phase ends as the callback it opened ended, if that did not complete. -/
theorem callHandlers_stops (k : Fin 6) (r ks : List (Fin 6)) {s q : State} (h : HandlersRun ks s q)
    (hp : q.ie.pressed.getLsbD k.val = true) (he : q.exposes k.val = true)
    (hd : (callGame (.handler k) q).live = false) : callHandlers (ks ++ k :: r) s = callGame (.handler k) q := by
  induction ks generalizing s with
  | nil =>
    cases h
    simp only [List.nil_append, callHandlers, hp, he, Bool.and_self, if_true, Play.andThen, hd]
    rfl
  | cons j ks ih =>
    unfold HandlersRun at h
    simp only [List.cons_append, callHandlers]
    split at h
    · rename_i hc
      obtain ⟨b, u, hu, h2⟩ := h
      rw [if_pos hc, callGame_ok hu]
      exact ih h2
    · rename_i hc
      rw [if_neg hc]
      exact ih h

/-- The fixed order of the buttons, cut at button k. -/
theorem buttons_split (k : Fin 6) :
    ([0, 1, 2, 3, 4, 5] : List (Fin 6)) =
      buttonsBefore k ++ k :: ([0, 1, 2, 3, 4, 5] : List (Fin 6)).filter fun j => decide (k < j) := by
  revert k; decide

theorem andThen_stops {p : Play} (h : p.live = false) (f : State → Play) : p.andThen f = p :=
  if_neg (by rw [h]; decide)

theorem callbackOpens_exec {i : Instr} {c : Callback} {s q : State} (h : CallbackOpens i c s q)
    (hd : (callGame c q).live = false) : exec i s = (callGame c q).outcome ∧ i.space = .phase ∧ i ≠ .tickstart := by
  cases i <;> simp only [CallbackOpens] at h
  case dispatch =>
    obtain ⟨k, rfl, h, hp, he⟩ := h
    refine ⟨?_, rfl, by simp⟩
    simp only [exec, execDispatch]
    rw [buttons_split k, callHandlers_stops k _ _ h hp he hd]
  case gesture =>
    obtain ⟨rfl, he, hp, ht, rfl⟩ := h
    refine ⟨?_, rfl, by simp⟩
    have e1 : (s.setPh 4).ie.pressed.getLsbD 0 = true := hp
    have e2 : doubleTap (readClock (s.setPh 4)).2.ie.cand (readClock (s.setPh 4)).1 (readClock (s.setPh 4)).2.ie.thresh =
        true := ht
    have e3 : (setCand none (readClock (s.setPh 4)).2).exposes 6 = true := he
    simp only [exec, execGesture, ieGesture]
    rw [if_pos e1, if_pos e2, if_pos e3, andThen_stops hd]
  case update =>
    obtain ⟨rfl, rfl⟩ := h
    exact ⟨rfl, rfl, by simp⟩
  case draw =>
    refine ⟨?_, rfl, by simp⟩
    have e : (s.setPh 6).exposes 7 = s.exposes 7 := rfl
    simp only [exec, execDraw, fsDraw, drawAndPresent]
    rcases h with ⟨rfl, he, rfl⟩ | ⟨rfl, he, rfl⟩ | ⟨rfl, he, b, hok, hb⟩
    · rw [if_pos (e.trans he), andThen_stops hd]
    · rw [if_neg (by rw [e, he]; decide), andThen_stops hd]
    · have hr : (nextGame (s.setPh 6)).reply = .ok b := by obtain ⟨_, _, h, _⟩ := hok; exact h
      have hn : drawNeeded (redrawOf (.ok b)) q.fs.first = true := by
        rcases hb with rfl | hb <;> simp [drawNeeded, redrawOf, *]
      rw [if_pos (e.trans he), callGame_ok hok, Play.done_andThen, hr, if_pos hn, andThen_stops hd]

end Sys2Proof.Machine
end

