-- ==== Sys2Proof/Laws/Config.lean ====
section
/-! SUPPORT. INIT_SEQ has the shape 40_display_protocol.md R136 asks for, whatever its open bytes are. -/

namespace Sys2Proof.Config

/-- An entry R136 allows. -/
def Allowed (e : InitEntry) : Prop := e.cmd ≠ cmdBytes.slpout ∧ e.cmd ≠ cmdBytes.dispon

theorem allowedEntry_allowed (e : InitEntry) : Allowed (allowedEntry e) := by
  unfold allowedEntry
  split
  · exact (by decide : (0 : Byte) ≠ cmdBytes.slpout ∧ (0 : Byte) ≠ cmdBytes.dispon)
  · rename_i h
    exact ⟨fun k => h (.inl k), fun k => h (.inr k)⟩

/-- No allowed entry is shut out. -/
theorem allowedEntry_of_allowed {e : InitEntry} (h : Allowed e) : allowedEntry e = e :=
  if_neg fun k => k.elim h.1 h.2

theorem initGroup_allowed (k : Nat) : ∀ e ∈ initGroup k, Allowed e := by
  intro e he
  rcases List.mem_cons.mp he with rfl | he
  · exact allowedEntry_allowed _
  · obtain ⟨d, -, rfl⟩ := List.mem_map.mp he
    exact allowedEntry_allowed d

theorem initGroups_shape : initGroups.Shape cmdBytes := by
  refine ⟨⟨?_, ?_, ?_, ?_, ?_, ?_, ?_⟩, fun e he => ?_⟩
  all_goals first | exact List.cons_ne_nil _ _ | skip
  simp only [InitGroups.seq, initGroups, List.mem_append] at he
  rcases he with (((((he | he) | he) | he) | he) | he) | he <;> exact initGroup_allowed _ e he

end Sys2Proof.Config
end

