-- ==== Sys2Proof/Laws/Decode.lean ====
section
/-! SUPPORT. Reading back the fields the encoder writes. -/

namespace Sys2Proof

@[simp] theorem takeByte_cons {α : Type} (b : Byte) (r : List Byte) (k : Byte → List Byte → Except DecodeError α) :
    takeByte (b :: r) k = k b r := rfl

/-- Two bytes of a half, joined again. -/
theorem half_be16 (v : Half) : half (v.extractLsb' 8 8) (v.extractLsb' 0 8) = v := by
  unfold half
  ext i hi
  simp only [BitVec.getElem_append, BitVec.getElem_extractLsb']
  by_cases h : i < 8
  · simp [h, ← BitVec.getLsbD_eq_getElem]
  · have h8 : 8 + (i - 8) = i := by omega
    simp [h, h8, ← BitVec.getLsbD_eq_getElem]

/-- Four bytes of a word, joined again. -/
theorem word32_be32 (v : BitVec 32) :
    word32 (v.extractLsb' 24 8) (v.extractLsb' 16 8) (v.extractLsb' 8 8) (v.extractLsb' 0 8) = v := by
  unfold word32 half
  ext i hi
  simp only [BitVec.getElem_append, BitVec.getElem_extractLsb']
  by_cases h : i < 8
  · simp [h, show i < 16 by omega, ← BitVec.getLsbD_eq_getElem]
  · by_cases h2 : i < 16
    · simp [h, h2, show 8 + (i - 8) = i by omega, ← BitVec.getLsbD_eq_getElem]
    · by_cases h3 : i < 24
      · simp [h2, show i - 16 < 8 by omega, show 16 + (i - 16) = i by omega, ← BitVec.getLsbD_eq_getElem]
      · simp [h2, show ¬ (i - 16 < 8) by omega, show 24 + (i - 16 - 8) = i by omega, ← BitVec.getLsbD_eq_getElem]

@[simp] theorem take16_be16 {α : Type} (v : Half) (r : List Byte) (k : Half → List Byte → Except DecodeError α) :
    take16 (be16 v ++ r) k = k v r := by
  simp [be16, take16, half_be16]

@[simp] theorem take32_be32 {α : Type} (v : BitVec 32) (r : List Byte)
    (k : BitVec 32 → List Byte → Except DecodeError α) : take32 (be32 v ++ r) k = k v r := by
  simp [be32, take32, word32_be32]

@[simp] theorem takeBytes_append {α : Type} (bs r : List Byte) (k : List Byte → List Byte → Except DecodeError α) :
    takeBytes bs.length (bs ++ r) k = k bs r := by
  simp [takeBytes]

@[simp] theorem takeBackground_encode {α : Type} (bg : Option Half) (r : List Byte)
    (k : Option Half → List Byte → Except DecodeError α) :
    takeBackground (encodeBackground bg ++ r) k = k bg r := by
  cases bg <;> simp [takeBackground, encodeBackground]

/-- A signed field holds its value (30_encoding.md R94). -/
theorem toInt_field16 {v : Int} (h : inS16 v = true) : (BitVec.ofInt 16 v).toInt = v := by
  simp only [inS16, decide_eq_true_eq] at h
  rw [BitVec.toInt_ofInt]
  rw [Int.bmod_eq_of_le] <;> omega

/-- An unsigned field holds its value. -/
theorem toNat_field16 {v : Int} (h : inU16 v = true) : ((BitVec.ofInt 16 v).toNat : Int) = v := by
  simp only [inU16, decide_eq_true_eq] at h
  rw [BitVec.toNat_ofInt]
  omega

/-- A 16-bit length field holds its value. -/
theorem toNat_len16 {n : Nat} (h : inLen16 n = true) : (BitVec.ofNat 16 n).toNat = n := by
  simp only [inLen16, decide_eq_true_eq] at h
  simp [BitVec.toNat_ofNat]; omega

/-- A 32-bit length field holds its value. -/
theorem toNat_len32 {n : Nat} (h : inU32 n = true) : (BitVec.ofNat 32 n).toNat = n := by
  simp only [inU32, decide_eq_true_eq] at h
  simp [BitVec.toNat_ofNat]; omega

@[simp] theorem length_be16 (v : Half) : (be16 v).length = 2 := rfl
@[simp] theorem length_be32 (v : BitVec 32) : (be32 v).length = 4 := rfl
@[simp] theorem length_field16 (v : Int) : (field16 v).length = 2 := rfl
@[simp] theorem length_len16 (n : Nat) : (len16 n).length = 2 := rfl
@[simp] theorem length_len32 (n : Nat) : (len32 n).length = 4 := rfl
@[simp] theorem length_encodeBackground (bg : Option Half) : (encodeBackground bg).length = 3 := by
  cases bg <;> rfl

end Sys2Proof
end

