-- ==== Sys2Proof/Laws/Flags.lean ====
section
/-! SUPPORT. What each flag and each operand form says, in the integers the rules speak of. -/

namespace Sys2Proof.Machine

/-- WinValid as inequalities. -/
theorem winValid_iff {width height x0 y0 x1 y1 : Int} : winValid width height x0 y0 x1 y1 = true ↔
    0 ≤ x0 ∧ x0 ≤ x1 ∧ x1 < width ∧ 0 ≤ y0 ∧ y0 ≤ y1 ∧ y1 < height := by
  unfold winValid; rw [decide_eq_true_iff]

/-- InSurface as inequalities. -/
theorem inSurface_iff {width height x y w h : Int} : inSurface width height x y w h = true ↔
    0 < w ∧ 0 < h ∧ 0 ≤ x ∧ 0 ≤ y ∧ x + w ≤ width ∧ y + h ≤ height := by
  unfold inSurface; rw [decide_eq_true_iff]

/-- Bounds that can be sent, as inequalities. -/
theorem boundsOk_iff {x0 y0 x1 y1 : Int} : boundsOk x0 y0 x1 y1 = true ↔
    (0 ≤ x0 ∧ x0 ≤ 65535) ∧ (0 ≤ y0 ∧ y0 ≤ 65535) ∧ (0 ≤ x1 ∧ x1 ≤ 65535) ∧ (0 ≤ y1 ∧ y1 ≤ 65535) := by
  simp [boundsOk, boundOk, and_assoc]

/-- What SETWIN and SETWINRD set DEVU on. -/
theorem windowDevu_iff {s : State} {x0 y0 x1 y1 : Int} : windowDevu s x0 y0 x1 y1 = true ↔
    s.dp.initd = false ∨ ¬ (0 ≤ x0 ∧ x0 ≤ x1 ∧ x1 < s.width ∧ 0 ≤ y0 ∧ y0 ≤ y1 ∧ y1 < s.height) := by
  rw [← winValid_iff]; simp [windowDevu, or_comm]

/-- What WRPIX and RDPIX set it on. -/
theorem streamDevu_iff {s : State} {want : StreamMode} : streamDevu s want = true ↔
    s.dp.initd = false ∨ s.dp.mode ≠ want := by
  simp [streamDevu, or_comm]

/-- The surface has fewer than 65536 columns and rows. -/
theorem surface_lt (s : State) : 0 ≤ s.width ∧ s.width < 65536 ∧ 0 ≤ s.height ∧ s.height < 65536 := by
  have := s.cfgWidth.isLt
  have := s.cfgHeight.isLt
  simp only [State.width, State.height]
  omega

/-- A rectangle inside the surface is a window that is valid, and its bounds can be sent. -/
theorem inSurface_window {s : State} {x y w h : Int} (hi : inSurface s.width s.height x y w h = true) :
    winValid s.width s.height x y (x + w - 1) (y + h - 1) = true ∧ boundsOk x y (x + w - 1) (y + h - 1) = true := by
  have hs := surface_lt s
  rw [winValid_iff, boundsOk_iff]
  rw [inSurface_iff] at hi
  omega

/-- A bound that fits is read back from its field. -/
theorem boundField_toNat {v : Int} (h0 : 0 ≤ v) (h1 : v ≤ 65535) : ((boundField v).toNat : Int) = v := by
  simp only [boundField, BitVec.toNat_ofInt]; omega

theorem clampScale_pos (scale : Int) : 1 ≤ clampScale scale := le_max_right _ _

@[simp] theorem clampScale_clampScale (scale : Int) : clampScale (clampScale scale) = clampScale scale := by
  simp [clampScale]

/-- Text sizes depend on the scale only through the clamp (R190). -/
@[simp] theorem textWidth_clampScale (text : List Byte) (scale : Int) :
    textWidth text (clampScale scale) = textWidth text scale := by simp [textWidth]

@[simp] theorem textHeight_clampScale (scale : Int) : textHeight (clampScale scale) = textHeight scale := by
  simp [textHeight]

theorem length_be16 (v : Half) : (be16 v).length = 2 := rfl

theorem length_flatMap_const {α β : Type} (l : List α) (f : α → List β) (n : Nat) (h : ∀ a, (f a).length = n) :
    (l.flatMap f).length = l.length * n := by
  induction l with
  | nil => simp
  | cons a r ih => simp [List.flatMap_cons, ih, h]; ring

/-- The length of a raster: two bytes a pixel. -/
theorem length_rasterBytes (font : List (Byte × BitVec 64)) (text : List Byte) (fg : Half) (bg : Option Half)
    (s : Nat) : (rasterBytes font text fg bg s).length = 2 * (8 * text.length * s) * (8 * s) := by
  unfold rasterBytes
  rw [length_flatMap_const _ _ (8 * text.length * s * 2) fun dy => by
    rw [length_flatMap_const _ _ 2 fun dx => length_be16 _, List.length_range]]
  rw [List.length_range]; ring

end Sys2Proof.Machine
end

