-- ==== Sys2Proof/Laws/Display.lean ====
section
/-! SUPPORT. Unit DP in closed form while no bus fault is injected: the state each piece leaves, and what that state is,
field by field. -/

namespace Sys2Proof.Machine

/-! ### What a piece of unit DP leaves alone -/

/-- Everything but unit DP's registers, the pins, the panel and the trace. -/
structure DpOnly (s t : State) : Prop where
  fault : t.fault = s.fault
  gs : t.gs = s.gs
  ie : t.ie = s.ie
  fs : t.fs = s.fs
  handlers : t.handlers = s.handlers
  cfgWidth : t.cfgWidth = s.cfgWidth
  cfgHeight : t.cfgHeight = s.cfgHeight
  par : t.par = s.par
  env : t.env = s.env
  ctl : t.ctl = s.ctl

theorem DpOnly.refl (s : State) : DpOnly s s := by constructor <;> rfl

theorem DpOnly.trans {s t u : State} (h : DpOnly s t) (k : DpOnly t u) : DpOnly s u :=
  ⟨k.fault.trans h.fault, k.gs.trans h.gs, k.ie.trans h.ie, k.fs.trans h.fs, k.handlers.trans h.handlers,
    k.cfgWidth.trans h.cfgWidth, k.cfgHeight.trans h.cfgHeight, k.par.trans h.par, k.env.trans h.env,
    k.ctl.trans h.ctl⟩

theorem BusOnly.dpOnly {s t : State} (h : BusOnly s t) : DpOnly s t :=
  ⟨h.fault, h.gs, h.ie, h.fs, h.handlers, h.cfgWidth, h.cfgHeight, h.par, h.env, h.ctl⟩

theorem DpOnly.quiet {s t : State} (h : DpOnly s t) (hq : Quiet s) : Quiet t := by
  unfold Quiet; rw [h.env]; exact hq

theorem DpOnly.sameBeyondBus {s t : State} (h : DpOnly s t) (r : Result) : SameBeyondBus s (t.setResult r) :=
  ⟨h.fault, h.ie, h.fs, h.handlers, h.cfgWidth, h.cfgHeight, h.par, h.env, by simp [h.ctl], by simp [h.ctl]⟩

theorem setSt_dpOnly (st : DpState) (s : State) : DpOnly s (s.setSt st) := by constructor <;> rfl
theorem emit_dpOnly (e : Event) (s : State) : DpOnly s (s.emit e) := by constructor <;> rfl
theorem setDevuIf_dpOnly (c : Bool) (s : State) : DpOnly s (setDevuIf c s) := (setDevuIf_panelOnly c s).busOnly.dpOnly

@[simp] theorem flat_setSt (st : DpState) (s : State) : (s.setSt st).flat = s.flat := flat_congr rfl
@[simp] theorem flat_setResult (r : Result) (s : State) : (s.setResult r).flat = s.flat := flat_congr rfl
@[simp] theorem flat_setDevuIf (c : Bool) (s : State) : (setDevuIf c s).flat = s.flat :=
  flat_congr (setDevuIf_panelOnly c s).out

@[simp] theorem setDevuIf_false (s : State) : setDevuIf false s = s := rfl

/-- DEVU after it may have been set. -/
@[simp] theorem setDevuIf_devu (c : Bool) (s : State) : (setDevuIf c s).devu = (s.devu || c) := by
  cases c
  · simp
  · simp [setDevuIf, setDevu, scramble]

/-! ### The pins and the registers after the bus primitives -/

@[simp] theorem cmdDone_pins (b : Byte) (s : State) : (cmdDone b s).pins = pinsAfter s s.par.dcCmd := by
  simp [cmdDone, (panelCmd_panelOnly b _).pins, pinsAfter]

@[simp] theorem dataDone_pins (bs : List Byte) (s : State) : (dataDone bs s).pins = pinsAfterData s bs.length := by
  cases bs with
  | nil => rfl
  | cons b r => simp [dataDone, (sentData_keeps (b :: r) _).pins, pinsAfterData, pinsAfter]

@[simp] theorem readDone_pins (n : Nat) (s : State) : (readDone n s).2.pins = pinsAfterData s n := by
  cases n with
  | zero => rfl
  | succ n => simp [readDone, (received_keeps (n + 1) [] _).pins, pinsAfterData, pinsAfter]

/-! ### DEVU is sticky -/

theorem panelCmd_devu (b : Byte) (s : State) : (panelCmd b s).devu = s.devu := by
  unfold panelCmd; split <;> rfl

theorem panelPixel_devu (p : Half) (s : State) (h : s.devu = true) : (panelPixel p s).devu = true := by
  unfold panelPixel; split
  · exact h
  · rfl

theorem panelData_devu (d : Byte) (s : State) (h : s.devu = true) : (panelData d s).devu = true := by
  simp [panelData, h, scramble]

theorem panelRead_devu (s : State) (h : s.devu = true) : (panelRead s).2.devu = true := by
  simp [panelRead, h, drawByte, scramble]

theorem sentData_devu (bs : List Byte) (s : State) (h : s.devu = true) : (sentData bs s).devu = true := by
  induction bs generalizing s with
  | nil => exact h
  | cons b r ih => exact ih _ (panelData_devu b _ h)

theorem received_devu (n : Nat) (got : List Byte) (s : State) (h : s.devu = true) :
    (received n got s).2.devu = true := by
  induction n generalizing got s with
  | zero => exact h
  | succ n ih => exact ih _ _ (panelRead_devu s h)

@[simp] theorem cmdDone_devu (b : Byte) (s : State) : (cmdDone b s).devu = s.devu := by
  simp [cmdDone, panelCmd_devu]

theorem dataDone_devu (bs : List Byte) (s : State) (h : s.devu = true) : (dataDone bs s).devu = true := by
  cases bs with
  | nil => exact h
  | cons b r => exact sentData_devu (b :: r) (openTx s.par.dcData s) h

theorem readDone_devu (n : Nat) (s : State) (h : s.devu = true) : (readDone n s).2.devu = true := by
  cases n with
  | zero => exact h
  | succ n => exact received_devu (n + 1) [] (openTx s.par.dcData s) h

/-! ### The panel behind the bus primitives -/

/-- The panel sees only the command byte. -/
theorem cmdDone_pan (b : Byte) {s : State} (h : s.devu = false) :
    (cmdDone b s).pan = panelOnCmd s.par.cmds b s.pan := by
  simp [cmdDone, panelCmd, h]

/-- What the panel does with a pixel does not depend on unit DP, the pins or the trace (20_memory.md R80). -/
theorem panelPixel_outside (x : Half) (s : State) (q : DpRegs) (p : Pins) (o : List Event) :
    panelPixel x { s with dp := q, pins := p, out := o } = { panelPixel x s with dp := q, pins := p, out := o } := by
  unfold panelPixel
  by_cases h : streamOk s = true
  · rw [if_pos h, if_pos (by exact h)]
  · rw [if_neg h, if_neg (by exact h)]; rfl

/-- Nor what it does with a data byte. -/
theorem panelData_outside (d : Byte) (s : State) (q : DpRegs) (p : Pins) (o : List Event) :
    panelData d { s with dp := q, pins := p, out := o } = { panelData d s with dp := q, pins := p, out := o } := by
  unfold panelData
  split
  · rfl
  split
  · split <;> rfl
  split
  · split <;> rfl
  split
  · rcases h : s.pan.hb with _ | x
    · simp only
    · simp only; exact panelPixel_outside (x ++ d) s q p o
  · rfl

/-- Nor do the bytes of a stream. -/
theorem sentData_outside (bs : List Byte) (s : State) (q : DpRegs) (p : Pins) (o : List Event) :
    (sentData bs { s with dp := q, pins := p, out := o }).pan = (sentData bs s).pan ∧
      (sentData bs { s with dp := q, pins := p, out := o }).devu = (sentData bs s).devu ∧
      (sentData bs { s with dp := q, pins := p, out := o }).draws = (sentData bs s).draws := by
  induction bs generalizing s q p o with
  | nil => exact ⟨rfl, rfl, rfl⟩
  | cons d r ih =>
    have h := panelData_outside d s q p (.dat d :: o)
    have k := panelData_outside d s s.dp s.pins (.dat d :: s.out)
    have a := ih (panelData d s) q p (.dat d :: o)
    have b := ih (panelData d s) s.dp s.pins (.dat d :: s.out)
    simp only [sentData, State.emit] at *
    rw [h, k]
    exact ⟨a.1.trans b.1.symm, a.2.1.trans b.2.1.symm, a.2.2.trans b.2.2.symm⟩

/-- Data bytes reach the panel in order; opening and closing the transaction does nothing to it. -/
theorem dataDone_panel (bs : List Byte) (s : State) :
    (dataDone bs s).pan = (sentData bs s).pan ∧ (dataDone bs s).devu = (sentData bs s).devu ∧
      (dataDone bs s).draws = (sentData bs s).draws := by
  cases bs with
  | nil => exact ⟨rfl, rfl, rfl⟩
  | cons b r =>
    exact sentData_outside (b :: r) s s.dp { s.pins with dc := s.par.dcData, csN := false }
      (.cs false :: .dc s.par.dcData :: s.out)

/-! ### A frame: one command, then its parameters (30_encoding.md R107) -/

/-- The state after a frame that passes DP.ST through st1 and st2. -/
def frameDone (st1 st2 : DpState) (c : Byte) (ps : List Byte) (s : State) : State :=
  dataDone ps ((cmdDone c (s.setSt st1)).setSt st2)

theorem frame_quiet (st1 st2 : DpState) (c : Byte) (ps : List Byte) {s : State} (h : Quiet s) :
    (busCmd c (s.setSt st1)).andThen (fun s => busData ps (s.setSt st2)) = .done (frameDone st1 st2 c ps s) := by
  have h1 : Quiet (s.setSt st1) := h
  have h2 : Quiet ((cmdDone c (s.setSt st1)).setSt st2) := (cmdDone_busOnly c (s.setSt st1)).dpOnly.quiet h1
  rw [busCmd_quiet c h1, Run.andThen_live, busData_quiet ps h2, frameDone]

theorem frameDone_dpOnly (st1 st2 : DpState) (c : Byte) (ps : List Byte) (s : State) :
    DpOnly s (frameDone st1 st2 c ps s) :=
  ((setSt_dpOnly st1 s).trans (cmdDone_busOnly c _).dpOnly).trans
    ((setSt_dpOnly st2 _).trans (dataDone_busOnly ps _).dpOnly)

theorem frameDone_flat (st1 st2 : DpState) (c : Byte) (ps : List Byte) (s : State) :
    (frameDone st1 st2 c ps s).flat = s.flat ++ .cmd c :: ps.map Event.dat := by
  simp [frameDone, dataDone_flat, cmdDone_flat]

theorem frameDone_dp (st1 st2 : DpState) (c : Byte) (ps : List Byte) (s : State) :
    (frameDone st1 st2 c ps s).dp = { s.dp with st := st2 } := by
  simp [frameDone, (dataDone_busOnly ps _).dp, (cmdDone_busOnly c _).dp]

theorem frameDone_pins (st1 st2 : DpState) (c : Byte) (ps : List Byte) (s : State) :
    (frameDone st1 st2 c ps s).pins = pinsAfterBlit s ps.length := by
  cases ps with
  | nil => simp [frameDone, pinsAfterBlit, pinsAfter, pinsAfterData]
  | cons b r =>
    simp [frameDone, pinsAfterBlit, pinsAfter, pinsAfterData, (cmdDone_busOnly c _).par]

/-- The four bytes of two bounds, after an address-set command of columns. -/
theorem sentData_caset (x0 x1 : Half) {s : State} (hd : s.devu = false) (hc : s.pan.cmd = s.par.cmds.caset)
    (hn : s.pan.np = 0) :
    (sentData (be16 x0 ++ be16 x1) s).pan = { s.pan with xs := x0, xe := x1, np := 4 } ∧
      (sentData (be16 x0 ++ be16 x1) s).devu = false := by
  simp [be16, sentData, panelData, hd, hc, hn, boundByte, setHi, setLo, half_bytes]

/-- Likewise of rows, if the two commands differ. -/
theorem sentData_paset (y0 y1 : Half) {s : State} (hd : s.devu = false) (hc : s.pan.cmd = s.par.cmds.paset)
    (hn : s.pan.np = 0) (hne : s.par.cmds.paset ≠ s.par.cmds.caset) :
    (sentData (be16 y0 ++ be16 y1) s).pan = { s.pan with ys := y0, ye := y1, np := 4 } ∧
      (sentData (be16 y0 ++ be16 y1) s).devu = false := by
  simp [be16, sentData, panelData, hd, hc, hn, hne, boundByte, setHi, setLo, half_bytes]

/-- Four parameter bytes of an address-set command never set DEVU and never touch a cell, whatever the commands are. -/
theorem sentData_bounds (ps : List Byte) {s : State} (hd : s.devu = false)
    (hc : s.pan.cmd = s.par.cmds.caset ∨ s.pan.cmd = s.par.cmds.paset) (hn : s.pan.np + ps.length ≤ 4) :
    (sentData ps s).devu = false ∧ (sentData ps s).pan.gram = s.pan.gram := by
  induction ps generalizing s with
  | nil => exact ⟨hd, rfl⟩
  | cons b r ih =>
    have hlt : s.pan.np < 4 := by simp at hn; omega
    have hp := panelData_panelOnly b (s.emit (.dat b))
    have : (panelData b (s.emit (.dat b))).devu = false ∧
        (panelData b (s.emit (.dat b))).pan.gram = s.pan.gram ∧
        (panelData b (s.emit (.dat b))).pan.cmd = s.pan.cmd ∧
        (panelData b (s.emit (.dat b))).pan.np = s.pan.np + 1 := by
      by_cases h1 : s.pan.cmd = s.par.cmds.caset
      · simp [panelData, hd, h1, hlt]
      · have h2 : s.pan.cmd = s.par.cmds.paset := hc.resolve_left h1
        have h3 : s.par.cmds.paset ≠ s.par.cmds.caset := by rw [← h2]; exact h1
        simp [panelData, hd, h2, h3, hlt]
    obtain ⟨d1, d2, d3, d4⟩ := this
    have := ih (s := panelData b (s.emit (.dat b))) d1 (by rw [d3, hp.par]; exact hc)
      (by rw [d4]; simp at hn; omega)
    exact ⟨this.1, this.2.trans d2⟩

/-! ### A window -/

/-- The state after the three frames of a window. -/
def windowDone (ram : Byte) (mode : StreamMode) (x0 y0 x1 y1 : Half) (s : State) : State :=
  windowRegs x0 y0 x1 y1 mode
    (cmdDone ram ((frameDone .rowCmd .rowDat s.par.cmds.paset (be16 y0 ++ be16 y1)
      (frameDone .colCmd .colDat s.par.cmds.caset (be16 x0 ++ be16 x1) s)).setSt .ramCmd))

theorem sendWindow_quiet (mode : StreamMode) (x0 y0 x1 y1 : Half) {s : State} (h : Quiet s) :
    sendWindow frameRamwr mode x0 y0 x1 y1 s = .done (windowDone s.par.cmds.ramwr mode x0 y0 x1 y1 s) ∧
      sendWindow frameRamrd mode x0 y0 x1 y1 s = .done (windowDone s.par.cmds.ramrd mode x0 y0 x1 y1 s) := by
  have d1 := frameDone_dpOnly .colCmd .colDat s.par.cmds.caset (be16 x0 ++ be16 x1) s
  have q1 := d1.quiet h
  have d2 := frameDone_dpOnly .rowCmd .rowDat s.par.cmds.paset (be16 y0 ++ be16 y1)
    (frameDone .colCmd .colDat s.par.cmds.caset (be16 x0 ++ be16 x1) s)
  have q2 := d2.quiet q1
  have e1 : frameCaset x0 x1 s = .done (frameDone .colCmd .colDat s.par.cmds.caset (be16 x0 ++ be16 x1) s) :=
    frame_quiet .colCmd .colDat s.par.cmds.caset (be16 x0 ++ be16 x1) h
  have e2 : framePaset y0 y1 (frameDone .colCmd .colDat s.par.cmds.caset (be16 x0 ++ be16 x1) s) =
      .done (frameDone .rowCmd .rowDat s.par.cmds.paset (be16 y0 ++ be16 y1)
        (frameDone .colCmd .colDat s.par.cmds.caset (be16 x0 ++ be16 x1) s)) := by
    have := frame_quiet .rowCmd .rowDat s.par.cmds.paset (be16 y0 ++ be16 y1) q1
    unfold framePaset; rw [d1.par]; exact this
  have p2 := (d1.trans d2).par
  constructor
  · simp only [sendWindow, e1, e2, Run.andThen_live, frameRamwr, p2]
    rw [busCmd_quiet _ ((setSt_dpOnly .ramCmd _).quiet q2), Run.andThen_live, windowDone]
  · simp only [sendWindow, e1, e2, Run.andThen_live, frameRamrd, p2]
    rw [busCmd_quiet _ ((setSt_dpOnly .ramCmd _).quiet q2), Run.andThen_live, windowDone]

section
variable (ram : Byte) (mode : StreamMode) (x0 y0 x1 y1 : Half) (s : State)

theorem windowDone_dpOnly : DpOnly s (windowDone ram mode x0 y0 x1 y1 s) := by
  have h := (((frameDone_dpOnly .colCmd .colDat s.par.cmds.caset (be16 x0 ++ be16 x1) s).trans
    (frameDone_dpOnly .rowCmd .rowDat s.par.cmds.paset (be16 y0 ++ be16 y1) _)).trans
    (setSt_dpOnly .ramCmd _)).trans (cmdDone_busOnly ram _).dpOnly
  exact ⟨h.fault, h.gs, h.ie, h.fs, h.handlers, h.cfgWidth, h.cfgHeight, h.par, h.env, h.ctl⟩

theorem windowDone_flat :
    (windowDone ram mode x0 y0 x1 y1 s).flat = s.flat ++ windowTrace s.par.cmds ram x0 y0 x1 y1 := by
  have : (windowDone ram mode x0 y0 x1 y1 s).flat = _ := flat_congr (s := cmdDone ram ((frameDone .rowCmd .rowDat
    s.par.cmds.paset (be16 y0 ++ be16 y1) (frameDone .colCmd .colDat s.par.cmds.caset (be16 x0 ++ be16 x1) s)).setSt
      .ramCmd)) rfl
  rw [this, cmdDone_flat, flat_setSt, frameDone_flat, frameDone_flat]
  simp [windowTrace]

theorem windowDone_dp : (windowDone ram mode x0 y0 x1 y1 s).dp =
    { s.dp with win := { x0 := x0, y0 := y0, x1 := x1, y1 := y1 }, mode := mode, st := .idle } := by
  simp [windowDone, (cmdDone_busOnly ram _).dp, frameDone_dp]

theorem windowDone_pins : (windowDone ram mode x0 y0 x1 y1 s).pins = pinsAfter s s.par.dcCmd := by
  have h := (frameDone_dpOnly .colCmd .colDat s.par.cmds.caset (be16 x0 ++ be16 x1) s).trans
    (frameDone_dpOnly .rowCmd .rowDat s.par.cmds.paset (be16 y0 ++ be16 y1) _)
  simp [windowDone, pinsAfter, frameDone_pins, pinsAfterBlit, h.par]

/-- A window sent in order never sets DEVU by itself and touches no cell. -/
theorem windowDone_devu (hd : s.devu = false) : (windowDone ram mode x0 y0 x1 y1 s).devu = false ∧
    (windowDone ram mode x0 y0 x1 y1 s).pan.gram = s.pan.gram := by
  have on : ∀ (c : CmdBytes) (b : Byte) (p : Panel), (panelOnCmd c b p).gram = p.gram ∧ (panelOnCmd c b p).cmd = b ∧
      (panelOnCmd c b p).np = 0 := by
    intro c b p; unfold panelOnCmd; dsimp only; split_ifs <;> exact ⟨rfl, rfl, rfl⟩
  have frame : ∀ (st1 st2 : DpState) (c : Byte) (ps : List Byte) (t : State), t.devu = false →
      c = t.par.cmds.caset ∨ c = t.par.cmds.paset → ps.length ≤ 4 →
      (frameDone st1 st2 c ps t).devu = false ∧ (frameDone st1 st2 c ps t).pan.gram = t.pan.gram := by
    intro st1 st2 c ps t ht hc hl
    have hd' : ((cmdDone c (t.setSt st1)).setSt st2).devu = false := by simpa using ht
    have hp : ((cmdDone c (t.setSt st1)).setSt st2).pan = panelOnCmd t.par.cmds c t.pan :=
      cmdDone_pan c (s := t.setSt st1) ht
    have hpar : ((cmdDone c (t.setSt st1)).setSt st2).par = t.par := (cmdDone_busOnly c (t.setSt st1)).par
    have h := sentData_bounds ps hd' (by rw [hp, (on _ _ _).2.1, hpar]; exact hc)
      (by rw [hp, (on _ _ _).2.2]; omega)
    obtain ⟨e1, e2, _⟩ := dataDone_panel ps ((cmdDone c (t.setSt st1)).setSt st2)
    refine ⟨?_, ?_⟩
    · show (dataDone _ _).devu = false; rw [e2]; exact h.1
    · show (dataDone _ _).pan.gram = _; rw [e1, h.2, hp, (on _ _ _).1]
  have f1 := frame .colCmd .colDat s.par.cmds.caset (be16 x0 ++ be16 x1) s hd (Or.inl rfl) (le_refl 4)
  have p1 := (frameDone_dpOnly .colCmd .colDat s.par.cmds.caset (be16 x0 ++ be16 x1) s).par
  have f2 := frame .rowCmd .rowDat s.par.cmds.paset (be16 y0 ++ be16 y1) _ f1.1 (Or.inr (by rw [p1])) (le_refl 4)
  refine ⟨by simpa [windowDone] using f2.1, ?_⟩
  simp only [windowDone, windowRegs_pan]
  rw [cmdDone_pan ram (s := (frameDone .rowCmd .rowDat s.par.cmds.paset (be16 y0 ++ be16 y1) _).setSt .ramCmd) f2.1,
    (on _ _ _).1]
  exact f2.2.trans f1.2

/-- The panel a window leaves, if the six commands are distinct (20_memory.md R81, R82). -/
theorem windowDone_pan (hd : s.devu = false) (hc : s.par.cmds.Distinct)
    (hr : (ram = s.par.cmds.ramwr ∧ mode = .write) ∨ (ram = s.par.cmds.ramrd ∧ mode = .read)) :
    (windowDone ram mode x0 y0 x1 y1 s).pan = windowedPanel s.pan x0 y0 x1 y1 mode ram := by
  simp only [CmdBytes.Distinct, CmdBytes.all, List.nodup_cons, List.mem_cons, List.not_mem_nil, or_false,
    not_or] at hc
  obtain ⟨⟨h1, h2, h3, h4, h5⟩, ⟨h6, h7, h8, h9⟩, ⟨h10, h11, h12⟩, ⟨h13, h14⟩, _⟩ := hc
  have d1 : ((cmdDone s.par.cmds.caset (s.setSt .colCmd)).setSt .colDat).pan =
      { s.pan with cmd := s.par.cmds.caset, np := 0, hb := none, mode := .none } := by
    have := cmdDone_pan s.par.cmds.caset (s := s.setSt .colCmd) hd
    simpa [panelOnCmd, h1, h2, h3, h4, h5] using this
  have b1 := sentData_caset x0 x1 (s := (cmdDone s.par.cmds.caset (s.setSt .colCmd)).setSt .colDat)
    (by simpa using hd) (by rw [d1]; simp [(cmdDone_busOnly _ _).par]) (by rw [d1])
  have f1 : (frameDone .colCmd .colDat s.par.cmds.caset (be16 x0 ++ be16 x1) s).pan =
      { s.pan with xs := x0, xe := x1, cmd := s.par.cmds.caset, np := 4, hb := none, mode := .none } ∧
      (frameDone .colCmd .colDat s.par.cmds.caset (be16 x0 ++ be16 x1) s).devu = false := by
    obtain ⟨e1, e2, _⟩ := dataDone_panel (be16 x0 ++ be16 x1) ((cmdDone s.par.cmds.caset (s.setSt .colCmd)).setSt .colDat)
    exact ⟨by show (dataDone _ _).pan = _; rw [e1, b1.1, d1], by show (dataDone _ _).devu = _; rw [e2, b1.2]⟩
  have p1 := (frameDone_dpOnly .colCmd .colDat s.par.cmds.caset (be16 x0 ++ be16 x1) s).par
  show (cmdDone ram ((frameDone .rowCmd .rowDat s.par.cmds.paset (be16 y0 ++ be16 y1)
    (frameDone .colCmd .colDat s.par.cmds.caset (be16 x0 ++ be16 x1) s)).setSt .ramCmd)).pan = _
  generalize frameDone .colCmd .colDat s.par.cmds.caset (be16 x0 ++ be16 x1) s = a at f1 p1 ⊢
  have d2 : ((cmdDone s.par.cmds.paset (a.setSt .rowCmd)).setSt .rowDat).pan =
      { a.pan with cmd := s.par.cmds.paset, np := 0, hb := none, mode := .none } := by
    have := cmdDone_pan s.par.cmds.paset (s := a.setSt .rowCmd) f1.2
    simpa [panelOnCmd, p1, h6, h7, h8, h9] using this
  have b2 := sentData_paset y0 y1 (s := (cmdDone s.par.cmds.paset (a.setSt .rowCmd)).setSt .rowDat)
    (by simpa using f1.2) (by rw [d2]; simp [(cmdDone_busOnly _ _).par, p1]) (by rw [d2])
    (by simpa [(cmdDone_busOnly _ _).par, p1] using Ne.symm h1)
  have f2 : (frameDone .rowCmd .rowDat s.par.cmds.paset (be16 y0 ++ be16 y1) a).pan =
      { a.pan with ys := y0, ye := y1, cmd := s.par.cmds.paset, np := 4, hb := none, mode := .none } ∧
      (frameDone .rowCmd .rowDat s.par.cmds.paset (be16 y0 ++ be16 y1) a).devu = false := by
    obtain ⟨e1, e2, _⟩ := dataDone_panel (be16 y0 ++ be16 y1) ((cmdDone s.par.cmds.paset (a.setSt .rowCmd)).setSt .rowDat)
    exact ⟨by show (dataDone _ _).pan = _; rw [e1, b2.1, d2], by show (dataDone _ _).devu = _; rw [e2, b2.2]⟩
  have p2 := ((frameDone_dpOnly .rowCmd .rowDat s.par.cmds.paset (be16 y0 ++ be16 y1) a).par).trans p1
  rw [cmdDone_pan ram (s := (frameDone .rowCmd .rowDat s.par.cmds.paset (be16 y0 ++ be16 y1) a).setSt .ramCmd) f2.2]
  simp only [State.setSt_pan, State.setSt_par, f2.1, f1.1, p2]
  rcases hr with ⟨rfl, rfl⟩ | ⟨rfl, rfl⟩
  · simp [panelOnCmd, windowedPanel]
  · simp [panelOnCmd, windowedPanel, Ne.symm h10]

/-- DEVU set before a window stays set. -/
theorem windowDone_devu_set (hd : s.devu = true) : (windowDone ram mode x0 y0 x1 y1 s).devu = true := by
  simp only [windowDone, windowRegs_devu, cmdDone_devu, State.setSt_devu, frameDone]
  refine dataDone_devu _ _ ?_
  simp only [cmdDone_devu, State.setSt_devu]
  refine dataDone_devu _ _ ?_
  simpa using hd

end

/-! ### The operations of unit DP -/

/-- SETWIN and SETWINRD with bounds that fit. -/
theorem execSetwin_quiet {x0 y0 x1 y1 : Int} {s : State} (h : Quiet s) (hb : boundsOk x0 y0 x1 y1 = true) :
    exec (.setwin x0 y0 x1 y1) s = .next ((windowDone s.par.cmds.ramwr .write (boundField x0) (boundField y0)
      (boundField x1) (boundField y1) (setDevuIf (windowDevu s x0 y0 x1 y1) s)).setResult .nothing) := by
  have hd := setDevuIf_dpOnly (windowDevu s x0 y0 x1 y1) s
  simp only [exec, execSetwin, opSetwin, hb, if_true, dpSetwin]
  rw [(sendWindow_quiet .write _ _ _ _ (hd.quiet h)).1, hd.par]
  rfl

theorem execSetwinrd_quiet {x0 y0 x1 y1 : Int} {s : State} (h : Quiet s) (hb : boundsOk x0 y0 x1 y1 = true) :
    exec (.setwinrd x0 y0 x1 y1) s = .next ((windowDone s.par.cmds.ramrd .read (boundField x0) (boundField y0)
      (boundField x1) (boundField y1) (setDevuIf (windowDevu s x0 y0 x1 y1) s)).setResult .nothing) := by
  have hd := setDevuIf_dpOnly (windowDevu s x0 y0 x1 y1) s
  simp only [exec, execSetwinrd, opSetwinrd, hb, if_true, dpSetwinrd]
  rw [(sendWindow_quiet .read _ _ _ _ (hd.quiet h)).2, hd.par]
  rfl

/-- The state after WRPIX. -/
def wrpixDone (buf : List Byte) (s : State) : State :=
  (dataDone buf ((setDevuIf (streamDevu s .write) s).setSt .tx)).setSt .idle

theorem dpWrpix_quiet (buf : List Byte) {s : State} (h : Quiet s) : dpWrpix buf s = .done (wrpixDone buf s) := by
  have q : Quiet ((setDevuIf (streamDevu s .write) s).setSt .tx) :=
    (setSt_dpOnly .tx _).quiet ((setDevuIf_dpOnly _ s).quiet h)
  simp only [dpWrpix, busData_quiet buf q, Run.andThen_live, wrpixDone]

theorem execWrpix_quiet (buf : List Byte) {s : State} (h : Quiet s) :
    exec (.wrpix buf) s = .next ((wrpixDone buf s).setResult .nothing) := by
  simp only [exec, execWrpix, opWrpix, dpWrpix_quiet buf h, Run.andThen_live]
  rfl

/-- The bytes and the state after RDPIX. -/
def rdpixDone (n : Nat) (s : State) : List Byte × State :=
  ((readDone (2 * n) ((setDevuIf (streamDevu s .read) s).setSt .rx)).1,
    (readDone (2 * n) ((setDevuIf (streamDevu s .read) s).setSt .rx)).2.setSt .idle)

theorem execRdpix_quiet (n : Nat) {s : State} (h : Quiet s) :
    exec (.rdpix n) s = .next ((rdpixDone n s).2.setResult (.bytes (rdpixDone n s).1)) := by
  have q : Quiet ((setDevuIf (streamDevu s .read) s).setSt .rx) :=
    (setSt_dpOnly .rx _).quiet ((setDevuIf_dpOnly _ s).quiet h)
  simp only [exec, execRdpix, opRdpix, dpRdpix, busRead_quiet (2 * n) q, Run.bind_live, rdpixDone]
  rfl

theorem wrpixDone_dpOnly (buf : List Byte) (s : State) : DpOnly s (wrpixDone buf s) :=
  (((setDevuIf_dpOnly _ s).trans (setSt_dpOnly .tx _)).trans (dataDone_busOnly buf _).dpOnly).trans
    (setSt_dpOnly .idle _)

theorem rdpixDone_dpOnly (n : Nat) (s : State) : DpOnly s (rdpixDone n s).2 :=
  (((setDevuIf_dpOnly _ s).trans (setSt_dpOnly .rx _)).trans (readDone_busOnly _ _).dpOnly).trans
    (setSt_dpOnly .idle _)

theorem wrpixDone_flat (buf : List Byte) (s : State) : (wrpixDone buf s).flat = s.flat ++ buf.map Event.dat := by
  simp [wrpixDone, dataDone_flat]

theorem wrpixDone_dp (buf : List Byte) (s : State) : (wrpixDone buf s).dp = { s.dp with st := .idle } := by
  simp [wrpixDone, (dataDone_busOnly buf _).dp, (setDevuIf_panelOnly _ s).dp]

theorem wrpixDone_pins (buf : List Byte) (s : State) : (wrpixDone buf s).pins = pinsAfterData s buf.length := by
  simp [wrpixDone, pinsAfterData, pinsAfter, (setDevuIf_panelOnly _ s).pins, (setDevuIf_panelOnly _ s).par]

/-- A stream sent into the mode it belongs to reaches the panel as its bytes. -/
theorem wrpixDone_panel (buf : List Byte) {s : State} (h : streamDevu s .write = false) :
    (wrpixDone buf s).pan = (sentData buf s).pan ∧ (wrpixDone buf s).devu = (sentData buf s).devu ∧
      (wrpixDone buf s).draws = (sentData buf s).draws := by
  simp only [wrpixDone, h, setDevuIf_false]
  obtain ⟨e1, e2, e3⟩ := dataDone_panel buf (s.setSt .tx)
  obtain ⟨f1, f2, f3⟩ := sentData_outside buf s { s.dp with st := .tx } s.pins s.out
  exact ⟨e1.trans f1, e2.trans f2, e3.trans f3⟩

theorem rdpixDone_flat (n : Nat) (s : State) : (rdpixDone n s).1.length = 2 * n ∧
    (rdpixDone n s).2.flat = s.flat ++ (rdpixDone n s).1.map Event.rd := by
  obtain ⟨h1, h2⟩ := readDone_flat (2 * n) ((setDevuIf (streamDevu s .read) s).setSt .rx)
  exact ⟨h1, by simp [rdpixDone, h2]⟩

theorem rdpixDone_dp (n : Nat) (s : State) : (rdpixDone n s).2.dp = { s.dp with st := .idle } := by
  simp [rdpixDone, (readDone_busOnly _ _).dp, (setDevuIf_panelOnly _ s).dp]

theorem rdpixDone_pins (n : Nat) (s : State) : (rdpixDone n s).2.pins = pinsAfterData s (2 * n) := by
  simp [rdpixDone, pinsAfterData, pinsAfter, (setDevuIf_panelOnly _ s).pins, (setDevuIf_panelOnly _ s).par]


end Sys2Proof.Machine
end

