-- ==== Sys2Proof/Laws/Paint.lean ====
section
/-! SUPPORT. What the reference panel's pixel stream does, said once: a WRITE stream paints the next cells of the window
row by row, a READ stream returns them (20_memory.md R71, R73, R82, R83). -/

namespace Sys2Proof.Machine

/-- The memory after the whole pixels of a byte stream landed, row by row, in the cells of a window w wide at (x0,y0), from
pixel k of the window on. -/
def paint (x0 y0 w k : Nat) (m : Memory) (bytes : List Byte) : Memory :=
  match bytes with
  | h :: l :: r => paint x0 y0 w (k + 1) (m.writePixel (x0 + k % w) (y0 + k / w) (h ++ l)) r
  | _ => m

/-- The byte that is pending after a stream. -/
def pending (bytes : List Byte) : Option Byte := if bytes.length % 2 = 1 then bytes.getLast? else none

theorem pending_cons_cons (h l : Byte) (r : List Byte) : pending (h :: l :: r) = pending r := by
  unfold pending
  have e : (h :: l :: r).length % 2 = r.length % 2 := by simp only [List.length_cons]; omega
  rw [e]
  split
  · cases r with
    | nil => simp at *
    | cons a t => simp [List.getLast?_cons_cons]
  · rfl

/-- The window and the command of a WRITE stream that can go on. -/
structure Writing (s : State) : Prop where
  defined : s.devu = false
  cmd     : s.pan.cmd = s.par.cmds.ramwr
  mode    : s.pan.mode = .write
  col     : s.par.cmds.ramwr ≠ s.par.cmds.caset
  row     : s.par.cmds.ramwr ≠ s.par.cmds.paset
  valid   : panWindowValid s = true

theorem Writing.panelData {s : State} (hw : Writing s) (d : Byte) :
    panelData d s = match s.pan.hb with
      | none => { s with pan := { s.pan with hb := some d } }
      | some h => panelPixel (h ++ d) s := by
  unfold Machine.panelData
  refine (if_neg (by simp [hw.defined])).trans ((if_neg (by rw [hw.cmd]; exact hw.col)).trans
    ((if_neg (by rw [hw.cmd]; exact hw.row)).trans ((if_pos hw.mode).trans ?_)))
  cases s.pan.hb <;> rfl

/-- The painting law: if the pixels fit in what is left of the window they land there, and otherwise DEVU is set. -/
theorem sentData_paint (bs : List Byte) {s : State} (hw : Writing s) :
    let bytes := s.pan.hb.toList ++ bs
    let n := bytes.length / 2
    (n = 0 ∨ s.pan.ptr + n ≤ s.pan.winW * s.pan.winH →
      (sentData bs s).devu = false ∧
      (sentData bs s).pan =
        { s.pan with
          ptr := s.pan.ptr + n, hb := pending bytes,
          gram := paint s.pan.xs.toNat s.pan.ys.toNat s.pan.winW s.pan.ptr s.pan.gram bytes }) ∧
    (0 < n ∧ s.pan.winW * s.pan.winH < s.pan.ptr + n → (sentData bs s).devu = true) := by
  induction bs generalizing s with
  | nil =>
    have hp := hw.defined
    rcases h : s.pan.hb with _ | b
    · simp only [Option.toList_none, List.append_nil, List.length_nil, Nat.zero_div, sentData]
      refine ⟨fun _ => ⟨hp, ?_⟩, fun hh => absurd hh.1 (by decide)⟩
      simp [pending, paint, ← h]
    · simp only [Option.toList_some, List.append_nil, List.length_singleton, sentData]
      refine ⟨fun _ => ⟨hp, ?_⟩, fun hh => absurd hh.1 (by decide)⟩
      simp [pending, paint, ← h]
  | cons d r ih =>
    have hw' : Writing (s.emit (.dat d)) := ⟨hw.defined, hw.cmd, hw.mode, hw.col, hw.row, hw.valid⟩
    have hd := hw'.panelData d
    rcases h : s.pan.hb with _ | b
    · have e : panelData d (s.emit (.dat d)) =
          { s.emit (.dat d) with pan := { s.pan with hb := some d } } := by rw [hd]; simp [h]
      have hw2 : Writing { s.emit (.dat d) with pan := { s.pan with hb := some d } } :=
        ⟨hw.defined, hw.cmd, hw.mode, hw.col, hw.row, hw.valid⟩
      have := ih hw2
      simp only [sentData, e]
      simpa [Panel.winW, Panel.winH] using this
    · have e : panelData d (s.emit (.dat d)) = panelPixel (b ++ d) (s.emit (.dat d)) := by rw [hd]; simp [h]
      simp only [sentData, e, Option.toList_some, List.singleton_append, List.length_cons,
        show (r.length + 1 + 1) / 2 = r.length / 2 + 1 by omega]
      by_cases hk : streamOk (s.emit (.dat d)) = true
      · have hlt : s.pan.ptr < s.pan.winW * s.pan.winH := by
          unfold streamOk at hk
          rw [show panWindowValid (s.emit (.dat d)) = true from hw.valid, Bool.true_and] at hk
          exact of_decide_eq_true hk
        have e2 : panelPixel (b ++ d) (s.emit (.dat d)) = { s.emit (.dat d) with pan := { s.pan with
            hb := none, gram := s.pan.gram.writePixel s.pan.cellX s.pan.cellY (b ++ d), ptr := s.pan.ptr + 1 } } := by
          unfold panelPixel; rw [if_pos hk]; rfl
        have hw2 : Writing { s.emit (.dat d) with pan := { s.pan with
            hb := none, gram := s.pan.gram.writePixel s.pan.cellX s.pan.cellY (b ++ d), ptr := s.pan.ptr + 1 } } :=
          ⟨hw.defined, hw.cmd, hw.mode, hw.col, hw.row, hw.valid⟩
        obtain ⟨h1, h2⟩ := ih hw2
        simp only [Option.toList_none, List.nil_append, Panel.winW, Panel.winH] at h1 h2 hlt
        rw [e2]
        simp only [Panel.winW, Panel.winH]
        constructor
        · intro hh
          obtain ⟨a1, a2⟩ := h1 (by omega)
          refine ⟨a1, a2.trans ?_⟩
          rw [pending_cons_cons]
          have e3 : s.pan.ptr + 1 + r.length / 2 = s.pan.ptr + (r.length / 2 + 1) := by omega
          simp only [paint, Panel.mk.injEq, e3, true_and]
          rfl
        · intro hh; exact h2 (by omega)
      · have hle : s.pan.winW * s.pan.winH ≤ s.pan.ptr := by
          by_contra hc
          refine hk ?_
          unfold streamOk
          rw [show panWindowValid (s.emit (.dat d)) = true from hw.valid, Bool.true_and]
          exact decide_eq_true (not_le.1 hc)
        have e2 : panelPixel (b ++ d) (s.emit (.dat d)) = setDevu (s.emit (.dat d)) := by
          unfold panelPixel; rw [if_neg hk]
        rw [e2]
        refine ⟨fun hh => absurd hh (by omega), fun _ => sentData_devu r _ rfl⟩

/-! ### What paint leaves where -/

/-- A byte outside the painted cells is as it was. -/
theorem read_paint_outside (x0 y0 w : Nat) (bytes : List Byte) (k : Nat) (m : Memory) (a : Nat)
    (h : ∀ j, j < bytes.length / 2 →
      a ≠ pixelAddr (x0 + (k + j) % w) (y0 + (k + j) / w) ∧ a ≠ pixelAddr (x0 + (k + j) % w) (y0 + (k + j) / w) + 1) :
    (paint x0 y0 w k m bytes).read a = m.read a := by
  match bytes with
  | [] => rfl
  | [_] => rfl
  | b :: c :: r =>
    simp only [List.length_cons, show (r.length + 1 + 1) / 2 = r.length / 2 + 1 by omega] at h
    simp only [paint]
    rw [read_paint_outside x0 y0 w r (k + 1) _ a fun j hj => by
      have := h (j + 1) (by omega)
      rwa [show k + (j + 1) = k + 1 + j by omega] at this]
    have h0 := h 0 (by omega)
    simp only [Nat.add_zero] at h0
    simp [Memory.writePixel, Memory.read_write, h0.1, h0.2]

/-- Two pixels of a window at most 65536 wide lie in different cells. -/
theorem window_cell_inj {x0 y0 w i j : Nat} (hw : 0 < w) (hx : x0 + w ≤ 65536) (h : i ≠ j) :
    pixelAddr (x0 + i % w) (y0 + i / w) ≠ pixelAddr (x0 + j % w) (y0 + j / w) := by
  intro e
  have hi := Nat.mod_lt i hw
  have hj := Nat.mod_lt j hw
  obtain ⟨e1, e2⟩ := pixelAddr_inj (by omega) (by omega) e
  have a := Nat.div_add_mod i w
  have b := Nat.div_add_mod j w
  rw [show i / w = j / w by omega, show i % w = j % w by omega] at a
  exact h (a.symm.trans b)

theorem pixelAddr_even_ne (x y x' y' : Nat) : pixelAddr x y ≠ pixelAddr x' y' + 1 := by unfold pixelAddr; omega

/-- Each painted cell holds its pixel. -/
theorem readPixel_paint {x0 y0 w : Nat} (hw : 0 < w) (hx : x0 + w ≤ 65536) (bytes : List Byte) (k : Nat) (m : Memory)
    (j : Nat) (hj : j < bytes.length / 2) :
    (paint x0 y0 w k m bytes).readPixel (x0 + (k + j) % w) (y0 + (k + j) / w) = some (bufferPixel bytes j) := by
  match bytes, j with
  | [], _ => simp at hj
  | [_], _ => simp at hj
  | b :: c :: r, 0 =>
    simp only [paint, Nat.add_zero]
    have o := fun a h => read_paint_outside x0 y0 w r (k + 1) (m.writePixel (x0 + k % w) (y0 + k / w) (b ++ c)) a h
    have ne : ∀ j, pixelAddr (x0 + k % w) (y0 + k / w) ≠ pixelAddr (x0 + (k + 1 + j) % w) (y0 + (k + 1 + j) / w) :=
      fun j => window_cell_inj hw hx (by omega)
    unfold Memory.readPixel
    rw [o _ fun j _ => ⟨ne j, pixelAddr_even_ne _ _ _ _⟩,
      o _ fun j _ => ⟨(pixelAddr_even_ne _ _ _ _).symm, fun e => ne j (Nat.succ.inj e)⟩]
    have := Memory.readPixel_writePixel m (x := x0 + k % w) (y := y0 + k / w) (x' := x0 + k % w) (y' := y0 + k / w)
      (b ++ c) (by have := Nat.mod_lt k hw; omega) (by have := Nat.mod_lt k hw; omega)
    unfold Memory.readPixel at this
    simpa [bufferPixel, half] using this
  | b :: c :: r, j + 1 =>
    simp only [List.length_cons] at hj
    have := readPixel_paint (y0 := y0) hw hx r (k + 1) (m.writePixel (x0 + k % w) (y0 + k / w) (b ++ c)) j (by omega)
    rw [show k + 1 + j = k + (j + 1) by omega] at this
    simpa [paint, bufferPixel, show 2 * (j + 1) = 2 * j + 1 + 1 by omega] using this

/-! ### The READ stream -/

/-- A READ stream at the start of a pixel. -/
structure Reading (s : State) : Prop where
  defined : s.devu = false
  mode    : s.pan.mode = .read
  valid   : panWindowValid s = true
  start   : s.pan.hb = none

/-- One pixel of the stream: two bytes, and the stream moves on. -/
theorem panelRead_pixel {s : State} (hr : Reading s) (hlt : s.pan.ptr < s.pan.winW * s.pan.winH) (o : List Event) :
    let a := panelRead s
    let b := panelRead { a.2 with out := o }
    b.2.devu = false ∧ b.2.pan = { s.pan with ptr := s.pan.ptr + 1 } ∧
      ∀ p, s.pan.gram.readPixel s.pan.cellX s.pan.cellY = some p → half a.1 b.1 = p := by
  have ok : s.pan.mode = .read && streamOk s := by
    unfold streamOk; rw [hr.mode, hr.valid, decide_eq_true hlt]; rfl
  rcases hp : s.pan.gram.readPixel s.pan.cellX s.pan.cellY with _ | p
  · have e : panelRead s = ((drawByte s).1, { (drawByte (drawByte s).2).2 with
        pan := { s.pan with hb := some (drawByte (drawByte s).2).1 } }) := by
      unfold panelRead
      rw [if_neg (by simp [hr.defined]), if_pos ok, hr.start]
      simp only [hp]
    simp only [e]
    unfold panelRead
    rw [if_neg (by simp [drawByte, hr.defined])]
    rw [if_pos (by exact ok)]
    simp only []
    refine ⟨by simp [drawByte, hr.defined], ?_, fun q hq => by cases hq⟩
    rw [← hr.start]
  · have e : panelRead s = (p.extractLsb' 8 8, { s with pan := { s.pan with hb := some (p.extractLsb' 0 8) } }) := by
      unfold panelRead
      rw [if_neg (by simp [hr.defined]), if_pos ok, hr.start]
      simp only [hp]
    simp only [e]
    unfold panelRead
    rw [if_neg (by simp [hr.defined])]
    rw [if_pos (by exact ok)]
    simp only []
    refine ⟨hr.defined, ?_, fun q hq => ?_⟩
    · rw [← hr.start]
    · cases hq; exact half_bytes p

/-- The reading law: within the window the stream returns the pixels it passes, past it DEVU is set. -/
theorem received_read (n : Nat) (got : List Byte) {s : State} (hr : Reading s) :
    (n = 0 ∨ s.pan.ptr + n ≤ s.pan.winW * s.pan.winH →
      (received (2 * n) got s).2.devu = false ∧
      (received (2 * n) got s).2.pan = { s.pan with ptr := s.pan.ptr + n } ∧
      ∃ r, (received (2 * n) got s).1 = got.reverse ++ r ∧ r.length = 2 * n ∧
        ∀ k p, k < n → s.pan.gram.readPixel (s.pan.xs.toNat + (s.pan.ptr + k) % s.pan.winW)
          (s.pan.ys.toNat + (s.pan.ptr + k) / s.pan.winW) = some p → bufferPixel r k = p) ∧
    (0 < n ∧ s.pan.winW * s.pan.winH < s.pan.ptr + n → (received (2 * n) got s).2.devu = true) := by
  induction n generalizing got s with
  | zero =>
    refine ⟨fun _ => ⟨hr.defined, rfl, [], by simp [received], rfl, fun k p hk => by omega⟩, fun h => by omega⟩
  | succ n ih =>
    rw [show 2 * (n + 1) = 2 * n + 1 + 1 by omega]
    simp only [received]
    by_cases hlt : s.pan.ptr < s.pan.winW * s.pan.winH
    · have hpx := panelRead_pixel hr hlt (.rd (panelRead s).1 :: (panelRead s).2.out)
      simp only [State.emit] at hpx ⊢
      generalize hb : panelRead { (panelRead s).2 with out := .rd (panelRead s).1 :: (panelRead s).2.out } = b at hpx
      obtain ⟨h1, h2, h3⟩ := hpx
      have hpo : b.2.cfgWidth = s.cfgWidth ∧ b.2.cfgHeight = s.cfgHeight := by
        have k1 := panelRead_panelOnly s
        have k2 := panelRead_panelOnly { (panelRead s).2 with out := .rd (panelRead s).1 :: (panelRead s).2.out }
        rw [hb] at k2
        exact ⟨k2.cfgWidth.trans k1.cfgWidth, k2.cfgHeight.trans k1.cfgHeight⟩
      have hr2 : Reading { b.2 with out := .rd b.1 :: b.2.out } := by
        refine ⟨h1, by simp [h2, hr.mode], ?_, by simp [h2, hr.start]⟩
        have := hr.valid
        simp only [panWindowValid, State.width, State.height] at this ⊢
        simpa [h2, hpo.1, hpo.2] using this
      obtain ⟨i1, i2⟩ := ih (b.1 :: (panelRead s).1 :: got) hr2
      simp only [h2, Panel.winW, Panel.winH] at i1 i2 hlt ⊢
      constructor
      · intro hh
        obtain ⟨j1, j2, r, j3, j4, j5⟩ := i1 (by omega)
        refine ⟨j1, ?_, (panelRead s).1 :: b.1 :: r, ?_, by simp [j4], ?_⟩
        · rw [j2]; simp only [Panel.mk.injEq, true_and, and_true]; omega
        · rw [j3]; simp
        · intro k p hk hp
          cases k with
          | zero => exact h3 p (by simpa [Panel.cellX, Panel.cellY, Panel.winW] using hp)
          | succ k =>
            have := j5 k p (by omega) (by rw [show s.pan.ptr + 1 + k = s.pan.ptr + (k + 1) by omega]; exact hp)
            simpa [bufferPixel, show 2 * (k + 1) = 2 * k + 1 + 1 by omega] using this
      · intro hh; exact i2 (by omega)
    · refine ⟨fun hh => by omega, fun _ => ?_⟩
      have no : (s.pan.mode = .read && streamOk s) = false := by
        unfold streamOk; rw [decide_eq_false hlt]; simp
      have hd : (panelRead s).2.devu = true := by
        unfold panelRead
        rw [if_neg (by simp [hr.defined]), if_neg (by simp [no])]; rfl
      exact received_devu _ _ _ (panelRead_devu _ hd)

end Sys2Proof.Machine
end

