-- ==== Sys2Proof/Laws/Graphics.lean ====
section
/-! SUPPORT. Unit GS's shared operations, said once while no bus fault is injected: a blit (a window and a stream), what
it paints, a colour streamed in chunks, the text cache, and the pixels of a buffer. -/

namespace Sys2Proof.Machine

/-! ### A window and its pixels -/

theorem distinct_ram {c : CmdBytes} (h : c.Distinct) : c.ramwr ≠ c.caset ∧ c.ramwr ≠ c.paset := by
  simp only [CmdBytes.Distinct, CmdBytes.all, List.nodup_cons, List.mem_cons, List.not_mem_nil, or_false,
    not_or] at h
  exact ⟨Ne.symm h.1.2.1, Ne.symm h.2.1.1⟩

theorem Ready.streamDevu {s : State} (hr : Ready s) {m : StreamMode} (hm : s.dp.mode = m) :
    streamDevu s m = false := by
  simp [Machine.streamDevu, hm, hr.inited]

/-- The state after SETWIN with bounds that fit, before its result. -/
def setwinDone (x0 y0 x1 y1 : Int) (s : State) : State :=
  windowDone s.par.cmds.ramwr .write (boundField x0) (boundField y0) (boundField x1) (boundField y1)
    (setDevuIf (windowDevu s x0 y0 x1 y1) s)

theorem dpSetwin_quiet (x0 y0 x1 y1 : Int) {s : State} (hq : Quiet s) :
    dpSetwin x0 y0 x1 y1 s = .done (setwinDone x0 y0 x1 y1 s) := by
  have hd := setDevuIf_dpOnly (windowDevu s x0 y0 x1 y1) s
  rw [dpSetwin, (sendWindow_quiet .write _ _ _ _ (hd.quiet hq)).1, hd.par]; rfl

section
variable (x0 y0 x1 y1 : Int) (s : State)

theorem setwinDone_dpOnly : DpOnly s (setwinDone x0 y0 x1 y1 s) :=
  (setDevuIf_dpOnly _ s).trans (windowDone_dpOnly _ _ _ _ _ _ _)

theorem setwinDone_flat : (setwinDone x0 y0 x1 y1 s).flat = s.flat ++ setwinTrace s x0 y0 x1 y1 := by
  rw [setwinDone, windowDone_flat, flat_setDevuIf, (setDevuIf_panelOnly _ s).par]; rfl

theorem setwinDone_dp : (setwinDone x0 y0 x1 y1 s).dp = windowedDp s x0 y0 x1 y1 .write := by
  rw [setwinDone, windowDone_dp, (setDevuIf_panelOnly _ s).dp]; rfl

theorem setwinDone_pins : (setwinDone x0 y0 x1 y1 s).pins = pinsAfter s s.par.dcCmd := by
  simp [setwinDone, windowDone_pins, pinsAfter, (setDevuIf_panelOnly _ s).par, (setDevuIf_panelOnly _ s).pins]

theorem setwinDone_devu : (setwinDone x0 y0 x1 y1 s).devu = (s.devu || windowDevu s x0 y0 x1 y1) := by
  cases h : (s.devu || windowDevu s x0 y0 x1 y1)
  · exact (windowDone_devu _ _ _ _ _ _ _ (by rw [setDevuIf_devu]; exact h)).1
  · exact windowDone_devu_set _ _ _ _ _ _ _ (by rw [setDevuIf_devu]; exact h)

end

/-- After SETWIN of a valid window the panel's WRITE stream stands at its first cell. -/
theorem setwinDone_writing {x0 y0 x1 y1 : Int} {s : State} (hr : Ready s)
    (hv : winValid s.width s.height x0 y0 x1 y1 = true) :
    Ready (setwinDone x0 y0 x1 y1 s) ∧ Writing (setwinDone x0 y0 x1 y1 s) ∧
      (setwinDone x0 y0 x1 y1 s).pan =
        windowedPanel s.pan (boundField x0) (boundField y0) (boundField x1) (boundField y1) .write
          s.par.cmds.ramwr := by
  have e0 : windowDevu s x0 y0 x1 y1 = false := by simp [windowDevu, hv, hr.inited]
  have hd := setwinDone_dpOnly x0 y0 x1 y1 s
  have hv' := winValid_iff.1 hv
  have hs := surface_lt s
  have hpan : (setwinDone x0 y0 x1 y1 s).pan = windowedPanel s.pan (boundField x0) (boundField y0) (boundField x1)
      (boundField y1) .write s.par.cmds.ramwr := by
    rw [setwinDone, e0]
    exact windowDone_pan _ .write (boundField x0) (boundField y0) (boundField x1) (boundField y1) s hr.defined
      hr.distinct (Or.inl ⟨rfl, rfl⟩)
  have hdv : (setwinDone x0 y0 x1 y1 s).devu = false := by rw [setwinDone_devu, hr.defined, e0]; rfl
  have rt : Ready (setwinDone x0 y0 x1 y1 s) :=
    ⟨hd.quiet hr.quiet, hdv, by rw [setwinDone_dp]; exact hr.inited, by rw [hd.par]; exact hr.distinct⟩
  have hr := distinct_ram hr.distinct
  refine ⟨rt, ⟨hdv, by rw [hpan, hd.par]; rfl, by rw [hpan]; rfl, by rw [hd.par]; exact hr.1,
    by rw [hd.par]; exact hr.2, ?_⟩, hpan⟩
  unfold panWindowValid
  rw [hpan]
  simp only [windowedPanel, State.width, State.height, hd.cfgWidth, hd.cfgHeight]
  rw [boundField_toNat (by omega) (by omega), boundField_toNat (by omega) (by omega),
    boundField_toNat (by omega) (by omega), boundField_toNat (by omega) (by omega)]
  exact hv

/-- A stream of exactly the pixels of a window, sent to the state SETWIN left. -/
theorem window_paint {s : State} {x0 y0 x1 y1 : Int} (buf : List Byte) (hr : Ready s)
    (hv : winValid s.width s.height x0 y0 x1 y1 = true)
    (hl : (buf.length : Int) = 2 * (x1 - x0 + 1) * (y1 - y0 + 1)) :
    let w := (x1 - x0 + 1).toNat
    let h := (y1 - y0 + 1).toNat
    let u := sentData buf (setwinDone x0 y0 x1 y1 s)
    u.devu = false ∧ Shows x0.toNat y0.toNat w h buf u ∧ SameOutside x0.toNat y0.toNat w h s u := by
  intro w h u
  have hv' := winValid_iff.1 hv
  have hs := surface_lt s
  obtain ⟨rt, hw, hpan⟩ := setwinDone_writing hr hv
  have f1 := boundField_toNat (v := x0) (by omega) (by omega)
  have f2 := boundField_toNat (v := y0) (by omega) (by omega)
  have f3 := boundField_toNat (v := x1) (by omega) (by omega)
  have f4 := boundField_toNat (v := y1) (by omega) (by omega)
  obtain ⟨a, _⟩ := sentData_paint buf hw
  have hgram : (setwinDone x0 y0 x1 y1 s).pan.gram = s.pan.gram := by rw [hpan]; rfl
  have ww : (setwinDone x0 y0 x1 y1 s).pan.winW = w := by rw [hpan]; simp only [Panel.winW, windowedPanel]; omega
  have wh : (setwinDone x0 y0 x1 y1 s).pan.winH = h := by rw [hpan]; simp only [Panel.winH, windowedPanel]; omega
  have hhb : (setwinDone x0 y0 x1 y1 s).pan.hb = none := by rw [hpan]; rfl
  have hpt : (setwinDone x0 y0 x1 y1 s).pan.ptr = 0 := by rw [hpan]; rfl
  have hln : buf.length = 2 * (w * h) := by
    have : (w : Int) = x1 - x0 + 1 := by omega
    have : (h : Int) = y1 - y0 + 1 := by omega
    zify; rw [hl]; simp [*]; ring
  simp only [hhb, Option.toList_none, List.nil_append, hpt, ww, wh, Nat.zero_add] at a
  obtain ⟨a1, a2⟩ := a (Or.inr (by omega))
  have hgr : u.pan.gram = paint x0.toNat y0.toNat w 0 s.pan.gram buf := by
    show (sentData buf _).pan.gram = _
    rw [a2]
    simp only [hgram]
    congr 1
    · rw [hpan]; simp only [windowedPanel]; omega
    · rw [hpan]; simp only [windowedPanel]; omega
  have w0 : 0 < w := by omega
  refine ⟨a1, ?_, ?_⟩
  · intro i j hi hj
    rw [hgr]
    have hk : j * w + i < buf.length / 2 := by
      rw [hln]
      have : j * w + i < w * h := by
        calc j * w + i < j * w + w := by omega
          _ = (j + 1) * w := by ring
          _ ≤ h * w := Nat.mul_le_mul_right _ hj
          _ = w * h := by ring
      omega
    have := readPixel_paint (y0 := y0.toNat) w0 (show x0.toNat + w ≤ 65536 by omega) buf 0 s.pan.gram (j * w + i) hk
    rw [Nat.zero_add] at this
    have d1 : (j * w + i) % w = i := by rw [Nat.add_comm, Nat.add_mul_mod_self_right, Nat.mod_eq_of_lt hi]
    have d2 : (j * w + i) / w = j := by
      rw [mul_comm, Nat.mul_add_div w0, Nat.div_eq_of_lt hi, Nat.add_zero]
    rwa [d1, d2] at this
  · intro z hz
    rw [hgr]
    refine read_paint_outside _ _ _ buf 0 s.pan.gram z fun j hj => ?_
    rw [hln] at hj
    rw [Nat.zero_add]
    have hd : j / w < h := (Nat.div_lt_iff_lt_mul w0).2 (by rw [mul_comm]; omega)
    exact ⟨fun e => hz ⟨j % w, j / w, Nat.mod_lt _ w0, hd, Or.inl e⟩,
      fun e => hz ⟨j % w, j / w, Nat.mod_lt _ w0, hd, Or.inr e⟩⟩

/-- Likewise for a rectangle inside the surface. -/
theorem rectangle_paint {s : State} {x y w h : Int} (hi : inSurface s.width s.height x y w h = true) (buf : List Byte)
    (hr : Ready s) (hl : (buf.length : Int) = 2 * w * h) :
    let u := sentData buf (setwinDone x y (x + w - 1) (y + h - 1) s)
    u.devu = false ∧ Shows x.toNat y.toNat w.toNat h.toNat buf u ∧
      SameOutside x.toNat y.toNat w.toNat h.toNat s u := by
  have e1 : x + w - 1 - x + 1 = w := by ring
  have e2 : y + h - 1 - y + 1 = h := by ring
  have := window_paint buf hr (inSurface_window hi).1 (by rw [e1, e2]; exact hl)
  rwa [e1, e2] at this

/-! ### WRPIX and RDPIX on the panel -/

/-- States that agree in every field are equal. -/
theorem state_ext {s t : State} (h1 : s.dp = t.dp) (h2 : s.pins = t.pins) (h3 : s.pan = t.pan) (h4 : s.devu = t.devu)
    (h5 : s.draws = t.draws) (h6 : s.fault = t.fault) (h7 : s.gs = t.gs) (h8 : s.ie = t.ie) (h9 : s.fs = t.fs)
    (h10 : s.handlers = t.handlers) (h11 : s.cfgWidth = t.cfgWidth) (h12 : s.cfgHeight = t.cfgHeight)
    (h13 : s.par = t.par) (h14 : s.env = t.env) (h15 : s.ctl = t.ctl) (h16 : s.out = t.out) : s = t := by
  cases s; cases t; subst h1 h2 h3 h4 h5 h6 h7 h8 h9 h10 h11 h12 h13 h14 h15 h16; rfl

/-- A stream sent in its own mode: the state is that of the bytes, but for unit DP's registers, the pins and the
trace. -/
theorem wrpixDone_eq (buf : List Byte) {s : State} (h : streamDevu s .write = false) :
    wrpixDone buf s = { sentData buf s with
      dp := (wrpixDone buf s).dp, pins := (wrpixDone buf s).pins, out := (wrpixDone buf s).out } := by
  obtain ⟨e1, e2, e3⟩ := wrpixDone_panel buf h
  have a := wrpixDone_dpOnly buf s
  have b := sentData_keeps buf s
  refine state_ext ?_ ?_ e1 e2 e3 (a.fault.trans b.fault.symm) (a.gs.trans b.gs.symm) (a.ie.trans b.ie.symm)
    (a.fs.trans b.fs.symm) (a.handlers.trans b.handlers.symm) (a.cfgWidth.trans b.cfgWidth.symm)
    (a.cfgHeight.trans b.cfgHeight.symm) (a.par.trans b.par.symm) (a.env.trans b.env.symm) (a.ctl.trans b.ctl.symm) ?_ <;>
  rfl

/-- RDPIX from the start of a pixel of a READ stream. -/
theorem rdpixDone_read (n : Nat) {s : State} (h : streamDevu s .read = false) (hr : Reading s) :
    (n = 0 ∨ s.pan.ptr + n ≤ s.pan.winW * s.pan.winH → (rdpixDone n s).2.devu = false ∧
      (rdpixDone n s).2.pan = { s.pan with ptr := s.pan.ptr + n } ∧
      ∀ k p, k < n → s.pan.gram.readPixel (s.pan.xs.toNat + (s.pan.ptr + k) % s.pan.winW)
        (s.pan.ys.toNat + (s.pan.ptr + k) / s.pan.winW) = some p → bufferPixel (rdpixDone n s).1 k = p) ∧
    (0 < n ∧ s.pan.winW * s.pan.winH < s.pan.ptr + n → (rdpixDone n s).2.devu = true) := by
  unfold rdpixDone
  rw [h, setDevuIf_false]
  cases n with
  | zero => exact ⟨fun _ => ⟨hr.defined, rfl, fun k p hk => by omega⟩, fun hk => by omega⟩
  | succ n =>
    have hr2 : Reading (openTx s.par.dcData (s.setSt .rx)) := ⟨hr.defined, hr.mode, hr.valid, hr.start⟩
    obtain ⟨a, b⟩ := received_read (n + 1) [] hr2
    have e : readDone (2 * (n + 1)) (s.setSt .rx) =
        ((received (2 * (n + 1)) [] (openTx s.par.dcData (s.setSt .rx))).1,
          closeTx (received (2 * (n + 1)) [] (openTx s.par.dcData (s.setSt .rx))).2) := rfl
    rw [e]
    refine ⟨fun hk => ?_, fun hk => b hk⟩
    obtain ⟨a1, a2, r, a3, a4, a5⟩ := a hk
    refine ⟨a1, a2, ?_⟩
    simp only [a3]
    exact a5

/-! ### A blit -/

/-- A window and a stream with bounds that fit. -/
theorem opBlit_quiet {s : State} {x y x1 y1 : Int} (buf : List Byte) (hq : Quiet s)
    (hb : boundsOk x y x1 y1 = true) :
    (opBlit x y x1 y1 buf s).outcome =
      .next ((wrpixDone buf (setwinDone x y x1 y1 s)).setResult .nothing) := by
  have hw := setwinDone_dpOnly x y x1 y1 s
  simp only [opBlit, hb, if_true, gsBlit]
  rw [dpSetwin_quiet _ _ _ _ hq, Run.andThen_live, dpWrpix_quiet buf (hw.quiet hq)]
  rfl

/-- What it leaves. -/
theorem blit_facts {s : State} {x y x1 y1 : Int} (buf : List Byte) :
    let t := (wrpixDone buf (setwinDone x y x1 y1 s)).setResult .nothing
    t.flat = s.flat ++ setwinTrace s x y x1 y1 ++ buf.map Event.dat ∧ t.dp = windowedDp s x y x1 y1 .write ∧
      t.pins = pinsAfterBlit s buf.length ∧ t.gs = s.gs ∧ SameBeyondBus s t ∧
      (windowDevu s x y x1 y1 = true → t.devu = true) := by
  intro t
  have h := (setwinDone_dpOnly x y x1 y1 s).trans (wrpixDone_dpOnly buf _)
  refine ⟨?_, ?_, ?_, h.gs, h.sameBeyondBus _, fun hw => ?_⟩
  · show State.flat (State.setResult _ _) = _
    rw [flat_setResult, wrpixDone_flat, setwinDone_flat]
  · show (wrpixDone _ _).dp = _
    rw [wrpixDone_dp, setwinDone_dp]; rfl
  · show (wrpixDone _ _).pins = _
    rw [wrpixDone_pins]
    cases buf <;> simp [pinsAfterBlit, pinsAfterData, pinsAfter, setwinDone_pins, (setwinDone_dpOnly _ _ _ _ s).par]
  · refine dataDone_devu _ _ ?_
    simp only [State.setSt_devu, setDevuIf_devu, setwinDone_devu, hw, Bool.or_true, Bool.true_or]

/-- What it paints inside the surface. -/
theorem blit_paint {s : State} {x y w h : Int} (hi : inSurface s.width s.height x y w h = true) (buf : List Byte)
    (hr : Ready s) (hl : (buf.length : Int) = 2 * w * h) :
    let t := (wrpixDone buf (setwinDone x y (x + w - 1) (y + h - 1) s)).setResult .nothing
    t.devu = false ∧ Shows x.toNat y.toNat w.toNat h.toNat buf t ∧
      SameOutside x.toNat y.toNat w.toNat h.toNat s t := by
  have rt := (setwinDone_writing hr (inSurface_window hi).1).1
  have hm : (setwinDone x y (x + w - 1) (y + h - 1) s).dp.mode = .write := by rw [setwinDone_dp]; rfl
  obtain ⟨e1, e2, _⟩ := wrpixDone_panel buf (rt.streamDevu hm)
  have := rectangle_paint hi buf hr hl
  simp only [Shows, SameOutside, State.setResult_pan, State.setResult_devu, e1, e2] at this ⊢
  exact this

/-! ### A colour streamed in chunks (41_graphics_surface.md R178) -/

theorem repeatColor_add (m n : Nat) (color : Half) :
    repeatColor (m + n) color = repeatColor m color ++ repeatColor n color := by
  unfold repeatColor; rw [List.replicate_add, List.flatten_append]

theorem length_repeatColor (n : Nat) (color : Half) : (repeatColor n color).length = 2 * n := by
  simp [repeatColor, be16]; ring

theorem bufferPixel_repeatColor (n k : Nat) (color : Half) (h : k < n) :
    bufferPixel (repeatColor n color) k = color := by
  induction n generalizing k with
  | zero => omega
  | succ n ih =>
    rw [show n + 1 = 1 + n by omega, repeatColor_add]
    cases k with
    | zero => simp [bufferPixel, repeatColor, be16, half, half_bytes]
    | succ k =>
      have := ih k (by omega)
      simpa [bufferPixel, repeatColor, be16, show 2 * (k + 1) = 2 * k + 1 + 1 by omega] using this

/-- Whatever the chunk, the bytes on the bus and what the panel makes of them are those of one stream. -/
theorem streamRep_quiet (fuel : Nat) {k : Nat} (hk : 1 ≤ k) (left : Nat) (color : Half) {s : State} (hf : left ≤ fuel)
    (hq : Quiet s) : ∃ t, streamRep fuel k left color s = .done t ∧ DpOnly s t ∧
      t.flat = s.flat ++ (repeatColor left color).map Event.dat ∧
      t.dp = (if left = 0 then s.dp else { s.dp with st := .idle }) ∧ t.pins = pinsAfterData s (2 * left) ∧
      (s.devu = true → t.devu = true) ∧
      (streamDevu s .write = false →
        t.pan = (sentData (repeatColor left color) s).pan ∧ t.devu = (sentData (repeatColor left color) s).devu) := by
  induction fuel generalizing left s with
  | zero =>
    obtain rfl : left = 0 := by omega
    exact ⟨s, rfl, DpOnly.refl s, by simp [repeatColor], rfl, rfl, id, fun _ => ⟨rfl, rfl⟩⟩
  | succ fuel ih =>
    by_cases h0 : left = 0
    · subst h0
      exact ⟨s, by simp [streamRep], DpOnly.refl s, by simp [repeatColor], rfl, rfl, id, fun _ => ⟨rfl, rfl⟩⟩
    · have hm : 1 ≤ min k left := by omega
      have hw := wrpixDone_dpOnly (repeatColor (min k left) color) s
      obtain ⟨t, t1, t2, t3, t4, t5, t6, t7⟩ := ih (left - min k left)
        (s := wrpixDone (repeatColor (min k left) color) s) (by omega) (hw.quiet hq)
      have split : repeatColor left color =
          repeatColor (min k left) color ++ repeatColor (left - min k left) color := by
        rw [← repeatColor_add]; congr 1; omega
      refine ⟨t, ?_, hw.trans t2, ?_, ?_, ?_, ?_, ?_⟩
      · rw [streamRep, if_neg h0, dpWrpix_quiet _ hq, Run.andThen_live]; exact t1
      · rw [t3, wrpixDone_flat, split]; simp
      · rw [t4, wrpixDone_dp, if_neg h0]; split <;> rfl
      · rw [t5]
        have e : 2 * left ≠ 0 := by omega
        simp only [pinsAfterData, wrpixDone_pins, length_repeatColor, pinsAfter, hw.par,
          show 2 * min k left ≠ 0 by omega, e, if_false]
        split <;> rfl
      · intro hd
        refine t6 (dataDone_devu _ _ ?_)
        simp [hd]
      · intro hd
        have hd2 : streamDevu (wrpixDone (repeatColor (min k left) color) s) .write = false := by
          simpa [streamDevu, wrpixDone_dp] using hd
        obtain ⟨p1, p2⟩ := t7 hd2
        rw [wrpixDone_eq _ hd] at p1 p2
        obtain ⟨q1, q2, _⟩ := sentData_outside (repeatColor (left - min k left) color)
          (sentData (repeatColor (min k left) color) s) (wrpixDone (repeatColor (min k left) color) s).dp
          (wrpixDone (repeatColor (min k left) color) s).pins (wrpixDone (repeatColor (min k left) color) s).out
        rw [split, sentData_append]
        exact ⟨p1.trans q1, p2.trans q2⟩

/-! ### The text cache -/

/-- An entry that is found is in the list. -/
theorem lookup_mem {α β : Type} [BEq α] [LawfulBEq α] (l : List (α × β)) (k : α) (v : β)
    (h : l.lookup k = some v) : (k, v) ∈ l := by
  induction l with
  | nil => cases h
  | cons a r ih =>
    obtain ⟨k', v'⟩ := a
    simp only [List.lookup] at h
    split at h
    · rename_i hk
      simp at hk; cases h; subst hk; simp
    · exact List.mem_cons_of_mem _ (ih h)

/-- With a sound cache the sprite is the rendered one, hit or miss (R196). -/
theorem cacheGetOrBuild_sprite (key : TextKey) {s : State} (h : TextCacheOk s) :
    (cacheGetOrBuild key s).1 = renderKey s.par.font key := by
  unfold cacheGetOrBuild
  split
  · rename_i spr hl
    exact (h.1 _ (lookup_mem _ _ _ hl)).1
  · dsimp only; split <;> rfl

/-- Nothing but the text cache changes. -/
theorem cacheGetOrBuild_state (key : TextKey) (s : State) :
    (cacheGetOrBuild key s).2 =
      { s with gs := { s.gs with tcache := (cacheGetOrBuild key s).2.gs.tcache } } := by
  unfold cacheGetOrBuild
  split
  · rfl
  · dsimp only; split <;> rfl

/-! ### Pixels of a buffer -/

/-- Two buffers of whole pixels are equal if their pixels are. -/
theorem buffer_ext (a b : List Byte) (n : Nat) (ha : a.length = 2 * n) (hb : b.length = 2 * n)
    (h : ∀ k, k < n → bufferPixel a k = bufferPixel b k) : a = b := by
  induction n generalizing a b with
  | zero => rw [List.eq_nil_of_length_eq_zero ha, List.eq_nil_of_length_eq_zero hb]
  | succ n ih =>
    match a, b with
    | a1 :: a2 :: ar, b1 :: b2 :: br =>
      simp at ha hb
      have h0 := h 0 (by omega)
      simp [bufferPixel, half] at h0
      have e1 : a1 = b1 := by rw [← half_hi a1 a2, h0, half_hi]
      have e2 : a2 = b2 := by rw [← half_lo a1 a2, h0, half_lo]
      rw [e1, e2, ih ar br (by omega) (by omega) fun k hk => by
        have := h (k + 1) (by omega)
        simpa [bufferPixel, show 2 * (k + 1) = 2 * k + 1 + 1 by omega] using this]
    | [], _ => simp at ha
    | [_], _ => simp at ha; omega
    | _, [] => simp at hb
    | _, [_] => simp at hb; omega

end Sys2Proof.Machine
end

