-- ==== Sys2Proof/Laws/PerInstr.lean ====
section
/-! SUPPORT. The families of statements made per instruction, one lemma per constructor. -/

namespace Sys2Proof.Laws

/-! ### EncodedLength: the encoder writes as many bytes as the format has (30_encoding.md R93, R107) -/

/-- The encoding's length is the one its format gives. -/
def EncodedLength.Statement (i : Instr) : Prop := i.WellFormed → (encode i).length = i.bytes

theorem EncodedLength.reset : EncodedLength.Statement .reset :=
  fun _ => rfl

theorem EncodedLength.init : EncodedLength.Statement .init :=
  fun _ => rfl

theorem EncodedLength.setwin (x0 y0 x1 y1 : Int) : EncodedLength.Statement (.setwin x0 y0 x1 y1) :=
  fun _ => rfl

theorem EncodedLength.setwinrd (x0 y0 x1 y1 : Int) : EncodedLength.Statement (.setwinrd x0 y0 x1 y1) :=
  fun _ => rfl

theorem EncodedLength.wrpix (buf : List Byte) : EncodedLength.Statement (.wrpix buf) := by
  intro _
  show List.length (0x05 :: (len32 buf.length ++ buf)) = 1 + 4 + buf.length
  simp; omega

theorem EncodedLength.rdpix (n : Nat) : EncodedLength.Statement (.rdpix n) :=
  fun _ => rfl

theorem EncodedLength.clear (color : Half) : EncodedLength.Statement (.clear color) :=
  fun _ => rfl

theorem EncodedLength.fillrect (x y w h : Int) (color : Half) :
    EncodedLength.Statement (.fillrect x y w h color) :=
  fun _ => rfl

theorem EncodedLength.safefillrect (x y w h : Int) (color : Half) :
    EncodedLength.Statement (.safefillrect x y w h color) :=
  fun _ => rfl

theorem EncodedLength.drawimage (x y w h : Int) (buf : List Byte) :
    EncodedLength.Statement (.drawimage x y w h buf) := by
  intro _
  show List.length (0x13 :: (field16 x ++ field16 y ++ field16 w ++ field16 h ++ len32 buf.length ++ buf)) = 1 + 4 * 2 + 4 + buf.length
  simp; omega

theorem EncodedLength.textsize (text : List Byte) (scale : Int) : EncodedLength.Statement (.textsize text scale) := by
  intro _
  show List.length (0x14 :: (field16 scale ++ len16 text.length ++ text)) = 1 + 2 * 2 + text.length
  simp; omega

theorem EncodedLength.drawtext (x y : Int) (text : List Byte) (color : Half) (background : Option Half) (scale : Int) :
    EncodedLength.Statement (.drawtext x y text color background scale) := by
  intro _
  show List.length (0x15 :: (field16 x ++ field16 y ++ be16 color ++ encodeBackground background ++ field16 scale ++
    len16 text.length ++ text)) = 1 + 3 * 2 + 1 + 3 * 2 + text.length
  simp; omega

theorem EncodedLength.rendertext (text : List Byte) (color : Half) (background : Option Half) (scale : Int) :
    EncodedLength.Statement (.rendertext text color background scale) := by
  intro _
  show List.length (0x16 :: (be16 color ++ encodeBackground background ++ field16 scale ++ len16 text.length ++ text)) = 1 + 2 + 1 + 3 * 2 + text.length
  simp; omega

theorem EncodedLength.clearcaches : EncodedLength.Statement .clearcaches :=
  fun _ => rfl

theorem EncodedLength.loadsprite (name : List Byte) (w h : Int) : EncodedLength.Statement (.loadsprite name w h) := by
  intro _
  show List.length (0x18 :: (field16 w ++ field16 h ++ len16 name.length ++ name)) = 1 + 3 * 2 + name.length
  simp; omega

theorem EncodedLength.run : EncodedLength.Statement .run :=
  fun _ => rfl

theorem EncodedLength.stop : EncodedLength.Statement .stop :=
  fun _ => rfl

theorem EncodedLength.tickstart : EncodedLength.Statement .tickstart :=
  fun _ => rfl

theorem EncodedLength.sample : EncodedLength.Statement .sample :=
  fun _ => rfl

theorem EncodedLength.edge : EncodedLength.Statement .edge :=
  fun _ => rfl

theorem EncodedLength.dispatch : EncodedLength.Statement .dispatch :=
  fun _ => rfl

theorem EncodedLength.gesture : EncodedLength.Statement .gesture :=
  fun _ => rfl

theorem EncodedLength.update : EncodedLength.Statement .update :=
  fun _ => rfl

theorem EncodedLength.draw : EncodedLength.Statement .draw :=
  fun _ => rfl

theorem EncodedLength.pace : EncodedLength.Statement .pace :=
  fun _ => rfl

theorem EncodedLength.busCaset (x0 x1 : Half) : EncodedLength.Statement (.busCaset x0 x1) :=
  fun _ => rfl

theorem EncodedLength.busPaset (y0 y1 : Half) : EncodedLength.Statement (.busPaset y0 y1) :=
  fun _ => rfl

theorem EncodedLength.busRamwr : EncodedLength.Statement .busRamwr :=
  fun _ => rfl

theorem EncodedLength.busRamrd : EncodedLength.Statement .busRamrd :=
  fun _ => rfl

theorem EncodedLength.busSlpout : EncodedLength.Statement .busSlpout :=
  fun _ => rfl

theorem EncodedLength.busDispon : EncodedLength.Statement .busDispon :=
  fun _ => rfl

theorem EncodedLength.busInitEntry (cmd : Byte) (params : List Byte) : EncodedLength.Statement (.busInitEntry cmd params) := by
  intro _
  show List.length (cmd :: params) = 1 + params.length
  simp; omega

end Sys2Proof.Laws
end

