-- ==== Sys2Proof/Laws/Steps.lean ====
section
/-! SUPPORT. What a step can do, said once: every step is a sequence of the small changes below, so an invariant of the
machine is proved by looking at each of them. -/

namespace Sys2Proof.Machine

/-- An event of the bus, framed or flat (30_encoding.md R105). -/
def Event.isBus : Event → Bool
  | .cmd _ | .dat _ | .rd _ | .rst _ | .wait _ | .cs _ | .dc _ => true
  | .provider | .call _ | .answer _ _ | .present | .sleep _ | .ret _ => false

/-- One small change made by an operation of the port. -/
inductive OpSmall : State → State → Prop where
  /-- bus faults and answers of the resource store are used up -/
  | env {s : State} (b : List (Nat × BusFate)) (r : List (Option (List Byte))) (n : Nat) :
      OpSmall s { s with env := { s.env with bus := b, res := r, asked := n } }
  | emit {s : State} (e : Event) (h : e.isBus = true) : OpSmall s (s.emit e)
  | pins {s : State} (p : Pins) : OpSmall s { s with pins := p }
  | panelCmd {s : State} (b : Byte) : OpSmall s (panelCmd b s)
  | panelData {s : State} (d : Byte) : OpSmall s (panelData d s)
  | panelRead {s : State} : OpSmall s (panelRead s).2
  | panelRst {s : State} (l : Bool) : OpSmall s (panelRst l s)
  | setDevu {s : State} : OpSmall s (setDevu s)
  | dp {s : State} (d : DpRegs) : OpSmall s { s with dp := d }
  /-- a text sprite is memoised on a miss (41_graphics_surface.md R192, R200) -/
  | text {s : State} (key : TextKey) (hk : 1 ≤ key.scale) (hl : s.gs.tcache.lookup key = none)
      (hr : hasRoom s.par.cacheCapacity s.gs.tcache.length = true) :
      OpSmall s { s with gs := { s.gs with tcache := s.gs.tcache ++ [(key, renderKey s.par.font key)] } }
  /-- a loaded sprite is memoised on a miss (R206) -/
  | sprite {s : State} (key : SpriteKey) (spr : Sprite) (hl : s.gs.scache.lookup key = none)
      (hr : hasRoom s.par.cacheCapacity s.gs.scache.length = true) :
      OpSmall s { s with gs := { s.gs with scache := s.gs.scache ++ [(key, spr)] } }
  | clear {s : State} : OpSmall s { s with gs := { tcache := [], scache := [] } }
  | result {s : State} (r : Result) : OpSmall s (s.setResult r)
  /-- a transfer stalls (60_exceptions.md R303) -/
  | stall {s : State} : OpSmall s { s with ctl := { s.ctl with blocked := some .bus } }
  /-- STOP (43_frame_scheduler.md R270) -/
  | stop {s : State} : OpSmall s { s with fs := { s.fs with running := false } }
  /-- fault entry (60_exceptions.md R296) -/
  | fault {s : State} (code : BitVec 8) (info : FaultInfo) (hc : code ≠ 0) (hm : code.toNat ≤ 4) :
      OpSmall s (enterFault code info s)

/-- One small change made by a tick phase. -/
inductive PhaseSmall : State → State → Prop where
  | op {s t : State} (h : OpSmall s t) : PhaseSmall s t
  /-- the external agents' answers are used up; the Clock's last answer and the Host's operations stay -/
  | env {s : State} (e : Env) (h : e.now = s.env.now) (hh : e.host = s.env.host) : PhaseSmall s { s with env := e }
  /-- the Clock is read -/
  | clock {s : State} : PhaseSmall s (readClock s).2
  | emit {s : State} (e : Event) : PhaseSmall s (s.emit e)
  /-- unit IE's registers; the threshold stays, and a new candidate is the Clock's last answer -/
  | ie {s : State} (i : IeRegs) (ht : i.thresh = s.ie.thresh)
      (hc : i.cand = s.ie.cand ∨ i.cand = none ∨ i.cand = some s.env.now) : PhaseSmall s { s with ie := i }
  /-- unit FS's registers; the period stays, and a new time is the Clock's last answer -/
  | fs {s : State} (f : FsRegs) (hp : f.period = s.fs.period) (hl : f.last = s.fs.last ∨ f.last = s.env.now)
      (ht : f.tstart = s.fs.tstart ∨ f.tstart = s.env.now) : PhaseSmall s { s with fs := f }
  /-- the Game or the InputProvider never answers (60_exceptions.md R302) -/
  | hang {s : State} (b : Block) : PhaseSmall s { s with ctl := { s.ctl with blocked := some b } }

/-- One small change of a step. -/
inductive Small : State → State → Prop where
  | phase {s t : State} (h : PhaseSmall s t) : Small s t
  /-- the sequencer goes on, or RUN returns -/
  | ctl {s : State} (m : Option Instr) (r : Result) : Small s { s with ctl := { s.ctl with micro := m, result := r } }

/-- Any number of small changes made by operations of the port. -/
abbrev OpSteps : State → State → Prop := Relation.ReflTransGen OpSmall
/-- Any number of small changes made by a tick phase. -/
abbrev PhaseSteps : State → State → Prop := Relation.ReflTransGen PhaseSmall
/-- Any number of small changes. -/
abbrev Steps : State → State → Prop := Relation.ReflTransGen Small

theorem OpSmall.steps {s t : State} (h : OpSmall s t) : OpSteps s t := Relation.ReflTransGen.single h
theorem PhaseSmall.steps {s t : State} (h : PhaseSmall s t) : PhaseSteps s t := Relation.ReflTransGen.single h
theorem Small.steps {s t : State} (h : Small s t) : Steps s t := Relation.ReflTransGen.single h
theorem OpSteps.rfl {s : State} : OpSteps s s := Relation.ReflTransGen.refl
theorem PhaseSteps.rfl {s : State} : PhaseSteps s s := Relation.ReflTransGen.refl
theorem Steps.rfl {s : State} : Steps s s := Relation.ReflTransGen.refl
theorem OpSteps.then {s t u : State} (h : OpSteps s t) (k : OpSmall t u) : OpSteps s u := Relation.ReflTransGen.tail h k
theorem PhaseSteps.then {s t u : State} (h : PhaseSteps s t) (k : PhaseSmall t u) : PhaseSteps s u :=
  Relation.ReflTransGen.tail h k
theorem Steps.then {s t u : State} (h : Steps s t) (k : Small t u) : Steps s u := Relation.ReflTransGen.tail h k
/-- What an operation of the port does, a tick phase may do. -/
theorem OpSteps.phase {s t : State} (h : OpSteps s t) : PhaseSteps s t := by
  induction h with
  | refl => exact PhaseSteps.rfl
  | tail _ k ih => exact ih.then (PhaseSmall.op k)
/-- What a tick phase does, a step may do. -/
theorem PhaseSteps.steps {s t : State} (h : PhaseSteps s t) : Steps s t := by
  induction h with
  | refl => exact Steps.rfl
  | tail _ k ih => exact ih.then (Small.phase k)

/-- The same of the tick phases. -/
theorem PhaseSteps.keeps {P : State → Prop} (hP : ∀ s t, PhaseSmall s t → P s → P t) {s t : State}
    (h : PhaseSteps s t) (hs : P s) : P t := by
  induction h with
  | refl => exact hs
  | tail _ k ih => exact hP _ _ k ih

/-- A property every small change keeps is kept by every sequence of them. -/
theorem Steps.keeps {P : State → Prop} (hP : ∀ s t, Small s t → P s → P t) {s t : State} (h : Steps s t) (hs : P s) :
    P t := by
  induction h with
  | refl => exact hs
  | tail _ k ih => exact hP _ _ k ih

/-- The same of the operations of the port. -/
theorem OpSteps.keeps {P : State → Prop} (hP : ∀ s t, OpSmall s t → P s → P t) {s t : State} (h : OpSteps s t)
    (hs : P s) : P t := by
  induction h with
  | refl => exact hs
  | tail _ k ih => exact hP _ _ k ih

/-! ### Pieces of operations -/

theorem steps_bind {α β : Type} {s : State} {r : Run α} {f : α → State → Run β} (h : OpSteps s r.state)
    (k : ∀ a t, OpSteps t (f a t).state) : OpSteps s (r.bind f).state := by
  cases r with
  | live a t => exact Relation.ReflTransGen.trans h (k a t)
  | dead t => exact h

theorem steps_andThen {α : Type} {s : State} {r : Run Unit} {f : State → Run α} (h : OpSteps s r.state)
    (k : ∀ t, OpSteps t (f t).state) : OpSteps s (r.andThen f).state :=
  steps_bind h fun _ t => k t

theorem steps_setSt (st : DpState) (s : State) : OpSteps s (s.setSt st) := (OpSmall.dp _).steps
theorem steps_setResult (r : Result) (s : State) : OpSteps s (s.setResult r) := (OpSmall.result r).steps
theorem steps_setBus (b : List (Nat × BusFate)) (s : State) : OpSteps s (s.setBus b) :=
  (OpSmall.env (s := s) b s.env.res s.env.asked).steps
theorem steps_finish (r : Result) (s : State) : OpSteps s (finish r s).state := steps_setResult r s

theorem steps_setDevuIf (c : Bool) (s : State) : OpSteps s (setDevuIf c s) := by
  cases c
  · exact OpSteps.rfl
  · exact OpSmall.setDevu.steps

theorem steps_pollIdle (s : State) : OpSteps s (pollIdle s).state := by
  unfold pollIdle
  split
  · exact OpSteps.rfl
  · exact steps_setBus _ s
  · exact (steps_setBus _ s).then (OpSmall.fault _ _ (by decide) (by decide))
  · exact (steps_setBus _ s).then (OpSmall.fault _ _ (by decide) (by decide))
  · exact OpSteps.rfl

theorem steps_pollTransfer (s : State) : OpSteps s (pollTransfer s).state := by
  unfold pollTransfer
  split
  · exact OpSteps.rfl
  · exact steps_setBus _ s
  · exact (steps_setBus _ s).then (OpSmall.fault _ _ (by decide) (by decide))
  · exact (steps_setBus _ s).then (OpSmall.fault _ _ (by decide) (by decide))
  · exact (steps_setBus _ s).then OpSmall.stall

theorem steps_openTx (l : Bool) (s : State) : OpSteps s (openTx l s) :=
  ((OpSmall.pins _).steps.then (OpSmall.emit _ rfl)).then (OpSmall.emit _ rfl)

theorem steps_closeTx (s : State) : OpSteps s (closeTx s) := (OpSmall.pins _).steps.then (OpSmall.emit _ rfl)

theorem steps_sendCmd (b : Byte) (s : State) : OpSteps s (sendCmd b s).state :=
  steps_andThen (steps_pollTransfer s) fun _ => (OpSmall.emit _ rfl).steps.then (OpSmall.panelCmd _)

theorem steps_sendData (bs : List Byte) (s : State) : OpSteps s (sendData bs s).state := by
  induction bs generalizing s with
  | nil => exact OpSteps.rfl
  | cons b r ih =>
    exact steps_andThen (steps_pollTransfer s) fun t =>
      Relation.ReflTransGen.trans ((OpSmall.emit _ rfl).steps.then (OpSmall.panelData _)) (ih _)

theorem steps_recvData (n : Nat) (got : List Byte) (s : State) : OpSteps s (recvData n got s).state := by
  induction n generalizing got s with
  | zero => exact OpSteps.rfl
  | succ n ih =>
    exact steps_andThen (steps_pollTransfer s) fun t =>
      Relation.ReflTransGen.trans (OpSmall.panelRead.steps.then (OpSmall.emit _ rfl)) (ih _ _)

theorem steps_endTx (s : State) : OpSteps s (endTx s).state :=
  steps_andThen (steps_pollTransfer s) steps_closeTx

theorem steps_busCmd (b : Byte) (s : State) : OpSteps s (busCmd b s).state :=
  steps_andThen (steps_pollIdle s) fun t =>
    steps_andThen (Relation.ReflTransGen.trans (steps_openTx _ t) (steps_sendCmd b _)) steps_endTx

theorem steps_busData (bs : List Byte) (s : State) : OpSteps s (busData bs s).state := by
  cases bs with
  | nil => exact OpSteps.rfl
  | cons b r =>
    exact steps_andThen (steps_pollIdle s) fun t =>
      steps_andThen (Relation.ReflTransGen.trans (steps_openTx _ t) (steps_sendData (b :: r) _)) steps_endTx

theorem steps_busRead (n : Nat) (s : State) : OpSteps s (busRead n s).state := by
  cases n with
  | zero => exact OpSteps.rfl
  | succ n =>
    exact steps_andThen (steps_pollIdle s) fun t =>
      steps_bind (Relation.ReflTransGen.trans (steps_openTx _ t) (steps_recvData _ _ _)) fun _ u =>
        steps_andThen (steps_endTx u) fun _ => OpSteps.rfl

theorem steps_rstLine (l : Bool) (s : State) : OpSteps s (rstLine l s).state :=
  steps_andThen (steps_pollIdle s) fun _ => ((OpSmall.pins _).steps.then (OpSmall.emit _ rfl)).then (OpSmall.panelRst _)

theorem steps_busWait (ms : Nat) (s : State) : OpSteps s (busWait ms s).state :=
  steps_andThen (steps_pollIdle s) fun _ => (OpSmall.emit _ rfl).steps

/-! ### Frames and unit DP -/

theorem steps_busCmd_setSt (b : Byte) (st : DpState) (s : State) : OpSteps s (busCmd b (s.setSt st)).state :=
  Relation.ReflTransGen.trans (steps_setSt st s) (steps_busCmd b _)

theorem steps_busData_setSt (bs : List Byte) (st : DpState) (s : State) : OpSteps s (busData bs (s.setSt st)).state :=
  Relation.ReflTransGen.trans (steps_setSt st s) (steps_busData bs _)

theorem steps_frameCaset (x0 x1 : Half) (s : State) : OpSteps s (frameCaset x0 x1 s).state :=
  steps_andThen (steps_busCmd_setSt _ _ s) fun _ => steps_busData_setSt _ _ _
theorem steps_framePaset (y0 y1 : Half) (s : State) : OpSteps s (framePaset y0 y1 s).state :=
  steps_andThen (steps_busCmd_setSt _ _ s) fun _ => steps_busData_setSt _ _ _
theorem steps_frameRamwr (s : State) : OpSteps s (frameRamwr s).state := steps_busCmd_setSt _ _ s
theorem steps_frameRamrd (s : State) : OpSteps s (frameRamrd s).state := steps_busCmd_setSt _ _ s
theorem steps_frameSlpout (s : State) : OpSteps s (frameSlpout s).state := steps_busCmd_setSt _ _ s
theorem steps_frameDispon (s : State) : OpSteps s (frameDispon s).state := steps_busCmd_setSt _ _ s
theorem steps_frameInitEntry (c : Byte) (ps : List Byte) (s : State) : OpSteps s (frameInitEntry c ps s).state :=
  steps_andThen (steps_busCmd_setSt _ _ s) fun _ => steps_busData_setSt _ _ _

theorem steps_frameAlone {s : State} {r : Run Unit} (h : OpSteps s r.state) : OpSteps s (frameAlone r).state :=
  steps_andThen h fun t => (steps_setSt _ t).then (OpSmall.result _)

theorem steps_dpReset (s : State) : OpSteps s (dpReset s).state :=
  steps_andThen (Relation.ReflTransGen.trans (steps_setSt _ s) (steps_rstLine _ _)) fun _ =>
  steps_andThen (steps_busWait _ _) fun t =>
  steps_andThen (Relation.ReflTransGen.trans (steps_setSt _ t) (steps_rstLine _ _)) fun _ =>
  steps_andThen (steps_busWait _ _) fun _ => (OpSmall.dp _).steps

theorem steps_sendEntries (es : List InitEntry) (k : Nat) (s : State) : OpSteps s (sendEntries es k s).state := by
  induction es generalizing k s with
  | nil => exact OpSteps.rfl
  | cons e r ih =>
    exact steps_andThen (Relation.ReflTransGen.trans (OpSmall.dp _).steps (steps_frameInitEntry _ _ _)) fun t => ih _ t

theorem steps_dpInit (s : State) : OpSteps s (dpInit s).state :=
  steps_andThen (Relation.ReflTransGen.trans (steps_setDevuIf _ s) (steps_sendEntries _ _ _)) fun _ =>
  steps_andThen (steps_frameSlpout _) fun _ =>
  steps_andThen (steps_busWait _ _) fun _ =>
  steps_andThen (steps_frameDispon _) fun _ =>
  steps_andThen (steps_busWait _ _) fun _ => (OpSmall.dp _).steps

theorem steps_dpSetwin (x0 y0 x1 y1 : Int) (s : State) : OpSteps s (dpSetwin x0 y0 x1 y1 s).state :=
  steps_andThen (Relation.ReflTransGen.trans (steps_setDevuIf _ s) (steps_frameCaset _ _ _)) fun _ =>
  steps_andThen (steps_framePaset _ _ _) fun _ =>
  steps_andThen (steps_frameRamwr _) fun _ => (OpSmall.dp _).steps

theorem steps_dpSetwinrd (x0 y0 x1 y1 : Int) (s : State) : OpSteps s (dpSetwinrd x0 y0 x1 y1 s).state :=
  steps_andThen (Relation.ReflTransGen.trans (steps_setDevuIf _ s) (steps_frameCaset _ _ _)) fun _ =>
  steps_andThen (steps_framePaset _ _ _) fun _ =>
  steps_andThen (steps_frameRamrd _) fun _ => (OpSmall.dp _).steps

theorem steps_dpWrpix (buf : List Byte) (s : State) : OpSteps s (dpWrpix buf s).state :=
  steps_andThen (Relation.ReflTransGen.trans (steps_setDevuIf _ s) (steps_busData_setSt _ _ _)) fun _ => steps_setSt _ _

theorem steps_dpRdpix (n : Nat) (s : State) : OpSteps s (dpRdpix n s).state :=
  steps_bind (Relation.ReflTransGen.trans (steps_setDevuIf _ s)
    (Relation.ReflTransGen.trans (steps_setSt _ _) (steps_busRead _ _))) fun _ _ => steps_setSt _ _

/-! ### Unit GS -/

theorem steps_streamRep (fuel k left : Nat) (color : Half) (s : State) :
    OpSteps s (streamRep fuel k left color s).state := by
  induction fuel generalizing left s with
  | zero => exact OpSteps.rfl
  | succ n ih =>
    unfold streamRep
    split
    · exact OpSteps.rfl
    · exact steps_andThen (steps_dpWrpix _ s) fun t => ih _ t

theorem steps_gsFillrect (x y w h : Int) (color : Half) (s : State) : OpSteps s (gsFillrect x y w h color s).state := by
  unfold gsFillrect
  split
  · exact steps_andThen (steps_dpSetwin _ _ _ _ s) fun t => steps_streamRep _ _ _ _ t
  · exact OpSteps.rfl

theorem steps_gsSafefillrect (x y w h : Int) (color : Half) (s : State) :
    OpSteps s (gsSafefillrect x y w h color s).state := by
  simp only [gsSafefillrect]
  split
  · exact OpSteps.rfl
  · exact steps_gsFillrect _ _ _ _ _ s

theorem steps_gsBlit (x y x1 y1 : Int) (buf : List Byte) (s : State) : OpSteps s (gsBlit x y x1 y1 buf s).state :=
  steps_andThen (steps_dpSetwin _ _ _ _ s) fun t => steps_dpWrpix _ t

theorem steps_opBlit (x y x1 y1 : Int) (buf : List Byte) (s : State) : OpSteps s (opBlit x y x1 y1 buf s).st := by
  unfold opBlit
  split
  · exact steps_andThen (steps_gsBlit _ _ _ _ _ s) fun t => steps_finish _ t
  · exact OpSteps.rfl

theorem steps_cacheGetOrBuild (key : TextKey) (hk : 1 ≤ key.scale) (s : State) :
    OpSteps s (cacheGetOrBuild key s).2 := by
  unfold cacheGetOrBuild
  split
  · exact OpSteps.rfl
  · rename_i hl
    dsimp only
    split
    · rename_i hr
      exact (OpSmall.text key hk hl hr).steps
    · exact OpSteps.rfl

theorem steps_opDrawtext (x y : Int) (text : List Byte) (color : Half) (bg : Option Half) (scale : Int) (s : State) :
    OpSteps s (opDrawtext x y text color bg scale s).st := by
  simp only [opDrawtext]
  split
  · exact steps_opBlit _ _ _ _ _ s
  · exact Relation.ReflTransGen.trans
      (steps_cacheGetOrBuild _ (by simp only [clampScale]; exact le_max_right _ _) s) (steps_opBlit _ _ _ _ _ _)

theorem steps_readResource (s : State) : OpSteps s (readResource s).2 :=
  (OpSmall.env (s := s) s.env.bus s.env.res.tail (s.env.asked + 1)).steps

theorem steps_gsLoadsprite (key : SpriteKey) (s : State) : OpSteps s (gsLoadsprite key s).state := by
  unfold gsLoadsprite
  split
  · exact OpSteps.rfl
  · rename_i hl
    simp only [loadMiss]
    split
    · exact (steps_readResource s).then (OpSmall.fault _ _ (by decide) (by decide))
    · split
      · rename_i hr
        exact (steps_readResource s).then (OpSmall.sprite key _ hl hr)
      · exact steps_readResource s

/-! ### The operations of the port -/

theorem steps_gameOp (i : Instr) (s : State) : OpSteps s (gameOp i s).st := by
  cases i with
  | reset => exact steps_andThen (steps_dpReset s) fun t => steps_finish _ t
  | init => exact steps_andThen (steps_dpInit s) fun t => steps_finish _ t
  | setwin x0 y0 x1 y1 =>
    simp only [gameOp, opSetwin]
    split
    · exact steps_andThen (steps_dpSetwin _ _ _ _ s) fun t => steps_finish _ t
    · exact OpSteps.rfl
  | setwinrd x0 y0 x1 y1 =>
    simp only [gameOp, opSetwinrd]
    split
    · exact steps_andThen (steps_dpSetwinrd _ _ _ _ s) fun t => steps_finish _ t
    · exact OpSteps.rfl
  | wrpix buf => exact steps_andThen (steps_dpWrpix buf s) fun t => steps_finish _ t
  | rdpix n => exact steps_bind (steps_dpRdpix n s) fun _ t => steps_finish _ t
  | clear color => exact steps_andThen (steps_gsFillrect _ _ _ _ _ s) fun t => steps_finish _ t
  | fillrect x y w h color => exact steps_andThen (steps_gsFillrect _ _ _ _ _ s) fun t => steps_finish _ t
  | safefillrect x y w h color => exact steps_andThen (steps_gsSafefillrect _ _ _ _ _ s) fun t => steps_finish _ t
  | drawimage x y w h buf => exact steps_opBlit _ _ _ _ _ s
  | textsize text scale => exact steps_setResult _ s
  | drawtext x y text color bg scale => exact steps_opDrawtext _ _ _ _ _ _ s
  | rendertext text color bg scale => exact steps_setResult _ s
  | clearcaches => exact OpSmall.clear.steps.then (OpSmall.result _)
  | loadsprite name w h => exact steps_bind (steps_gsLoadsprite _ s) fun _ t => steps_finish _ t
  | stop =>
    exact OpSmall.stop.steps.then (OpSmall.result _)
  | run => exact OpSteps.rfl
  | tickstart => exact OpSteps.rfl
  | sample => exact OpSteps.rfl
  | edge => exact OpSteps.rfl
  | dispatch => exact OpSteps.rfl
  | gesture => exact OpSteps.rfl
  | update => exact OpSteps.rfl
  | draw => exact OpSteps.rfl
  | pace => exact OpSteps.rfl
  | busCaset x0 x1 => exact OpSteps.rfl
  | busPaset y0 y1 => exact OpSteps.rfl
  | busRamwr => exact OpSteps.rfl
  | busRamrd => exact OpSteps.rfl
  | busSlpout => exact OpSteps.rfl
  | busDispon => exact OpSteps.rfl
  | busInitEntry c ps => exact OpSteps.rfl

/-! ### Callbacks -/

theorem opSteps_playThen {s : State} {p : Play} {f : State → Play} (h : OpSteps s p.st) (k : ∀ t, OpSteps t (f t).st) :
    OpSteps s (p.andThen f).st := by
  unfold Play.andThen
  split
  · exact Relation.ReflTransGen.trans h (k _)
  · exact h

theorem steps_gameBytes (bs : List Byte) (s : State) : OpSteps s (gameBytes bs s).st := by
  unfold gameBytes
  split
  · exact steps_gameOp _ s
  · exact OpSteps.rfl

theorem steps_gameOps (ops : List (List Byte)) (s : State) : OpSteps s (gameOps ops s).st := by
  induction ops generalizing s with
  | nil => exact OpSteps.rfl
  | cons bs r ih => exact opSteps_playThen (steps_gameBytes bs s) ih

theorem steps_playThen {s : State} {p : Play} {f : State → Play} (h : PhaseSteps s p.st) (k : ∀ t, PhaseSteps t (f t).st) :
    PhaseSteps s (p.andThen f).st := by
  unfold Play.andThen
  split
  · exact Relation.ReflTransGen.trans h (k _)
  · exact h

theorem steps_setPh (k : BitVec 3) (s : State) : PhaseSteps s (s.setPh k) :=
  (PhaseSmall.fs (s := s) { s.fs with ph := k } rfl (Or.inl rfl) (Or.inl rfl)).steps

theorem steps_closeCallback (c : Callback) (r : Reply) (s : State) : PhaseSteps s (closeCallback c r s).state := by
  cases r with
  | ok b => exact (PhaseSmall.emit _).steps
  | fail => exact (PhaseSmall.emit _).steps.then (PhaseSmall.op (OpSmall.fault _ _ (by decide) (by decide)))
  | never => exact (PhaseSmall.hang _).steps

theorem steps_openCallback (c : Callback) (s : State) : PhaseSteps s (openCallback c s) :=
  (PhaseSmall.env (s := s) { s.env with game := s.env.game.tail, asked := s.env.asked + 1 } rfl rfl).steps.then (PhaseSmall.emit _)

theorem steps_failCallback {s : State} (c : Callback) {p : Play} (h : PhaseSteps s p.st) :
    PhaseSteps s (failCallback c p).st := by
  unfold failCallback
  split
  · exact h
  · exact h.then (PhaseSmall.emit _)

theorem steps_callGame (c : Callback) (s : State) : PhaseSteps s (callGame c s).st :=
  steps_playThen (steps_failCallback c (Relation.ReflTransGen.trans (steps_openCallback c s) (steps_gameOps _ _).phase))
    fun t => steps_closeCallback c _ t

theorem steps_readClock (s : State) : PhaseSteps s (readClock s).2 := PhaseSmall.clock.steps

/-- The Clock's last answer is the one just given. -/
@[simp] theorem readClock_now (s : State) : (readClock s).2.env.now = (readClock s).1 := rfl

theorem steps_sleepFor (ms : Nat) (s : State) : PhaseSteps s (sleepFor ms s) :=
  (PhaseSmall.env (s := s) { s.env with slept := s.env.slept + ms } rfl rfl).steps.then (PhaseSmall.emit _)

theorem steps_callHandlers (ks : List (Fin 6)) (s : State) : PhaseSteps s (callHandlers ks s).st := by
  induction ks generalizing s with
  | nil => exact PhaseSteps.rfl
  | cons k r ih =>
    refine steps_playThen ?_ ih
    split
    · exact steps_callGame _ s
    · exact PhaseSteps.rfl

theorem steps_drawAndPresent (s : State) : PhaseSteps s (drawAndPresent s).st :=
  steps_playThen (steps_callGame _ s) fun _ => (PhaseSmall.emit _).steps

theorem steps_fsDraw (s : State) : PhaseSteps s (fsDraw s).st := by
  simp only [fsDraw]
  refine Relation.ReflTransGen.trans (steps_setPh 6 s) ?_
  split
  · refine steps_playThen (steps_callGame _ _) fun t => ?_
    split
    · exact steps_drawAndPresent t
    · exact PhaseSteps.rfl
  · exact steps_drawAndPresent _

theorem steps_askProvider (s : State) : PhaseSteps s (askProvider s).2 :=
  (PhaseSmall.env (s := s) { s.env with provider := s.env.provider.tail, asked := s.env.asked + 1 } rfl rfl).steps.then
    (PhaseSmall.emit _)

theorem steps_setRaw (v : BitVec 6) (s : State) : PhaseSteps s (setRaw v s) :=
  (PhaseSmall.ie (s := s) { s.ie with raw := v } rfl (Or.inl rfl)).steps
theorem steps_setCand_none (s : State) : PhaseSteps s (setCand none s) :=
  (PhaseSmall.ie (s := s) { s.ie with cand := none } rfl (Or.inr (Or.inl rfl))).steps
theorem steps_setCand_now (s : State) : PhaseSteps s (setCand (some s.env.now) s) :=
  (PhaseSmall.ie (s := s) { s.ie with cand := some s.env.now } rfl (Or.inr (Or.inr rfl))).steps
theorem steps_setSkip (s : State) : PhaseSteps s (setSkip s) :=
  (PhaseSmall.fs (s := s) { s.fs with skip := true } rfl (Or.inl rfl) (Or.inl rfl)).steps

theorem steps_ieSample (s : State) : PhaseSteps s (ieSample s).state := by
  simp only [ieSample]
  refine Relation.ReflTransGen.trans (steps_setPh 1 s) ?_
  split
  · refine Relation.ReflTransGen.trans (steps_askProvider _) ?_
    split
    · exact steps_setRaw _ _
    · exact (PhaseSmall.op (OpSmall.fault _ _ (by decide) (by decide))).steps
    · exact (PhaseSmall.hang _).steps
  · exact steps_setRaw _ _

theorem steps_ieEdge (s : State) : PhaseSteps s (ieEdge s) :=
  Relation.ReflTransGen.trans (steps_setPh 2 s) (PhaseSmall.ie (s := s.setPh 2)
    { s.ie with pressed := pressedBits s.ie.raw s.ie.prev, cur := s.ie.raw, prev := s.ie.raw } rfl (Or.inl rfl)).steps

theorem steps_ieGesture (s : State) : PhaseSteps s (ieGesture s).st := by
  simp only [ieGesture]
  refine Relation.ReflTransGen.trans (steps_setPh 4 s) ?_
  split
  · refine Relation.ReflTransGen.trans (steps_readClock _) ?_
    split
    · refine Relation.ReflTransGen.trans (steps_setCand_none _) ?_
      refine steps_playThen ?_ steps_setSkip
      split
      · exact steps_callGame _ _
      · exact PhaseSteps.rfl
    · exact steps_setCand_now _
  · exact PhaseSteps.rfl

/-! ### exec and step -/

/-- The state of an operation's outcome. -/
theorem outcome_next {p : Play} {t : State} (h : p.outcome = .next t) : p.st = t := by
  unfold Play.outcome at h
  split at h
  · cases h; rfl
  · cases h

theorem steps_ofOutcome {s t : State} (p : Play) (h : p.outcome = .next t) (k : PhaseSteps s p.st) : PhaseSteps s t :=
  outcome_next h ▸ k

/-- RUN's write of FS.LAST, the Clock's last answer, and of FS.PH. -/
theorem steps_setLast (s : State) : PhaseSteps s { s with fs := { s.fs with last := s.env.now, ph := 0 } } :=
  (PhaseSmall.fs (s := s) { s.fs with last := s.env.now, ph := 0 } rfl (Or.inr rfl) (Or.inl rfl)).steps

/-- What exec does, but for RUN, is a sequence of small changes that leave the sequencer. -/
theorem exec_phaseSteps {i : Instr} {s t : State} (hi : i ≠ .run) (h : exec i s = .next t) : PhaseSteps s t := by
  cases i with
  | reset => exact steps_ofOutcome (gameOp .reset s) h (steps_gameOp .reset s).phase
  | init => exact steps_ofOutcome (gameOp .init s) h (steps_gameOp .init s).phase
  | setwin x0 y0 x1 y1 => exact steps_ofOutcome (gameOp (.setwin x0 y0 x1 y1) s) h (steps_gameOp (.setwin x0 y0 x1 y1) s).phase
  | setwinrd x0 y0 x1 y1 => exact steps_ofOutcome (gameOp (.setwinrd x0 y0 x1 y1) s) h (steps_gameOp (.setwinrd x0 y0 x1 y1) s).phase
  | wrpix buf => exact steps_ofOutcome (gameOp (.wrpix buf) s) h (steps_gameOp (.wrpix buf) s).phase
  | rdpix n => exact steps_ofOutcome (gameOp (.rdpix n) s) h (steps_gameOp (.rdpix n) s).phase
  | clear color => exact steps_ofOutcome (gameOp (.clear color) s) h (steps_gameOp (.clear color) s).phase
  | fillrect x y w h' color => exact steps_ofOutcome (gameOp (.fillrect x y w h' color) s) h (steps_gameOp (.fillrect x y w h' color) s).phase
  | safefillrect x y w h' color => exact steps_ofOutcome (gameOp (.safefillrect x y w h' color) s) h (steps_gameOp (.safefillrect x y w h' color) s).phase
  | drawimage x y w h' buf => exact steps_ofOutcome (gameOp (.drawimage x y w h' buf) s) h (steps_gameOp (.drawimage x y w h' buf) s).phase
  | textsize text scale => exact steps_ofOutcome (gameOp (.textsize text scale) s) h (steps_gameOp (.textsize text scale) s).phase
  | drawtext x y text color bg scale => exact steps_ofOutcome (gameOp (.drawtext x y text color bg scale) s) h (steps_gameOp (.drawtext x y text color bg scale) s).phase
  | rendertext text color bg scale => exact steps_ofOutcome (gameOp (.rendertext text color bg scale) s) h (steps_gameOp (.rendertext text color bg scale) s).phase
  | clearcaches => exact steps_ofOutcome (gameOp .clearcaches s) h (steps_gameOp .clearcaches s).phase
  | loadsprite name w h' => exact steps_ofOutcome (gameOp (.loadsprite name w h') s) h (steps_gameOp (.loadsprite name w h') s).phase
  | stop => exact steps_ofOutcome (gameOp .stop s) h (steps_gameOp .stop s).phase
  | run => exact absurd rfl hi
  | tickstart =>
    simp only [exec, execTickstart] at h
    cases h
    refine Relation.ReflTransGen.trans (steps_readClock s) ?_
    exact (PhaseSmall.fs { (readClock s).2.fs with
      tstart := (readClock s).1, dtms := (readClock s).1 - (readClock s).2.fs.last, last := (readClock s).1 }
      rfl (Or.inr rfl) (Or.inr rfl)).steps
  | sample => exact steps_ofOutcome (.ofRun (ieSample s)) h (steps_ieSample s)
  | edge =>
    exact steps_ofOutcome (.done (ieEdge s)) h (steps_ieEdge s)
  | dispatch => exact steps_ofOutcome (callHandlers _ (s.setPh 3)) h (Relation.ReflTransGen.trans (steps_setPh 3 s) (steps_callHandlers _ _))
  | gesture => exact steps_ofOutcome (ieGesture s) h (steps_ieGesture s)
  | update => exact steps_ofOutcome (callGame _ (s.setPh 5)) h (Relation.ReflTransGen.trans (steps_setPh 5 s) (steps_callGame _ _))
  | draw => exact steps_ofOutcome (fsDraw s) h (steps_fsDraw s)
  | pace =>
    simp only [exec, execPace] at h
    refine Relation.ReflTransGen.trans (steps_setPh 7 s) ?_
    split at h
    · cases h
      exact Relation.ReflTransGen.trans (steps_readClock _) (steps_sleepFor _ _)
    · cases h; exact steps_readClock _
  | busCaset x0 x1 =>
    exact steps_ofOutcome (.ofRun (frameAlone (frameCaset x0 x1 s))) h
      (steps_frameAlone (steps_frameCaset x0 x1 s)).phase
  | busPaset y0 y1 =>
    exact steps_ofOutcome (.ofRun (frameAlone (framePaset y0 y1 s))) h
      (steps_frameAlone (steps_framePaset y0 y1 s)).phase
  | busRamwr =>
    exact steps_ofOutcome (.ofRun (frameAlone (frameRamwr s))) h
      (steps_frameAlone (steps_frameRamwr s)).phase
  | busRamrd =>
    exact steps_ofOutcome (.ofRun (frameAlone (frameRamrd s))) h
      (steps_frameAlone (steps_frameRamrd s)).phase
  | busSlpout =>
    exact steps_ofOutcome (.ofRun (frameAlone (frameSlpout s))) h
      (steps_frameAlone (steps_frameSlpout s)).phase
  | busDispon =>
    exact steps_ofOutcome (.ofRun (frameAlone (frameDispon s))) h
      (steps_frameAlone (steps_frameDispon s)).phase
  | busInitEntry c ps =>
    exact steps_ofOutcome (.ofRun (frameAlone (frameInitEntry c ps s))) h
      (steps_frameAlone (steps_frameInitEntry c ps s)).phase

/-- What exec does is a sequence of small changes. -/
theorem exec_steps {i : Instr} {s t : State} (h : exec i s = .next t) : Steps s t := by
  by_cases hi : i = .run
  · subst hi
    simp only [exec, execRun] at h
    cases h
    refine Relation.ReflTransGen.trans
      (PhaseSmall.fs (s := s) { s.fs with running := true, first := true, skip := false } rfl (Or.inl rfl) (Or.inl rfl)).steps.steps
      ?_
    refine Relation.ReflTransGen.trans (steps_readClock _).steps ?_
    refine Relation.ReflTransGen.trans (steps_setLast _).steps ?_
    exact (Small.ctl _ _).steps
  · exact (exec_phaseSteps hi h).steps

theorem mapNext_next {f : State → State} {o : Host.Outcome State Fault Refusal} {t : State}
    (h : mapNext f o = .next t) : ∃ u, o = .next u ∧ f u = t := by
  cases o with
  | next u => exact ⟨u, rfl, by simpa [mapNext] using h⟩
  | fault r => cases h
  | refused r => cases h

theorem steps_returnToHost (s : State) : Steps s (returnToHost s) := (Small.phase (PhaseSmall.emit _)).steps

theorem steps_pollStop (s : State) : PhaseSteps s (pollStop s) :=
  (PhaseSmall.env { s.env with stops := s.env.stops.tail } rfl rfl).steps.then
    (PhaseSmall.fs { s.fs with running := s.fs.running && !(s.env.stops.headD false) } rfl (Or.inl rfl) (Or.inl rfl))

theorem steps_advance (i : Instr) (s : State) : Steps s (advance i s) := by
  unfold advance
  split
  · exact (Small.ctl _ _).steps
  · exact (PhaseSmall.fs (s := s) { s.fs with first := false, skip := false, ph := 0 } rfl (Or.inl rfl)
      (Or.inl rfl)).steps.steps.then (Small.ctl _ _)

theorem steps_afterPhase (i : Instr) (s : State) : Steps s (afterPhase i s) := by
  unfold afterPhase
  split
  · exact Steps.rfl
  split
  · exact steps_returnToHost s
  · exact steps_advance i s

theorem steps_afterPort (s : State) : Steps s (afterPort s) := by
  unfold afterPort
  split
  · exact Steps.rfl
  · exact steps_returnToHost s

/-- THE INVERSION OF STEP: whatever next state it answers is reached by small changes, after the operation has been
taken from the port where the port is read; while an internal operation is next, the port is not read (30_encoding.md
R92). -/
theorem step_steps {s t : State} (h : step s = .next t) :
    Steps s t ∨ ∃ bs r, s.ctl.micro = none ∧ s.env.host = bs :: r ∧ Steps (s.setHost r) t := by
  unfold step at h
  split at h
  · cases h
  split at h
  · left
    split at h
    · unfold stepPhase at h
      split at h
      · cases h
        exact Relation.ReflTransGen.trans (steps_pollStop s).steps
          (Relation.ReflTransGen.trans (Small.ctl _ _).steps (steps_returnToHost _))
      · obtain ⟨u, hu, rfl⟩ := mapNext_next h
        exact Relation.ReflTransGen.trans (steps_pollStop s).steps
          (Relation.ReflTransGen.trans (exec_steps hu) (steps_afterPhase _ u))
    · exact Relation.ReflTransGen.trans (Small.ctl _ _).steps (exec_steps h)
  · rename_i hm
    split at h
    · left; cases h; exact Steps.rfl
    · rename_i bs r hh
      right
      refine ⟨bs, r, hm, hh, ?_⟩
      unfold stepPort at h
      split at h
      · obtain ⟨u, hu, rfl⟩ := mapNext_next h
        exact Relation.ReflTransGen.trans (exec_steps hu) (steps_afterPort u)
      · cases h

/-- A property that every small change keeps, and that does not speak of the port, is kept by every step. -/
theorem step_keeps {P : State → Prop} (hP : ∀ s t, Small s t → P s → P t)
    (hh : ∀ s r, P s → P (s.setHost r)) {s t : State} (h : step s = .next t) (hs : P s) : P t := by
  rcases step_steps h with k | ⟨_, r, _, _, k⟩
  · exact k.keeps hP hs
  · exact k.keeps hP (hh s r hs)

end Sys2Proof.Machine
end

