-- ==== Sys2Proof/Laws/Surface.lean ====
section
/-! SUPPORT. The laws of unit GS that 41_graphics_surface.md R209 lists, and what they rest on: what an operation of
the unit can do, with bus faults injected or not, and which pixel of a raster is where. -/

namespace Sys2Proof.Machine

/-! ### What an operation of unit GS can do -/

/-- Events that read nothing were added; unit IE and unit FS are as they were, unless a fault cleared FS.RUNNING; a
latched fault stays latched. -/
structure DrawsOnly (s t : State) : Prop where
  reads : ReadsNothing s t
  ie    : t.ie = s.ie
  fs    : t.fs = s.fs ∨ (t.fs = { s.fs with running := false } ∧ t.fault.code ≠ 0)
  fault : s.fault.code ≠ 0 → t.fault.code ≠ 0

theorem ReadsNothing.refl (s : State) : ReadsNothing s s := ⟨[], rfl, fun _ h => by cases h⟩

theorem ReadsNothing.trans {s t u : State} (h : ReadsNothing s t) (k : ReadsNothing t u) : ReadsNothing s u := by
  obtain ⟨es, he, hn⟩ := h
  obtain ⟨fs, hf, hm⟩ := k
  exact ⟨fs ++ es, by rw [hf, he, List.append_assoc], fun r hr => (List.mem_append.1 hr).elim (hm r) (hn r)⟩

theorem DrawsOnly.trans {s t u : State} (h : DrawsOnly s t) (k : DrawsOnly t u) : DrawsOnly s u where
  reads := h.reads.trans k.reads
  ie := k.ie.trans h.ie
  fs := by
    rcases h.fs with h1 | ⟨h1, h2⟩ <;> rcases k.fs with k1 | ⟨k1, k2⟩
    · exact .inl (k1.trans h1)
    · exact .inr ⟨by rw [k1, h1], k2⟩
    · exact .inr ⟨k1.trans h1, k.fault h2⟩
    · exact .inr ⟨by rw [k1, h1], k2⟩
  fault := fun hs => k.fault (h.fault hs)

/-- A change that leaves the trace, unit IE, unit FS and FAULT. -/
theorem DrawsOnly.of_eq {s t : State} (ho : t.out = s.out) (hi : t.ie = s.ie) (hf : t.fs = s.fs)
    (hx : t.fault = s.fault) : DrawsOnly s t where
  reads := ⟨[], ho, fun _ h => by cases h⟩
  ie := hi
  fs := .inl hf
  fault := fun hs => by rw [hx]; exact hs

theorem DrawsOnly.refl (s : State) : DrawsOnly s s := .of_eq rfl rfl rfl rfl
theorem PanelOnly.draws {s t : State} (h : PanelOnly s t) : DrawsOnly s t := .of_eq h.out h.ie h.fs h.fault

theorem draws_emit (e : Event) (he : ∀ r, e ≠ .rd r) (s : State) : DrawsOnly s (s.emit e) where
  reads := ⟨[e], rfl, fun r h => he r (List.mem_singleton.1 h).symm⟩
  ie := rfl
  fs := .inl rfl
  fault := id

theorem draws_enterFault (code : BitVec 8) (info : FaultInfo) (hc : code ≠ 0) (s : State) :
    DrawsOnly s (enterFault code info s) := by
  have hx : (enterFault code info s).fault.code ≠ 0 := by
    unfold enterFault
    dsimp only
    split
    · exact hc
    · assumption
  exact { reads := ⟨[], rfl, fun _ h => by cases h⟩, ie := rfl, fs := .inr ⟨rfl, hx⟩, fault := fun _ => hx }

theorem draws_bind {α β : Type} {s : State} {r : Run α} {f : α → State → Run β} (h : DrawsOnly s r.state)
    (k : ∀ a t, DrawsOnly t (f a t).state) : DrawsOnly s (r.bind f).state := by
  cases r with
  | live a t => exact h.trans (k a t)
  | dead t => exact h

theorem draws_andThen {α : Type} {s : State} {r : Run Unit} {f : State → Run α} (h : DrawsOnly s r.state)
    (k : ∀ t, DrawsOnly t (f t).state) : DrawsOnly s (r.andThen f).state := draws_bind h fun _ t => k t

theorem draws_setSt (st : DpState) (s : State) : DrawsOnly s (s.setSt st) := .of_eq rfl rfl rfl rfl
theorem draws_setResult (r : Result) (s : State) : DrawsOnly s (s.setResult r) := .of_eq rfl rfl rfl rfl
theorem draws_setBus (b : List (Nat × BusFate)) (s : State) : DrawsOnly s (s.setBus b) := .of_eq rfl rfl rfl rfl

theorem draws_pollIdle (s : State) : DrawsOnly s (pollIdle s).state := by
  unfold pollIdle
  split
  · exact .refl s
  · exact draws_setBus _ s
  · exact (draws_setBus _ s).trans (draws_enterFault _ _ (by decide) _)
  · exact (draws_setBus _ s).trans (draws_enterFault _ _ (by decide) _)
  · exact .refl s

theorem draws_pollTransfer (s : State) : DrawsOnly s (pollTransfer s).state := by
  unfold pollTransfer
  split
  · exact .refl s
  · exact draws_setBus _ s
  · exact (draws_setBus _ s).trans (draws_enterFault _ _ (by decide) _)
  · exact (draws_setBus _ s).trans (draws_enterFault _ _ (by decide) _)
  · exact .of_eq rfl rfl rfl rfl

theorem draws_openTx (l : Bool) (s : State) : DrawsOnly s (openTx l s) :=
  ((DrawsOnly.of_eq (s := s) (t := { s with pins := { s.pins with dc := l, csN := false } }) rfl rfl rfl rfl).trans
    (draws_emit _ (fun _ h => by cases h) _)).trans (draws_emit _ (fun _ h => by cases h) _)

theorem draws_endTx (s : State) : DrawsOnly s (endTx s).state :=
  draws_andThen (draws_pollTransfer s) fun t =>
    (DrawsOnly.of_eq (s := t) (t := { t with pins := { t.pins with csN := true } }) rfl rfl rfl rfl).trans
      (draws_emit _ (fun _ h => by cases h) _)

theorem draws_sendData (bs : List Byte) (s : State) : DrawsOnly s (sendData bs s).state := by
  induction bs generalizing s with
  | nil => exact .refl s
  | cons b r ih =>
    exact draws_andThen (draws_pollTransfer s) fun t =>
      ((draws_emit (.dat b) (fun _ h => by cases h) t).trans (panelData_panelOnly b _).draws).trans (ih _)

theorem draws_busCmd (b : Byte) (s : State) : DrawsOnly s (busCmd b s).state :=
  draws_andThen (draws_pollIdle s) fun t => draws_andThen
    ((draws_openTx _ t).trans (draws_andThen (draws_pollTransfer _) fun u =>
      (draws_emit (.cmd b) (fun _ h => by cases h) u).trans (panelCmd_panelOnly b _).draws)) draws_endTx

theorem draws_busData (bs : List Byte) (s : State) : DrawsOnly s (busData bs s).state := by
  cases bs with
  | nil => exact .refl s
  | cons b r =>
    exact draws_andThen (draws_pollIdle s) fun t =>
      draws_andThen ((draws_openTx _ t).trans (draws_sendData (b :: r) _)) draws_endTx

/-- An address frame: DP.ST, the command, DP.ST, the bounds. -/
theorem draws_frame (st1 st2 : DpState) (c : Byte) (ps : List Byte) (s : State) :
    DrawsOnly s ((busCmd c (s.setSt st1)).andThen fun s => busData ps (s.setSt st2)).state :=
  draws_andThen ((draws_setSt st1 s).trans (draws_busCmd c _)) fun t => (draws_setSt st2 t).trans (draws_busData ps _)

theorem draws_dpSetwin (x0 y0 x1 y1 : Int) (s : State) : DrawsOnly s (dpSetwin x0 y0 x1 y1 s).state :=
  draws_andThen ((setDevuIf_panelOnly _ s).draws.trans (draws_frame .colCmd .colDat _ _ _)) fun t =>
    draws_andThen (draws_frame .rowCmd .rowDat _ _ t) fun u =>
      draws_andThen ((draws_setSt .ramCmd u).trans (draws_busCmd _ _)) fun _ => .of_eq rfl rfl rfl rfl

theorem draws_dpWrpix (buf : List Byte) (s : State) : DrawsOnly s (dpWrpix buf s).state :=
  draws_andThen (((setDevuIf_panelOnly _ s).draws.trans (draws_setSt .tx _)).trans (draws_busData buf _)) fun t =>
    draws_setSt .idle t

theorem draws_streamRep (fuel k left : Nat) (color : Half) (s : State) :
    DrawsOnly s (streamRep fuel k left color s).state := by
  induction fuel generalizing left s with
  | zero => exact .refl s
  | succ n ih =>
    unfold streamRep
    split
    · exact .refl s
    · exact draws_andThen (draws_dpWrpix _ s) fun t => ih _ t

theorem draws_gsFillrect (x y w h : Int) (color : Half) (s : State) : DrawsOnly s (gsFillrect x y w h color s).state := by
  unfold gsFillrect
  split
  · exact draws_andThen (draws_dpSetwin _ _ _ _ s) fun t => draws_streamRep _ _ _ _ t
  · exact .refl s

theorem draws_gsSafefillrect (x y w h : Int) (color : Half) (s : State) :
    DrawsOnly s (gsSafefillrect x y w h color s).state := by
  simp only [gsSafefillrect]
  split
  · exact .refl s
  · exact draws_gsFillrect _ _ _ _ _ s

theorem draws_opBlit (x y x1 y1 : Int) (buf : List Byte) (s : State) : DrawsOnly s (opBlit x y x1 y1 buf s).st := by
  unfold opBlit
  split
  · exact draws_andThen (draws_andThen (draws_dpSetwin _ _ _ _ s) fun t => draws_dpWrpix _ t) fun t => draws_setResult _ t
  · exact .refl s

theorem draws_opDrawtext (x y : Int) (text : List Byte) (color : Half) (bg : Option Half) (scale : Int) (s : State) :
    DrawsOnly s (opDrawtext x y text color bg scale s).st := by
  simp only [opDrawtext]
  split
  · exact draws_opBlit _ _ _ _ _ s
  · refine DrawsOnly.trans ?_ (draws_opBlit _ _ _ _ _ _)
    rw [cacheGetOrBuild_state]
    exact .of_eq rfl rfl rfl rfl

theorem draws_gsLoadsprite (key : SpriteKey) (s : State) : DrawsOnly s (gsLoadsprite key s).state := by
  unfold gsLoadsprite
  split
  · exact .refl s
  · simp only [loadMiss]
    split
    · exact (DrawsOnly.of_eq (s := s) (t := (readResource s).2) rfl rfl rfl rfl).trans
        (draws_enterFault _ _ (by decide) _)
    · split <;> exact .of_eq rfl rfl rfl rfl

theorem draws_outcome {p : Play} {s t : State} (h : p.outcome = .next t) (k : DrawsOnly s p.st) : DrawsOnly s t := by
  unfold Play.outcome at h
  split at h
  · cases h; exact k
  · cases h

/-- THE LAW: what an operation of unit GS can do, whatever the environment does to the bus (R209 (f), (g)). -/
theorem surface_draws {i : Instr} {s t : State} (hi : i.isSurface = true) (h : exec i s = .next t) : DrawsOnly s t := by
  cases i <;> simp only [Instr.isSurface, Bool.false_eq_true] at hi
  case clear color =>
    exact draws_outcome (p := opClear color s) h
      (draws_andThen (draws_gsFillrect _ _ _ _ _ s) fun t => draws_setResult _ t)
  case fillrect x y w k color =>
    exact draws_outcome (p := opFillrect x y w k color s) h
      (draws_andThen (draws_gsFillrect _ _ _ _ _ s) fun t => draws_setResult _ t)
  case safefillrect x y w k color =>
    exact draws_outcome (p := opSafefillrect x y w k color s) h
      (draws_andThen (draws_gsSafefillrect _ _ _ _ _ s) fun t => draws_setResult _ t)
  case drawimage x y w k buf => exact draws_outcome (p := opDrawimage x y w k buf s) h (draws_opBlit _ _ _ _ _ s)
  case textsize text scale => exact draws_outcome (p := opTextsize text scale s) h (draws_setResult _ s)
  case drawtext x y text color bg scale =>
    exact draws_outcome (p := opDrawtext x y text color bg scale s) h (draws_opDrawtext _ _ _ _ _ _ s)
  case rendertext text color bg scale =>
    exact draws_outcome (p := opRendertext text color bg scale s) h (draws_setResult _ s)
  case clearcaches => exact draws_outcome (p := opClearcaches s) h (.of_eq rfl rfl rfl rfl)
  case loadsprite name w k =>
    exact draws_outcome (p := opLoadsprite name w k s) h
      (draws_bind (draws_gsLoadsprite _ s) fun _ t => draws_setResult _ t)

/-! ### Which pixel of a raster is where -/

/-- Element j of the k-th piece, all pieces n long. -/
theorem getD_flatMap_const {α β : Type} (l : List α) (f : α → List β) (n : Nat) (hn : ∀ a, (f a).length = n) (k j : Nat)
    (a : α) (hk : l[k]? = some a) (hj : j < n) (d : β) : (l.flatMap f).getD (k * n + j) d = (f a).getD j d := by
  induction l generalizing k with
  | nil => cases hk
  | cons b r ih =>
    rw [List.flatMap_cons]
    cases k with
    | zero =>
      simp only [List.getElem?_cons_zero, Option.some.injEq] at hk
      subst hk
      rw [Nat.zero_mul, Nat.zero_add, List.getD_append _ _ _ _ (by rw [hn]; exact hj)]
    | succ k =>
      rw [List.getD_append_right _ _ _ _ (by rw [hn]; nlinarith), hn,
        show (k + 1) * n + j - n = k * n + j by rw [Nat.add_mul]; omega]
      exact ih k hk

/-- Pixel (dx,dy) of a raster is B(dx div s, dy div s) (R195). -/
theorem bufferPixel_rasterBytes (font : List (Byte × BitVec 64)) (text : List Byte) (fg : Half) (bg : Option Half)
    (s dx dy : Nat) (hx : dx < 8 * text.length * s) (hy : dy < 8 * s) :
    bufferPixel (rasterBytes font text fg bg s) (dy * (8 * text.length * s) + dx) =
      basePixel font text fg (backgroundColor bg) (dx / s) (dy / s) := by
  have row : ∀ j, j < 2 → (rasterBytes font text fg bg s).getD (2 * (dy * (8 * text.length * s) + dx) + j) 0 =
      (be16 (basePixel font text fg (backgroundColor bg) (dx / s) (dy / s))).getD j 0 := by
    intro j hj
    have e : 2 * (dy * (8 * text.length * s) + dx) + j = dy * (8 * text.length * s * 2) + (dx * 2 + j) := by ring
    rw [e, rasterBytes, getD_flatMap_const _ _ (8 * text.length * s * 2)
      (fun a => by rw [length_flatMap_const _ _ 2 fun _ => length_be16 _, List.length_range]) dy (dx * 2 + j) dy
      (by rw [List.getElem?_range hy]) (by omega)]
    exact getD_flatMap_const _ _ 2 (fun _ => length_be16 _) dx j dx (by rw [List.getElem?_range hx]) hj _
  unfold bufferPixel
  rw [show 2 * (dy * (8 * text.length * s) + dx) = 2 * (dy * (8 * text.length * s) + dx) + 0 from rfl, row 0 (by omega),
    row 1 (by omega)]
  exact half_be16 _

/-! ### R209 -/

theorem fillrect_outside {s : State} {x y w h : Int} (color : Half) (hi : inSurface s.width s.height x y w h = false) :
    exec (.fillrect x y w h color) s = .next (s.setResult .nothing) := by
  simp [exec, execFillrect, opFillrect, gsFillrect, hi, finish]

/-- What a FILLRECT inside the surface sends while the bus works (R176, R178). -/
theorem fillrect_inside {s : State} {x y w h : Int} (color : Half) (hq : Quiet s)
    (hi : inSurface s.width s.height x y w h = true) : ∃ t, exec (.fillrect x y w h color) s = .next t ∧
      t.flat = s.flat ++ setwinTrace s x y (x + w - 1) (y + h - 1) ++ (repeatColor (w * h).toNat color).map Event.dat := by
  have hd := setwinDone_dpOnly x y (x + w - 1) (y + h - 1) s
  obtain ⟨t, t1, _, t3, _⟩ := streamRep_quiet (w * h).toNat
    (k := chunkPixels (setwinDone x y (x + w - 1) (y + h - 1) s)) (le_max_left _ _) (w * h).toNat color le_rfl (hd.quiet hq)
  refine ⟨t.setResult .nothing, ?_, by rw [flat_setResult, t3, setwinDone_flat]⟩
  simp only [exec, execFillrect, opFillrect, gsFillrect, hi, if_true, lastOf]
  rw [dpSetwin_quiet _ _ _ _ hq, Run.andThen_live, t1]
  rfl

/-- The laws of R209 hold in every state. -/
theorem surfaceLaws (s : State) : SurfaceLaws s where
  fillrect := by
    intro hq x y w h color
    cases hi : inSurface s.width s.height x y w h
    · exact ⟨_, fillrect_outside color hi, .inl (flat_setResult _ _)⟩
    · obtain ⟨t, t1, t2⟩ := fillrect_inside color hq hi
      have hs := inSurface_iff.1 hi
      refine ⟨t, t1, .inr ⟨(inSurface_window hi).1, _, ?_, t2⟩⟩
      rw [length_repeatColor]
      push_cast
      rw [Int.toNat_of_nonneg (Int.mul_pos hs.1 hs.2.1).le]
      ring
  safefillrect := by
    intro x y w h color
    by_cases hh : clipHi x w s.width - clipLo x ≤ 0 ∨ clipHi y h s.height - clipLo y ≤ 0
    · have : gsSafefillrect x y w h color s = .done s := if_pos hh
      exact .inl (by simp [exec, execSafefillrect, opSafefillrect, this, finish])
    · have e : gsSafefillrect x y w h color s = gsFillrect (clipLo x) (clipLo y) (clipHi x w s.width - clipLo x)
          (clipHi y h s.height - clipLo y) color s := if_neg hh
      refine .inr ⟨_, _, _, _, by simp only [exec, execSafefillrect, opSafefillrect, e]; rfl, ?_⟩
      refine (inSurface_window ?_).1
      simp only [clipLo, clipHi] at hh ⊢
      rw [inSurface_iff]
      omega
  clear := by
    intro hq hw hh color
    obtain ⟨t, t1, t2⟩ := fillrect_inside color hq (inSurface_iff.2 (by omega : 0 < s.width ∧ 0 < s.height ∧ (0 : Int) ≤ 0 ∧
      (0 : Int) ≤ 0 ∧ 0 + s.width ≤ s.width ∧ 0 + s.height ≤ s.height))
    exact ⟨t, t1, by simpa using t2⟩
  textsize := by
    intro text text' scale scale' hl hs
    refine ⟨_, _, _, _, rfl, rfl, ?_, ?_, rfl⟩
    · have h1 : clampScale scale ≤ clampScale scale' := max_le_max_right 1 hs
      have h0 := clampScale_pos scale
      have h2 : (text.length : Int) ≤ text'.length := by exact_mod_cast hl
      unfold textWidth
      nlinarith
    · have h1 : clampScale scale ≤ clampScale scale' := max_le_max_right 1 hs
      unfold textHeight
      omega
  rendertext := by
    intro text color bg sc sx sy hc hx hy
    refine ⟨_, _, rfl, rfl, ?_⟩
    have e : (clampScale (sc : Int)).toNat = sc := by unfold clampScale; omega
    have e1 : (clampScale 1).toNat = 1 := rfl
    simp only [renderText, e, e1]
    rw [bufferPixel_rasterBytes _ _ _ _ sc (sc * sx) (sc * sy) (by rw [Nat.mul_comm sc]; exact Nat.mul_lt_mul_of_pos_right hx hc)
      (by rw [Nat.mul_comm sc]; exact Nat.mul_lt_mul_of_pos_right hy hc), Nat.mul_div_cancel_left _ hc,
      Nat.mul_div_cancel_left _ hc]
    have := bufferPixel_rasterBytes s.par.font text color bg 1 sx sy (by omega) (by omega)
    rw [Nat.mul_one, Nat.div_one, Nat.div_one] at this
    exact this.symm
  reads := fun _ _ hi h => (surface_draws hi h).reads
  leaves := fun _ _ hi h => ⟨(surface_draws hi h).ie, (surface_draws hi h).fs⟩

end Sys2Proof.Machine
end

