-- ==== Sys2Proof/Tests/Slice0.lean ====
section
/-! SUPPORT. Tests on small states, with the results 95_test_vectors.md gives; and, for each obligation with hypotheses, a
named witness that meets them. -/

namespace Sys2Proof.Tests

open Sys2Proof Sys2Proof.Machine

set_option Elab.async false

/-! ## A small state: every parameter and every register has a plain value -/

/-- The vectors' parameters: the command bytes' defaults, INIT_SEQ = [(3A,[55])], the test font of V-GS-9. -/
def par : Params :=
  { rstLowMs := 50, rstHighMs := 50, slpoutMs := 120, disponMs := 20
    cmds := Config.cmdBytes
    init := { power := [], vcom := [], memoryAccess := [], pixelFormat := [{ cmd := 0x3A, params := [0x55] }]
              frameRate := [], displayFunction := [], gamma := [] }
    dcCmd := false, dcData := true, chunkBytes := 6
    font := [(0x41, 0x1824427E42424200), (0x49, 0x7E18181818187E00)]
    cacheCapacity := some 1, hasProvider := true }

/-- A panel with nothing in it. -/
def pan : Panel :=
  { xs := 0, xe := 0, ys := 0, ye := 0, mode := .none, ptr := 0, hb := none, cmd := 0, np := 0, cfg := []
    awake := false, on := false, gram := [] }

/-- The vectors' start state: RSTD = INITD = 1, MODE = NONE, DEVU = 0, 240 by 320. -/
def base : State :=
  { dp := { win := { x0 := 0, y0 := 0, x1 := 0, y1 := 0 }, mode := .none, st := .idle, seq := 0, rstd := true
            initd := true }
    pins := { csN := true, dc := false, rstN := true }
    pan := pan, devu := false, draws := 0
    fault := { code := 0, info := .nothing }
    gs := { tcache := [], scache := [] }
    ie := { cur := 0, prev := 0, pressed := 0, cand := none, thresh := 400, raw := 0 }
    fs := { ph := 0, last := 0, period := 33, running := false, first := false, skip := false, tstart := 0, dtms := 0 }
    handlers := 0, cfgWidth := 240, cfgHeight := 320, par := par
    env := Env.empty, ctl := { micro := none, blocked := none, result := .nothing }, out := [] }

/-- The state after one instruction; the state before it if it did not complete. -/
def after (i : Instr) (s : State) : State :=
  match exec i s with
  | .next t => t
  | .fault _ => s
  | .refused _ => s

/-- The refusal of one instruction. -/
def refusalOf (o : Host.Outcome State Fault Refusal) : Option Refusal :=
  match o with
  | .next _ => none
  | .fault _ => none
  | .refused r => some r

/-- Its fault. -/
def faultOf (o : Host.Outcome State Fault Refusal) : Option Fault :=
  match o with
  | .next _ => none
  | .fault r => some r
  | .refused _ => none

/-- A smaller surface. -/
def surface (w h : Half) (s : State) : State := { s with cfgWidth := w, cfgHeight := h }

/-- What the Game does next. -/
def withGame (g : List GameAnswer) (s : State) : State := { s with env := { s.env with game := g } }

/-- A Game that issues nothing. -/
def silent (r : Reply) : GameAnswer := { ops := [], reply := r }

/-- The Clock's next advances. -/
def withClock (now : Nat) (adv : List Nat) (s : State) : State := { s with env := { s.env with now := now, clock := adv } }

/-- The bus faults to come. -/
def withBus (b : List (Nat × BusFate)) (s : State) : State := { s with env := { s.env with bus := b } }

/-- An internal operation is next. -/
def withMicro (i : Instr) (s : State) : State :=
  { s with ctl := { s.ctl with micro := some i }, fs := { s.fs with running := true } }

/-- The Host presents these bytes. -/
def withHost (ops : List (List Byte)) (s : State) : State := { s with env := { s.env with host := ops } }

/-- The resource store's next answers. -/
def withRes (r : List (Option (List Byte))) (s : State) : State := { s with env := { s.env with res := r } }

/-- The events of a state. -/
def datas (bs : List Byte) : List Event := bs.map Event.dat

/-! ## WellFormed refuses an ill-formed term for each of its checks -/

theorem test_wf_setwin_bound : (Instr.setwin 0 0 65536 0).wf = false := by decide
theorem test_wf_setwin_negative : (Instr.setwin (-1) 0 0 0).wf = false := by decide
theorem test_wf_setwinrd_bound : (Instr.setwinrd 0 65536 0 0).wf = false := by decide
theorem test_wf_wrpix_length : inU32 4294967296 = false := by decide
theorem test_wf_rdpix_count : (Instr.rdpix 4294967296).wf = false := by decide
theorem test_wf_fillrect_high : (Instr.fillrect 32768 0 1 1 0).wf = false := by decide
theorem test_wf_fillrect_low : (Instr.fillrect 0 0 (-32769) 1 0).wf = false := by decide
theorem test_wf_safefillrect : (Instr.safefillrect 0 0 1 32768 0).wf = false := by decide
theorem test_wf_drawimage : (Instr.drawimage 0 32768 1 1 []).wf = false := by decide
theorem test_wf_textsize_scale : (Instr.textsize [] 32768).wf = false := by decide
theorem test_wf_text_length : inLen16 65536 = false := by decide
theorem test_wf_drawtext : (Instr.drawtext 0 0 [] 0 none (-32769)).wf = false := by decide
theorem test_wf_rendertext : (Instr.rendertext [] 0 none 32768).wf = false := by decide
theorem test_wf_loadsprite : (Instr.loadsprite [] 0 40000).wf = false := by decide
theorem test_wf_init_entry : (Instr.busInitEntry 0x2C []).wf = false := by decide
theorem test_wf_boundaries : (Instr.setwin 0 65535 0 65535).wf = true ∧ (Instr.fillrect (-32768) 32767 0 0 0).wf = true ∧
    (Instr.rdpix 4294967295).wf = true ∧ (Instr.busInitEntry 0x3A [0x55]).wf = true := by decide

/-! ## Decoding: words written out from 30_encoding.md R91, R93, R107, R112 and from P1 to P3 -/

theorem test_decode_reset : decodePort [0x01] = .ok .reset := by rfl
theorem test_decode_init : decodePort [0x02] = .ok .init := by rfl
theorem test_decode_setwin :
    decodePort [0x03, 0x00, 0x01, 0x01, 0x02, 0x00, 0x03, 0xFF, 0xFF] = .ok (.setwin 1 258 3 65535) := by rfl
theorem test_decode_setwinrd : decodePort [0x04, 0x00, 0x00, 0x00, 0x00, 0x00, 0x01, 0x00, 0x00] =
    .ok (.setwinrd 0 0 1 0) := by rfl
theorem test_decode_wrpix : decodePort [0x05, 0x00, 0x00, 0x00, 0x02, 0xF8, 0x00] = .ok (.wrpix [0xF8, 0x00]) := by rfl
theorem test_decode_rdpix : decodePort [0x06, 0x00, 0x01, 0x00, 0x02] = .ok (.rdpix 65538) := by rfl
theorem test_decode_clear : decodePort [0x10, 0xF8, 0x01] = .ok (.clear 0xF801) := by rfl
theorem test_decode_fillrect : decodePort [0x11, 0x00, 0x01, 0x00, 0x00, 0x00, 0x02, 0x00, 0x01, 0xF8, 0x00] =
    .ok (.fillrect 1 0 2 1 0xF800) := by rfl
theorem test_decode_safefillrect : decodePort [0x12, 0xFF, 0xFB, 0x00, 0x00, 0x00, 0x0A, 0x00, 0x0A, 0x07, 0xE0] =
    .ok (.safefillrect (-5) 0 10 10 0x07E0) := by rfl
theorem test_decode_drawimage :
    decodePort [0x13, 0x00, 0x02, 0x80, 0x00, 0x00, 0x01, 0x00, 0x01, 0x00, 0x00, 0x00, 0x02, 0xFF, 0x1F] =
      .ok (.drawimage 2 (-32768) 1 1 [0xFF, 0x1F]) := by rfl
theorem test_decode_textsize : decodePort [0x14, 0x00, 0x02, 0x00, 0x03, 0x48, 0x49, 0x54] =
    .ok (.textsize [0x48, 0x49, 0x54] 2) := by rfl
theorem test_decode_drawtext :
    decodePort [0x15, 0x00, 0x0C, 0x00, 0x0C, 0xFF, 0xFF, 0x00, 0x00, 0x00, 0x00, 0x02, 0x00, 0x01, 0x41] =
      .ok (.drawtext 12 12 [0x41] 0xFFFF none 2) := by rfl
theorem test_decode_rendertext : decodePort [0x16, 0xF8, 0x00, 0x01, 0x00, 0x1F, 0xFF, 0xFF, 0x00, 0x01, 0x41] =
    .ok (.rendertext [0x41] 0xF800 (some 0x001F) (-1)) := by rfl
theorem test_decode_clearcaches : decodePort [0x17] = .ok .clearcaches := by rfl
theorem test_decode_loadsprite : decodePort [0x18, 0x00, 0x02, 0x00, 0x01, 0x00, 0x03, 0x64, 0x6F, 0x74] =
    .ok (.loadsprite [0x64, 0x6F, 0x74] 2 1) := by rfl
theorem test_decode_run_stop : decodePort [0x20] = .ok .run ∧ decodePort [0x21] = .ok .stop := by exact ⟨rfl, rfl⟩
theorem test_decode_phases : (List.range 8).map (fun k => decodePhase (BitVec.ofNat 3 k)) =
    [.tickstart, .sample, .edge, .dispatch, .gesture, .update, .draw, .pace] := by rfl
theorem test_decode_caset : decodeFrame Config.cmdBytes [0x2A, 0x00, 0x00, 0x00, 0xEF] = .ok (.busCaset 0 239, []) := by
  rfl
theorem test_decode_paset : decodeFrame Config.cmdBytes [0x2B, 0x00, 0x00, 0x01, 0x3F] = .ok (.busPaset 0 319, []) := by
  rfl
theorem test_decode_ram : decodeFrame Config.cmdBytes [0x2C] = .ok (.busRamwr, []) ∧
    decodeFrame Config.cmdBytes [0x2E] = .ok (.busRamrd, []) := by exact ⟨rfl, rfl⟩
theorem test_decode_modes : decodeFrame Config.cmdBytes [0x11] = .ok (.busSlpout, []) ∧
    decodeFrame Config.cmdBytes [0x29] = .ok (.busDispon, []) := by exact ⟨rfl, rfl⟩
theorem test_decode_init_entry : decodeFrame Config.cmdBytes [0x3A, 0x55] = .ok (.busInitEntry 0x3A [0x55], []) := by rfl
theorem test_decode_reserved : decodePort [0x07] = .error (.reservedCode 0x07) ∧
    decodePort [0x11, 0x00] = .error .truncated ∧ decodePort [0x01, 0x00] = .error .trailing ∧
    decodePort [0x16, 0, 0, 2, 0, 0, 0, 1, 0, 0] = .error (.reservedBackground 2) := by exact ⟨rfl, rfl, rfl, rfl⟩

/-! ## Unit DP: V-DP-1 to V-DP-20 -/

theorem test_reset_trace : (after .reset base).flat = [.rst false, .wait 50, .rst true, .wait 50] := by decide +kernel
theorem test_reset_regs : (after .reset base).dp.initd = false ∧ (after .reset base).pins.rstN = true := by decide +kernel
theorem test_init_trace : (after .init base).flat =
    [.cmd 0x3A, .dat 0x55, .cmd 0x11, .wait 120, .cmd 0x29, .wait 20] := by decide +kernel
theorem test_init_without_reset :
    (after .init { base with dp := { base.dp with rstd := false, initd := false } }).devu = true ∧
      (after .init base).devu = false := by decide +kernel
theorem test_setwin_trace : (after (.setwin 0 0 239 319) base).flat =
    .cmd 0x2A :: datas [0, 0, 0, 0xEF] ++ .cmd 0x2B :: datas [0, 0, 1, 0x3F] ++ [.cmd 0x2C] := by decide +kernel
theorem test_setwin_devu : (after (.setwin 0 0 239 319) base).devu = false ∧
    (after (.setwin 0 0 240 0) base).devu = true ∧ (after (.setwin 9 0 3 0) base).devu = true := by decide +kernel
theorem test_setwinrd_trace : (after (.setwinrd 1 2 1 2) base).flat =
    .cmd 0x2A :: datas [0, 1, 0, 1] ++ .cmd 0x2B :: datas [0, 2, 0, 2] ++ [.cmd 0x2E] := by decide +kernel
theorem test_setwinrd_mode : (after (.setwinrd 1 2 1 2) base).dp.mode = .read ∧
    (after (.setwinrd 1 2 1 2) base).pan.mode = .read := by decide +kernel

/-- V-DP-9's state. -/
def painted : State := after (.wrpix [0xF8, 0x00, 0x07, 0xE0]) (after (.setwin 0 0 1 0) base)

theorem test_wrpix_pixels : painted.pan.gram.readPixel 0 0 = some 0xF800 ∧ painted.pan.gram.readPixel 1 0 = some 0x07E0 ∧
    painted.pan.ptr = 2 := by decide +kernel
theorem test_wrpix_odd_and_past :
    (after (.wrpix [0xAA, 0xBB, 0xCC]) (after (.setwin 0 0 0 0) base)).pan.hb = some 0xCC ∧
      (after (.wrpix [0xAA, 0xBB, 0xCC, 0xDD]) (after (.setwin 0 0 0 0) base)).devu = true := by decide +kernel
theorem test_rdpix_readback :
    (after (.rdpix 2) (after (.setwinrd 0 0 1 0) painted)).ctl.result = .bytes [0xF8, 0x00, 0x07, 0xE0] := by
  decide +kernel
theorem test_rdpix_second :
    (after (.rdpix 1) (after (.rdpix 1) (after (.setwinrd 0 0 1 0) painted))).ctl.result = .bytes [0x07, 0xE0] := by
  decide +kernel

/-! ## Unit GS: V-GS-1 to V-GS-11 -/

theorem test_clear : (after (.clear 0x001F) (surface 4 2 base)).flat =
    .cmd 0x2A :: datas [0, 0, 0, 3] ++ .cmd 0x2B :: datas [0, 0, 0, 1] ++ .cmd 0x2C ::
      datas (repeatColor 8 0x001F) := by decide +kernel
theorem test_fillrect : (after (.fillrect 1 0 2 1 0xF800) base).flat =
    .cmd 0x2A :: datas [0, 1, 0, 2] ++ .cmd 0x2B :: datas [0, 0, 0, 0] ++ .cmd 0x2C :: datas [0xF8, 0, 0xF8, 0] := by
  decide +kernel
theorem test_fillrect_outside : (after (.fillrect 239 319 2 1 0) base).flat = [] ∧
    (after (.fillrect (-1) 0 2 2 0) base).flat = [] := by decide +kernel
theorem test_safefillrect_clip : (after (.safefillrect (-5) 0 10 10 0x07E0) base).dp.win =
    { x0 := 0, y0 := 0, x1 := 4, y1 := 9 } := by decide +kernel
theorem test_safefillrect_nothing : (after (.safefillrect (-20) (-20) 10 10 0) base).flat = [] ∧
    (after (.safefillrect 5 5 (-3) 4 0) base).flat = [] := by decide +kernel
theorem test_drawimage : (after (.drawimage 2 3 2 1 [0xFF, 0xFF, 0, 0x1F]) base).pan.gram.readPixel 3 3 = some 0x001F := by
  decide +kernel
theorem test_drawimage_empty : (after (.drawimage 5 5 0 1 []) base).devu = true ∧
    refusalOf (exec (.drawimage (-3) 0 2 2 []) base) = some .windowBound := by decide +kernel
theorem test_textsize : (after (.textsize [0x48, 0x49, 0x54] 2) base).ctl.result = .size 48 16 ∧
    (after (.textsize [] 3) base).ctl.result = .size 0 24 := by decide +kernel
theorem test_textsize_clamped : (after (.textsize [0x48, 0x49, 0x54] (-4)) base).ctl.result = .size 24 8 := by
  decide +kernel
theorem test_clamp : clampPos 230 240 48 = 192 ∧ clampPos (-7) 240 24 = 0 ∧ clampPos 318 320 8 = 312 ∧
    clampPos 216 240 24 = 216 ∧ clampPos 0 240 264 = 0 := by decide
theorem test_drawtext_window : (after (.drawtext 20 0 [0x41] 0xF800 none 1) (surface 16 16 base)).dp.win =
    { x0 := 8, y0 := 0, x1 := 15, y1 := 7 } := by decide +kernel
theorem test_drawtext_cache :
    (after (.drawtext 0 0 [0x41] 0xFFFF none 0) base).gs.tcache.length = 0 ∧
      (after (.drawtext 0 0 [0x41] 0xFFFF (some 0) 1) base).gs.tcache.length = 1 := by decide +kernel
theorem test_rendertext_rows : (rasterBytes par.font [0x41] 0xFFFF none 1).take 16 =
      [0, 0, 0, 0, 0, 0, 0xFF, 0xFF, 0xFF, 0xFF, 0, 0, 0, 0, 0, 0] ∧
    ((rasterBytes par.font [0x41] 0xFFFF none 1).drop 48).take 16 =
      [0, 0, 0xFF, 0xFF, 0xFF, 0xFF, 0xFF, 0xFF, 0xFF, 0xFF, 0xFF, 0xFF, 0xFF, 0xFF, 0, 0] := by decide +kernel
theorem test_rendertext_scaled : bufferPixel (rasterBytes par.font [0x41] 0xFFFF (some 0x1F) 2) 7 = 0xFFFF ∧
    bufferPixel (rasterBytes par.font [0x41] 0xFFFF (some 0x1F) 2) 5 = 0x1F ∧
    bufferPixel (rasterBytes par.font [0x41] 0xFFFF (some 0x1F) 2) (5 * 16 + 3) = 0xFFFF := by decide +kernel
theorem test_clearcaches :
    (after .clearcaches (after (.drawtext 0 0 [0x41] 0xFFFF (some 0) 1) base)).gs.tcache = [] := by decide +kernel
theorem test_loadsprite : (after (.loadsprite [0x64] 2 2) (withRes [some [0xFF, 0xFF]] base)).ctl.result =
    .sprite { width := 2, height := 2, pix := [0xFF, 0xFF] } := by decide +kernel
theorem test_loadsprite_absent :
    (after (.loadsprite [0x6E] 1 1) (withRes [none] base)).fault = { code := 1, info := .resource [0x6E] } ∧
      (after (.loadsprite [0x6E] 1 1) (withRes [none] base)).gs.scache = [] := by decide +kernel

/-! ## Unit IE: V-IE-1, V-IE-2 -/

theorem test_sample : (after .sample { base with env := { base.env with provider := [.levels 5] } }).ie.raw = 5 := by
  decide +kernel
theorem test_sample_fails : (after .sample { base with env := { base.env with provider := [.fail] } }).fault =
    { code := 2, info := .callback 10 } := by decide +kernel
theorem test_edge : (after .edge { base with ie := { base.ie with prev := 0b000001, raw := 0b000011 } }).ie.pressed =
    0b000010 := by decide +kernel
theorem test_edge_held : (after .edge { base with ie := { base.ie with prev := 1, raw := 1 } }).ie.pressed = 0 := by
  decide +kernel

/-- `up` is pressed, a candidate at 1000 waits, the Clock answers 1000 + gap. -/
def tapped (gap : Nat) : State :=
  withClock 1000 [gap] { base with ie := { base.ie with pressed := 1, cand := some 1000 } }

theorem test_gesture_inclusive : (after .gesture (tapped 400)).fs.skip = true ∧
    (after .gesture (tapped 400)).ie.cand = none := by decide +kernel
theorem test_gesture_late : (after .gesture (tapped 401)).fs.skip = false ∧
    (after .gesture (tapped 401)).ie.cand = some 1401 := by decide +kernel

/-! ## Unit FS: V-FS-1 to V-FS-4 -/

/-- A tick that started at 5033, the Clock at 5033 + e in phase 7. -/
def pacing (e : Nat) : State := withClock 5033 [e] { base with fs := { base.fs with tstart := 5033 } }

theorem test_pace_sleeps : (after .pace (pacing 12)).flat = [.sleep 21] ∧ (after .pace (pacing 32)).flat = [.sleep 1] := by
  decide +kernel
theorem test_pace_late : (after .pace (pacing 33)).flat = [] := by decide +kernel
theorem test_tickstart : (after .tickstart (withClock 1000 [66] { base with fs := { base.fs with last := 1000 } })).fs.dtms =
    66 := by decide +kernel
theorem test_dispatch_order :
    calls (after .dispatch (withGame (List.replicate 4 (silent (.ok true)))
      { base with handlers := 0b101011, ie := { base.ie with pressed := 0b111111 } })).trace =
      [.handler 0, .handler 1, .handler 3, .handler 5] := by decide +kernel
theorem test_update_dt : calls (after .update (withGame [silent (.ok true)]
    { base with fs := { base.fs with dtms := 66 }, ie := { base.ie with cur := 1 } })).trace =
      [.update (66 / 1000) 1 0] := by decide +kernel
theorem test_update_fails : (after .update (withGame [silent .fail] base)).fault = { code := 2, info := .callback 8 } := by
  decide +kernel
theorem test_draw_first : calls (after .draw (withGame [silent (.ok false), silent (.ok true)]
    { base with handlers := 0x80, fs := { base.fs with first := true } })).trace = [.shouldRedraw, .draw] := by
  decide +kernel
theorem test_draw_not : (after .draw (withGame [silent (.ok false)] { base with handlers := 0x80 })).flat =
    [.call .shouldRedraw, .answer .shouldRedraw (.ok false)] := by decide +kernel
theorem test_run : (after .run (withClock 0 [1000] base)).fs.last = 1000 ∧
    (after .run (withClock 0 [1000] base)).ctl.micro = some .tickstart := by decide +kernel
theorem test_stop : (after .stop { base with fs := { base.fs with running := true } }).fs.running = false := by
  decide +kernel

/-! ## The bus: frames, faults -/

theorem test_bus_caset : (after (.busCaset 256 257) base).flat = .cmd 0x2A :: datas [1, 0, 1, 1] ∧
    (after (.busCaset 256 257) base).pan.xe = 257 := by decide +kernel
theorem test_bus_paset : (after (.busPaset 1 2) base).flat = .cmd 0x2B :: datas [0, 1, 0, 2] ∧
    (after (.busPaset 1 2) base).pan.ys = 1 := by decide +kernel
theorem test_bus_ramwr : (after .busRamwr base).trace = [.dc false, .cs false, .cmd 0x2C, .cs true] := by decide +kernel
theorem test_bus_ramrd : (after .busRamrd base).pan.mode = .read := by decide +kernel
theorem test_bus_slpout : (after .busSlpout base).pan.awake = true ∧ (after .busSlpout base).flat = [.cmd 0x11] := by
  decide +kernel
theorem test_bus_dispon : (after .busDispon base).pan.on = true ∧ (after .busDispon base).flat = [.cmd 0x29] := by
  decide +kernel
theorem test_bus_init_entry : (after (.busInitEntry 0x3A [0x55, 0x66]) base).pan.cfg = [(0x3A, [0x55, 0x66])] := by
  decide +kernel
theorem test_bus_error : (after (.wrpix [1, 2, 3]) (withBus [(2, .busError)] base)).flat = datas [1] ∧
    (after (.wrpix [1, 2, 3]) (withBus [(2, .busError)] base)).fault.code = 3 ∧
    (after (.wrpix [1, 2, 3]) (withBus [(2, .busError)] base)).pins.csN = false := by decide +kernel

/-! ## Steps -/

/-- The state after one step; the state before it if it did not complete. -/
def afterStep (s : State) : State :=
  match step s with
  | .next t => t
  | .fault _ => s
  | .refused _ => s

theorem test_fetch_operation : (afterStep (base.withFetchWord 8 0x21)).flat = [.ret .nothing] := by decide +kernel
theorem test_fetch_phase : (afterStep (base.withFetchWord 3 2)).fs.ph = 2 ∧
    (afterStep (base.withFetchWord 3 2)).ctl.micro = some .dispatch := by decide +kernel
theorem test_fetch_frame : (afterStep (base.withFetchWord 8 0x29)).flat = [.cmd 0x29] := by decide +kernel
theorem test_stuck : faultOf (step { base with ctl := { base.ctl with blocked := some .bus } }) = some .busStalled ∧
    refusalOf (step (withHost [[0x07]] base)) = some (.reservedCode 0x07) := by decide +kernel

/-! ## Witnesses: for each obligation with hypotheses, states and operands that meet them, one for each clause, at the
boundaries of their ranges -/

/-- A step that neither faults nor is refused has a next state. -/
theorem step_after {s : State} (h : refusalOf (step s) = none ∧ faultOf (step s) = none) :
    step s = .next (afterStep s) := by
  unfold afterStep
  rcases hs : step s with t | r | r
  · rfl
  · rw [hs] at h; exact absurd h.2 (by simp [faultOf])
  · rw [hs] at h; exact absurd h.1 (by simp [refusalOf])

/-- Likewise an instruction. -/
theorem exec_after {i : Instr} {s : State} (h : refusalOf (exec i s) = none ∧ faultOf (exec i s) = none) :
    exec i s = .next (after i s) := by
  unfold after
  rcases hs : exec i s with t | r | r
  · rfl
  · rw [hs] at h; exact absurd h.2 (by simp [faultOf])
  · rw [hs] at h; exact absurd h.1 (by simp [refusalOf])

theorem ready_base : Ready base := ⟨rfl, rfl, rfl, by decide⟩

theorem witness_DecodeEncodeRoundTrip : (Instr.setwin 0 65535 0 65535).WellFormed ∧
    (Instr.fillrect (-32768) 32767 0 0 0xFFFF).WellFormed ∧ (Instr.rdpix 4294967295).WellFormed ∧
    (Instr.busInitEntry 0xFF []).WellFormed ∧ Instr.pace.WellFormed ∧ Instr.space (.rdpix 0) = .port := by decide

theorem witness_ReservedEncodingsRefused : (0x00 : Byte) ∉ operationCodes ∧ (0x07 : Byte) ∉ operationCodes ∧
    (0x22 : Byte) ∉ operationCodes ∧ 2 ≤ (2 : Byte).toNat ∧ 2 ≤ (255 : Byte).toNat ∧
    (Instr.setwin 0 0 0 65535).WellFormed ∧ Instr.space (.setwin 0 0 0 65535) = .port ∧
    (0 < (encode (.setwin 0 0 0 65535)).length ∧ 8 < (encode (.setwin 0 0 0 65535)).length) ∧
    (withHost [[0x07]] base).ctl.blocked = none ∧ (withHost [[0x07]] base).ctl.micro = none ∧
    (withHost [[0x07]] base).env.host = [[0x07]] ∧ decodePort [0x07] = .error (.reservedCode 0x07) :=
  ⟨by decide, by decide, by decide, by decide, by decide, by decide, rfl, by decide, rfl, rfl, rfl, rfl⟩

theorem witness_StepRunsDecodedInstruction :
    ((withHost [[0x21]] base).ctl.micro = none ∧ (withHost [[0x21]] base).env.host = [[0x21]] ∧
      decodePort [0x21] = .ok .stop) ∧
    ((withMicro .sample base).ctl.micro = some .sample ∧ Instr.space .sample = .phase ∧
      ¬ ((Instr.sample = .tickstart) ∧ (pollStop (withMicro .sample base)).fs.running = false)) ∧
    ¬ ((Instr.tickstart = .tickstart) ∧ (pollStop (withMicro .tickstart base)).fs.running = false) ∧
    ((withMicro .busRamwr base).ctl.micro = some .busRamwr ∧ Instr.space .busRamwr ≠ .phase ∧
      step (withMicro .busRamwr base) = .next (afterStep (withMicro .busRamwr base))) ∧
    Instr.space .stop = .port ∧ Instr.stop ≠ .run :=
  ⟨⟨rfl, rfl, rfl⟩, ⟨rfl, rfl, by decide⟩, by decide, ⟨rfl, by decide, step_after (by decide +kernel)⟩, rfl, by decide⟩

/-- A state in which phase i is next and completes. -/
def inPhase (i : Instr) : State :=
  withGame [silent (.ok true), silent (.ok true)] (withClock 0 [0]
    (withMicro i { base with env := { base.env with provider := [.levels 0] } }))

theorem witness_TickPhaseOrder :
    (∀ i ∈ [Instr.tickstart, .sample, .edge, .dispatch, .gesture, .update, .draw, .pace],
      (inPhase i).ctl.blocked = none ∧ (inPhase i).ctl.micro = some i ∧ (pollStop (inPhase i)).fs.running = true ∧
      exec i (pollStop (inPhase i)) = .next (after i (pollStop (inPhase i))) ∧
      (after i (pollStop (inPhase i))).ctl.blocked = none ∧ (after i (pollStop (inPhase i))).ctl.micro ≠ none ∧
      (after i (pollStop (inPhase i))).fs.skip = false) ∧
    exec .gesture (pollStop (withMicro .gesture (tapped 400))) =
      .next (after .gesture (pollStop (withMicro .gesture (tapped 400)))) ∧
    (after .gesture (pollStop (withMicro .gesture (tapped 400)))).fs.skip = true ∧
    (after .gesture (pollStop (withMicro .gesture (tapped 400)))).ctl.micro ≠ none := by
  have h : ∀ i ∈ [Instr.tickstart, .sample, .edge, .dispatch, .gesture, .update, .draw, .pace],
      (refusalOf (exec i (pollStop (inPhase i))) = none ∧ faultOf (exec i (pollStop (inPhase i))) = none) ∧
      (inPhase i).ctl.blocked = none ∧ (inPhase i).ctl.micro = some i ∧ (pollStop (inPhase i)).fs.running = true ∧
      (after i (pollStop (inPhase i))).ctl.blocked = none ∧ (after i (pollStop (inPhase i))).ctl.micro ≠ none ∧
      (after i (pollStop (inPhase i))).fs.skip = false := by decide +kernel
  refine ⟨fun i hi => ?_, exec_after (by decide +kernel), by decide +kernel, by decide +kernel⟩
  obtain ⟨a, b, c, d, e, f, g⟩ := h i hi
  exact ⟨b, c, d, exec_after a, e, f, g⟩

/-- A tick boundary with the stop signal raised. -/
def stopping : State := { base with ctl := { base.ctl with micro := some .tickstart } }

theorem witness_LoopEndsOnlyAtBoundary :
    stopping.ctl.blocked = none ∧ stopping.ctl.micro = some .tickstart ∧ (pollStop stopping).fs.running = false ∧
    Instr.space .tickstart = .phase ∧ step stopping = .next (afterStep stopping) ∧
    (afterStep stopping).ctl.micro = none ∧
    (pollStop { withMicro .tickstart base with env := { base.env with stops := [true] } }).fs.running = false :=
  ⟨rfl, rfl, rfl, rfl, step_after (by decide +kernel), by decide +kernel, rfl⟩

theorem witness_ResetPulsesLineAndForgetsPanel : Quiet base ∧ base.devu = false := ⟨rfl, rfl⟩

theorem witness_InitSendsHandshake : Quiet base ∧ (∀ e ∈ base.par.init.seq, e.cmd ∉ base.par.cmds.all) ∧
    base.par.cmds.Distinct ∧ (after .init base).devu = false ∧
    Quiet { base with dp := { base.dp with rstd := false } } :=
  ⟨rfl, by decide, by decide, by decide +kernel, rfl⟩

theorem witness_WindowOperationsSendAndLatch : Quiet base ∧
    ((0 ≤ (0 : Int) ∧ (0 : Int) ≤ 65535) ∧ (0 ≤ (65535 : Int) ∧ (65535 : Int) ≤ 65535)) ∧
    (after (.setwin 0 0 239 319) base).devu = false ∧ (after (.setwinrd 0 0 239 319) base).devu = false ∧
    (after (.setwin 0 0 240 319) base).devu = true ∧ base.par.cmds.Distinct :=
  ⟨rfl, by decide, by decide +kernel, by decide +kernel, by decide +kernel, by decide⟩

theorem textCacheOk_base : TextCacheOk base := ⟨fun e he => absurd he (by simp [base]), by simp [base]⟩

theorem witness_WindowBoundRefused :
    ¬ ((0 ≤ (-1 : Int) ∧ (-1 : Int) ≤ 65535) ∧ (0 ≤ (0 : Int) ∧ (0 : Int) ≤ 65535)) ∧
    ¬ (0 ≤ (65536 : Int) ∧ (65536 : Int) ≤ 65535) ∧ TextCacheOk base ∧
    (0 : Int) = clampPos 0 base.width (textWidth [] 1) ∧ (0 : Int) = clampPos 0 base.height (textHeight 1) ∧
    (-1 : Int) = 0 + textWidth [] 1 - 1 ∧ (7 : Int) = 0 + textHeight 1 - 1 :=
  ⟨by decide, by decide, textCacheOk_base, by decide, by decide, by decide, by decide⟩

theorem witness_BrokenDutiesSetDevu : Quiet base ∧
    ({ base with dp := { base.dp with rstd := false } } : State).dp.rstd = false ∧
    ¬ (0 ≤ (0 : Int) ∧ (0 : Int) ≤ 240 ∧ (240 : Int) < base.width ∧ 0 ≤ (0 : Int) ∧ (0 : Int) ≤ 0 ∧
      (0 : Int) < base.height) ∧
    ({ base with dp := { base.dp with initd := false } } : State).dp.initd = false ∧ base.dp.mode ≠ .write ∧
    base.dp.mode ≠ .read := ⟨rfl, rfl, by decide, rfl, by decide, by decide⟩

theorem witness_StreamOperationsMoveBytes : Quiet base ∧
    (after (.rdpix 2) (after (.setwinrd 0 0 1 0) base)).devu = false := ⟨rfl, by decide +kernel⟩

/-- A WRITE stream over two cells, at its start. -/
def writing : State := after (.setwin 238 319 239 319) base
/-- The same with a high byte pending. -/
def writingHalf : State := after (.wrpix [0x12]) writing
/-- A READ stream over two cells, at its start. -/
def reading : State := after (.setwinrd 238 319 239 319) base

theorem witness_WrpixPaintsStream : Ready writing ∧ writing.dp.mode = .write ∧
    writing.pan.cmd = writing.par.cmds.ramwr ∧ writing.pan.mode = .write ∧
    winValid writing.width writing.height writing.pan.xs.toNat writing.pan.ys.toNat writing.pan.xe.toNat
      writing.pan.ye.toNat = true ∧
    (writing.pan.ptr + 2 ≤ 2 * 1 ∧ 2 * 1 < writing.pan.ptr + 3) ∧
    (Ready writingHalf ∧ writingHalf.pan.hb = some 0x12 ∧ writingHalf.pan.mode = .write) :=
  ⟨⟨by decide +kernel, by decide +kernel, by decide +kernel, by decide +kernel⟩, by decide +kernel, by decide +kernel,
    by decide +kernel, by decide +kernel, by decide +kernel,
    ⟨by decide +kernel, by decide +kernel, by decide +kernel, by decide +kernel⟩, by decide +kernel, by decide +kernel⟩

theorem witness_WrpixSplitsAnywhere : Quiet writing ∧ writing.dp.mode = .write ∧ writing.dp.initd = true := by
  decide +kernel

theorem witness_RdpixReturnsPixels : Ready reading ∧ reading.dp.mode = .read ∧ reading.pan.mode = .read ∧
    reading.pan.hb = none ∧
    winValid reading.width reading.height reading.pan.xs.toNat reading.pan.ys.toNat reading.pan.xe.toNat
      reading.pan.ye.toNat = true ∧
    (reading.pan.ptr + 2 ≤ 2 * 1 ∧ 2 * 1 < reading.pan.ptr + 3) ∧
    (after (.setwinrd 0 0 1 0) painted).pan.gram.readPixel 1 0 = some 0x07E0 :=
  ⟨⟨by decide +kernel, by decide +kernel, by decide +kernel, by decide +kernel⟩, by decide +kernel, by decide +kernel,
    by decide +kernel, by decide +kernel, by decide +kernel, by decide +kernel⟩

theorem witness_WrittenPixelsShowAndReadBack : Ready base ∧
    winValid base.width base.height 238 319 239 319 = true ∧
    (([1, 2, 3, 4] : List Byte).length : Int) = 2 * (239 - 238 + 1) * (319 - 319 + 1) :=
  ⟨ready_base, by decide, by decide⟩

theorem witness_BusPrimitivesFrameTransactions : Quiet base := rfl
theorem witness_BusFramesSendBytes : Quiet base := rfl
theorem witness_BusFramesReachPanel : Quiet base ∧ base.devu = false ∧ base.par.cmds.Distinct ∧
    (0x3A : Byte) ∉ base.par.cmds.all := ⟨rfl, rfl, by decide, by decide⟩

theorem witness_BusFaultAfterAnyPrefix :
    (withBus [(0, .busError)] base).env.bus = [(0, .busError)] ∧
    (withBus [(4, .timingFault)] base).env.bus = [(4, .timingFault)] ∧ ([1, 2, 3] : List Byte) ≠ [] ∧
    4 ≤ ([1, 2, 3] : List Byte).length + 1 := ⟨rfl, rfl, by decide, by decide⟩

theorem witness_StalledBusBlocksForEver : (withBus [(0, .stall)] base).env.bus = [(0, .stall)] ∧
    (withBus [(4, .stall)] base).env.bus = [(4, .stall)] ∧ ([1, 2, 3] : List Byte) ≠ [] ∧
    4 ≤ ([1, 2, 3] : List Byte).length + 1 ∧
    (∀ b : Block, ({ base with ctl := { base.ctl with blocked := some b } } : State).ctl.blocked = some b) :=
  ⟨rfl, rfl, by decide, by decide, fun _ => rfl⟩

/-- The Host presents STOP. -/
def presenting : State := withHost [[0x21]] base

theorem presenting_step : step presenting = .next (afterStep presenting) := step_after (by decide +kernel)

theorem framed_presenting : Framed presenting :=
  ⟨by decide, fun _ => ⟨.outside none, rfl, fun _ => ⟨rfl, rfl⟩⟩⟩

theorem witness_EveryStepKeepsFraming : Framed presenting ∧ step presenting = .next (afterStep presenting) :=
  ⟨framed_presenting, presenting_step⟩

theorem witness_FillrectStreamsColor : Quiet base ∧ inSurface base.width base.height 0 0 240 320 = true ∧
    inSurface base.width base.height 239 319 1 1 = true ∧ Ready base ∧
    ({ base with dp := { base.dp with initd := false } } : State).dp.initd = false :=
  ⟨rfl, by decide, by decide, ready_base, rfl⟩

theorem witness_FillrectOutsideDoesNothing :
    ¬ (0 < (2 : Int) ∧ 0 < (1 : Int) ∧ 0 ≤ (239 : Int) ∧ 0 ≤ (319 : Int) ∧ (239 : Int) + 2 ≤ base.width ∧
      (319 : Int) + 1 ≤ base.height) := by decide

theorem witness_ClearFillsSurface : Quiet base ∧ Ready base ∧ 0 < base.width ∧ 0 < base.height ∧
    0 < (surface 1 1 base).width := ⟨rfl, ready_base, by decide, by decide, by decide⟩

theorem witness_SafefillrectClipsToSurface : Quiet base ∧
    (min ((-10 : Int) + 10) base.width - max (-10) 0 ≤ 0) ∧
    ¬ (min ((-10 : Int) + 11) base.width - max (-10) 0 ≤ 0 ∨ min ((319 : Int) + 9) base.height - max 319 0 ≤ 0) :=
  ⟨rfl, by decide, by decide⟩

theorem witness_SafefillrectPaintsIntersection : Ready base := ready_base

theorem witness_DrawimageStreamsBuffer : Quiet base ∧ boundsOk 0 0 ((0 : Int) + 65536 - 1) ((0 : Int) + 1 - 1) = true ∧
    winValid base.width base.height 0 0 ((0 : Int) + 241 - 1) ((0 : Int) + 1 - 1) = false := by decide

theorem witness_DrawimageIsWindowThenPixels : Quiet base ∧ boundsOk 2 3 ((2 : Int) + 2 - 1) ((3 : Int) + 1 - 1) = true ∧
    Ready base ∧ inSurface base.width base.height 238 319 2 1 = true ∧
    (([1, 2, 3, 4] : List Byte).length : Int) = 2 * 2 * 1 := ⟨rfl, by decide, ready_base, by decide, by decide⟩

theorem witness_ScalingReplicatesPixels : 1 ≤ (1 : Nat) ∧ 1 ≤ (2 : Nat) := by decide

/-- DRAWTEXT of one character on a surface it does not fit. -/
def tooWide : Instr := .drawtext 0 0 [0x41] 0xFFFF none 1

theorem witness_TextPositionIsClamped : ((24 : Int) ≤ 240 ∧ (-7 : Int) < 0) ∧ ((240 : Int) < 217 + 24) ∧
    (0 ≤ (216 : Int) ∧ (216 : Int) + 24 ≤ 240) ∧ (240 : Int) < 264 ∧
    Quiet (surface 7 8 base) ∧ TextCacheOk (surface 7 8 base) ∧ (surface 7 8 base).width < textWidth [0x41] 1 ∧
    exec tooWide (surface 7 8 base) = .next (after tooWide (surface 7 8 base)) :=
  ⟨by decide, by decide, by decide, by decide, rfl, textCacheOk_base, by decide, exec_after (by decide +kernel)⟩

theorem witness_DrawtextFastPath : Quiet base ∧ (1 : Int) ≤ 1 ∧ (-4 : Int) ≤ 1 ∧
    boundsOk (max 0 (min 232 (base.width - 8 * 1))) (max 0 (min 312 (base.height - 8)))
      (max 0 (min 232 (base.width - 8 * 1)) + 8 * 1 - 1) (max 0 (min 312 (base.height - 8)) + 8 - 1) = true ∧
    Ready base ∧ inSurface base.width base.height 232 312 8 8 = true :=
  ⟨rfl, by decide, by decide, by decide, ready_base, by decide⟩

/-- The text cache holds one sound entry. -/
def cached : State := after (.drawtext 0 0 [0x41] 0xFFFF (some 0) 1) base

theorem textCacheOk_cached : TextCacheOk cached := by
  unfold TextCacheOk; exact ⟨by decide +kernel, by decide +kernel⟩

theorem witness_DrawtextCachedPath : Quiet base ∧ TextCacheOk base ∧ (1 : Int) < 2 ∧ some (0 : Half) ≠ none ∧
    boundsOk 224 304 ((224 : Int) + 16 - 1) ((304 : Int) + 16 - 1) = true ∧ Ready base ∧
    inSurface base.width base.height 224 304 16 16 = true ∧ (Quiet cached ∧ TextCacheOk cached) :=
  ⟨rfl, textCacheOk_base, by decide, by decide, by decide, ready_base, by decide, by decide +kernel, textCacheOk_cached⟩

theorem witness_TextCacheIsTransparent : TextCacheOk base ∧
    TextCacheOk { base with gs := { base.gs with tcache := cached.gs.tcache } } :=
  ⟨textCacheOk_base, by unfold TextCacheOk; exact ⟨by decide +kernel, by decide +kernel⟩⟩

theorem witness_TextPathsAgree : TextCacheOk base ∧ TextCacheOk cached := ⟨textCacheOk_base, textCacheOk_cached⟩

/-- The sprite cache holds one entry. -/
def loaded : State := after (.loadsprite [0x64] 1 1) (withRes [some [0xFF, 0xFF]] base)

theorem witness_LoadspriteHitMissAbsent :
    loaded.gs.scache.lookup { name := [0x64], width := 1, height := 1 } =
      some { width := 1, height := 1, pix := [0xFF, 0xFF] } ∧
    (withRes [some []] base).gs.scache.lookup { name := [0x64], width := 1, height := 1 } = none ∧
    (readResource (withRes [some []] base)).1 = some [] ∧ (readResource (withRes [none] base)).1 = none :=
  ⟨by decide +kernel, rfl, rfl, rfl⟩

/-- The InputProvider answers a. -/
def providing (a : ProviderAnswer) : State := { base with env := { base.env with provider := [a] } }

theorem witness_SampleReadsLevels :
    ({ base with par := { par with hasProvider := false } } : State).par.hasProvider = false ∧
    base.par.hasProvider = true ∧
    (askProvider ((providing (.levels 0x3F)).setPh 1)).1 = .levels 0x3F ∧
    (askProvider ((providing .fail).setPh 1)).1 = .fail ∧ (askProvider ((providing .never).setPh 1)).1 = .never :=
  ⟨rfl, rfl, rfl, rfl, rfl⟩

/-- A double tap with a Game that has `reset`. -/
def tappedGame : State := withGame [silent (.ok true)] { tapped 400 with handlers := 0x40 }

theorem witness_GestureRecognisesDoubleTap : base.ie.pressed.getLsbD 0 = false ∧
    (tapped 401).ie.pressed.getLsbD 0 = true ∧
    (1000 + (tapped 401).ie.thresh < (readClock ((tapped 401).setPh 4)).1) ∧
    (tapped 400).ie.cand = some 1000 ∧ (readClock ((tapped 400).setPh 4)).1 ≤ 1000 + (tapped 400).ie.thresh ∧
    (tapped 400).exposes 6 = false ∧ tappedGame.exposes 6 = true ∧ tappedGame.ie.cand = some 1000 ∧
    ∃ u, CallbackOk .reset
      { (readClock (tappedGame.setPh 4)).2 with ie := { tappedGame.ie with cand := none } } true u :=
  ⟨by decide, by decide, by decide, rfl, by decide, by decide, by decide, rfl, _, _, rfl, rfl, rfl⟩

/-- `up` and `b` are pressed, the Game has their handlers. -/
def pressing : State := withGame [silent (.ok true), silent (.ok true)]
  { base with handlers := 0b100001, ie := { base.ie with pressed := 0b100001 } }

theorem witness_DispatchCallsHandlersInOrder :
    (∃ t, HandlersRun [0, 1, 2, 3, 4, 5] (pressing.setPh 3) t) ∧
    (∀ k : Fin 6, base.ie.pressed.getLsbD k.val = false ∨ base.exposes k.val = false) ∧
    exec .dispatch pressing = .next (after .dispatch pressing) := by
  refine ⟨⟨?_, ?_⟩, by decide, exec_after (by decide +kernel)⟩
  rotate_left
  · unfold HandlersRun
    rw [if_pos (by decide)]
    refine ⟨true, _, ⟨_, rfl, rfl, rfl⟩, ?_⟩
    unfold HandlersRun; rw [if_neg (by decide)]
    unfold HandlersRun; rw [if_neg (by decide)]
    unfold HandlersRun; rw [if_neg (by decide)]
    unfold HandlersRun; rw [if_neg (by decide)]
    unfold HandlersRun; rw [if_pos (by decide)]
    refine ⟨true, _, ⟨_, rfl, rfl, rfl⟩, ?_⟩
    unfold HandlersRun; rfl

theorem witness_UpdateCallsGame :
    (∃ t, CallbackOk (.update ((inPhase .update).fs.dtms / 1000) (inPhase .update).ie.cur (inPhase .update).ie.pressed)
      ((inPhase .update).setPh 5) true t) ∧
    (withGame [silent (.ok true)] base).env.game = [{ ops := [], reply := .ok true }] :=
  ⟨⟨_, _, rfl, rfl, rfl⟩, rfl⟩

/-- A Game that has shouldRedraw and answers r to it. -/
def asking (r : Bool) (first : Bool) : State :=
  withGame [silent (.ok r), silent (.ok true)]
    { base with handlers := 0x80, fs := { base.fs with first := first } }

theorem witness_DrawAsksThenDraws :
    ((inPhase .draw).exposes 7 = false ∧ ∃ t, CallbackOk .draw ((inPhase .draw).setPh 6) true t) ∧
    ((asking true false).exposes 7 = true ∧
      ∃ u t, CallbackOk .shouldRedraw ((asking true false).setPh 6) true u ∧ CallbackOk .draw u true t) ∧
    ((asking false true).fs.first = true ∧
      ∃ u t, CallbackOk .shouldRedraw ((asking false true).setPh 6) false u ∧ CallbackOk .draw u true t) ∧
    ((asking false false).fs.first = false ∧
      ∃ u, CallbackOk .shouldRedraw ((asking false false).setPh 6) false u) :=
  ⟨⟨by decide, _, _, rfl, rfl, rfl⟩, ⟨by decide, _, _, ⟨_, rfl, rfl, rfl⟩, _, rfl, rfl, rfl⟩,
    ⟨rfl, _, _, ⟨_, rfl, rfl, rfl⟩, _, rfl, rfl, rfl⟩, rfl, _, _, rfl, rfl, rfl⟩

theorem witness_PaceSleepsRemainder :
    (readClock ((pacing 32).setPh 7)).1 - (pacing 32).fs.tstart < (pacing 32).fs.period ∧
    (pacing 33).fs.period ≤ (readClock ((pacing 33).setPh 7)).1 - (pacing 33).fs.tstart := by decide +kernel

/-! Every phase that opens a callback, with a state in which it is next and the Game will do a in that callback. -/

/-- Phase 3: `up`'s handler answers ok, then `b`'s does a. -/
def dispatching (a : GameAnswer) : State :=
  withMicro .dispatch (withRes [none] (withGame [silent (.ok true), a] pressing))
/-- Phase 4: a double tap, and the Game has reset. -/
def tapping (a : GameAnswer) : State := withMicro .gesture (withRes [none] (withGame [a] tappedGame))
/-- Phase 5. -/
def updating (a : GameAnswer) : State := withMicro .update (withRes [none] (withGame [a] base))
/-- Phase 6: shouldRedraw does a. -/
def askingRedraw (a : GameAnswer) : State := withMicro .draw (withRes [none] (withGame [a] (asking true false)))
/-- Phase 6: the Game has no shouldRedraw. -/
def drawing (a : GameAnswer) : State := withMicro .draw (withRes [none] (withGame [a] base))
/-- Phase 6: shouldRedraw answers false on the first tick, then draw does a. -/
def drawingFirst (a : GameAnswer) : State :=
  withMicro .draw (withRes [none] (withGame [silent (.ok false), a] (asking false true)))

/-- Phase i is next and opens callback c in a state q that meets P. -/
def Opening (i : Instr) (c : Callback) (s : State) (P : State → Prop) : Prop :=
  s.ctl.blocked = none ∧ s.ctl.micro = some i ∧ ∃ q, CallbackOpens i c (pollStop s) q ∧ P q

/-- The arguments of update there. -/
def updateArgs : Callback := .update (((0 : Nat) : Rat) / 1000) 0 0

theorem doubleTap_tapping (a : GameAnswer) : doubleTap (pollStop (tapping a)).ie.cand
    (readClock ((pollStop (tapping a)).setPh 4)).1 (pollStop (tapping a)).ie.thresh = true := by
  simp [doubleTap, tapping, tappedGame, tapped, readClock, pollStop, State.setPh, withMicro, withRes, withGame, withClock,
    base, Env.empty]

theorem opening_all (a : GameAnswer) (P : Callback → State → Prop)
    (h0 : P (.handler 5) (silentCall (.handler 0) true [a] ((pollStop (dispatching a)).setPh 3)))
    (h1 : P .reset (setCand none (readClock ((pollStop (tapping a)).setPh 4)).2))
    (h2 : P updateArgs ((pollStop (updating a)).setPh 5))
    (h3 : P .shouldRedraw ((pollStop (askingRedraw a)).setPh 6)) (h4 : P .draw ((pollStop (drawing a)).setPh 6))
    (h5 : P .draw (silentCall .shouldRedraw false [a] ((pollStop (drawingFirst a)).setPh 6))) :
    Opening .dispatch (.handler 5) (dispatching a) (P (.handler 5)) ∧ Opening .gesture .reset (tapping a) (P .reset) ∧
    Opening .update updateArgs (updating a) (P updateArgs) ∧
    Opening .draw .shouldRedraw (askingRedraw a) (P .shouldRedraw) ∧ Opening .draw .draw (drawing a) (P .draw) ∧
    Opening .draw .draw (drawingFirst a) (P .draw) := by
  refine ⟨⟨rfl, rfl, _, ?_, h0⟩, ⟨rfl, rfl, _, ?_, h1⟩, ⟨rfl, rfl, _, ?_, h2⟩, ⟨rfl, rfl, _, ?_, h3⟩,
    ⟨rfl, rfl, _, ?_, h4⟩, rfl, rfl, _, ?_, h5⟩
  · refine ⟨5, rfl, ?_, show BitVec.getLsbD (0b100001 : BitVec 6) 5 = true from rfl,
      show BitVec.getLsbD (0b100001 : BitVec 8) 5 = true from rfl⟩
    exact handlersRun_on (show BitVec.getLsbD (0b100001 : BitVec 6) 0 = true from rfl)
      (show BitVec.getLsbD (0b100001 : BitVec 8) 0 = true from rfl) ⟨_, rfl, rfl, rfl⟩
      (handlersRun_off (show BitVec.getLsbD (0b100001 : BitVec 6) 1 = false from rfl)
        (handlersRun_off (show BitVec.getLsbD (0b100001 : BitVec 6) 2 = false from rfl)
          (handlersRun_off (show BitVec.getLsbD (0b100001 : BitVec 6) 3 = false from rfl)
            (handlersRun_off (show BitVec.getLsbD (0b100001 : BitVec 6) 4 = false from rfl) rfl))))
  · exact ⟨rfl, show BitVec.getLsbD (0x40 : BitVec 8) 6 = true from rfl,
      show BitVec.getLsbD (1 : BitVec 6) 0 = true from rfl, doubleTap_tapping a, rfl⟩
  · exact ⟨rfl, rfl⟩
  · exact .inl ⟨rfl, show BitVec.getLsbD (0x80 : BitVec 8) 7 = true from rfl, rfl⟩
  · exact .inr (.inl ⟨rfl, show BitVec.getLsbD (0 : BitVec 8) 7 = false from rfl, rfl⟩)
  · exact .inr (.inr ⟨rfl, show BitVec.getLsbD (0x80 : BitVec 8) 7 = true from rfl, false, ⟨_, rfl, rfl, rfl⟩, .inr rfl⟩)

/-- The Game's operations complete and it answers `fail`. -/
def AnswersFail (c : Callback) (q : State) : Prop :=
  ∃ u, gameActs c q = Play.done u ∧ (nextGame q).reply = .fail ∧ u.ctl.blocked = none

theorem answersFail {c : Callback} {q : State} (h : nextGame q = silent .fail) (hb : q.ctl.blocked = none) :
    AnswersFail c q :=
  ⟨openCallback c q, by unfold gameActs; rw [h]; rfl, by rw [h]; rfl, hb⟩

theorem witness_FailedCallbackEndsRun :
    let a := silent .fail
    Opening .dispatch (.handler 5) (dispatching a) (AnswersFail (.handler 5)) ∧
    Opening .gesture .reset (tapping a) (AnswersFail .reset) ∧
    Opening .update updateArgs (updating a) (AnswersFail updateArgs) ∧
    Opening .draw .shouldRedraw (askingRedraw a) (AnswersFail .shouldRedraw) ∧
    Opening .draw .draw (drawing a) (AnswersFail .draw) ∧ Opening .draw .draw (drawingFirst a) (AnswersFail .draw) :=
  opening_all (silent .fail) AnswersFail (answersFail rfl rfl) (answersFail rfl rfl) (answersFail rfl rfl)
    (answersFail rfl rfl) (answersFail rfl rfl) (answersFail rfl rfl)

/-- An operation of the Game ends in a fault. -/
def OperationFaults (c : Callback) (q : State) : Prop :=
  (gameActs c q).refusal = none ∧ (gameActs c q).live = false ∧ (gameActs c q).st.ctl.blocked = none

/-- The Game loads a sprite, which is absent. -/
def loads : GameAnswer := { ops := [encode (.loadsprite [0x6E] 1 1)], reply := .ok true }

theorem witness_FaultInsideCallbackEndsRun :
    Opening .dispatch (.handler 5) (dispatching loads) (OperationFaults (.handler 5)) ∧
    Opening .gesture .reset (tapping loads) (OperationFaults .reset) ∧
    Opening .update updateArgs (updating loads) (OperationFaults updateArgs) ∧
    Opening .draw .shouldRedraw (askingRedraw loads) (OperationFaults .shouldRedraw) ∧
    Opening .draw .draw (drawing loads) (OperationFaults .draw) ∧
    Opening .draw .draw (drawingFirst loads) (OperationFaults .draw) :=
  opening_all loads OperationFaults ⟨rfl, rfl, rfl⟩ ⟨rfl, rfl, rfl⟩ ⟨rfl, rfl, rfl⟩ ⟨rfl, rfl, rfl⟩ ⟨rfl, rfl, rfl⟩
    ⟨rfl, rfl, rfl⟩

theorem witness_FaultInsideCallbackEndsRun_loadsprite :
    (updating loads).ctl.blocked = none ∧ (updating loads).ctl.micro = some .update ∧
    (Instr.loadsprite [0x6E] 1 1).WellFormed ∧ (updating loads).env.game = [loads] ∧
    (updating loads).gs.scache.lookup { name := [0x6E], width := 1, height := 1 } = none ∧
    (updating loads).env.res = [none] :=
  ⟨rfl, rfl, by decide, rfl, rfl, rfl⟩

/-- R255, R291: the callback answers `fail`, and RUN returns ResourceNotFound, not GameFailure. -/
theorem test_fault_in_callback : (afterStep (updating loads)).out =
    [.ret (.fault 1 (.resource [0x6E])), .answer updateArgs .fail, .call updateArgs] := by decide +kernel

theorem witness_OperationsLeaveInputAndScheduler :
    (Instr.isSurface (.fillrect 1 0 2 1 0xF800) = true ∧
      exec (.fillrect 1 0 2 1 0xF800) writing = .next (after (.fillrect 1 0 2 1 0xF800) writing)) ∧
    Instr.space (.wrpix [1]) ≠ .phase ∧ Instr.wrpix [1] ≠ .run ∧
    exec (.wrpix [1]) writing = .next (after (.wrpix [1]) writing) :=
  ⟨⟨rfl, exec_after (by decide +kernel)⟩, by decide, by decide, exec_after (by decide +kernel)⟩

theorem witness_PanelIsUnobservable : Instr.space (.wrpix [1]) ≠ .phase ∧ ∀ k, Instr.wrpix [1] ≠ .rdpix k :=
  ⟨by decide, fun _ h => by cases h⟩

theorem witness_FaultFlagsAreSticky :
    (∃ s, step s = .next (afterStep s) ∧ s.fault.code ≠ 0 ∧ s.fault.code.toNat ≤ 4) ∧
    ∃ s, step s = .next (afterStep s) ∧ s.devu = true :=
  ⟨⟨{ presenting with fault := { code := 4, info := .nothing } }, step_after (by decide +kernel), by decide, by decide⟩,
    { presenting with devu := true }, step_after (by decide +kernel), rfl⟩

/-- R136's shape and every other demand on the parameters are met after reset. -/
theorem witness_ConfigurationIsConstant : step State.reset = .next State.reset ∧ ParametersOk State.reset :=
  ⟨rfl, by decide, by decide, Nat.succ_pos _, by decide, by decide, by decide, by decide,
    (by decide : Config.cmdBytes.Distinct), Config.initGroups_shape, by decide, by decide⟩
theorem witness_PanelStaysCanonical : step presenting = .next (afterStep presenting) ∧ PanelWf presenting :=
  ⟨presenting_step, rfl, rfl⟩

theorem witness_CachesStaySound : step presenting = .next (afterStep presenting) ∧ TextCacheOk presenting ∧
    CachesBounded presenting :=
  ⟨presenting_step, textCacheOk_base, fun c _ => ⟨Nat.zero_le c, Nat.zero_le c⟩⟩

theorem witness_ClockNeverRunsBackward : step presenting = .next (afterStep presenting) ∧ TimesPast presenting :=
  ⟨presenting_step, Nat.le_refl 0, Nat.le_refl 0, fun c h => absurd h (by simp [presenting, withHost, base])⟩

theorem witness_SequencerReturnsToIdle : step presenting = .next (afterStep presenting) ∧ SequencerIdle presenting :=
  ⟨presenting_step, fun _ => rfl⟩

end Sys2Proof.Tests
end

section
/-! SUPPORT. One equation per branch of a step (00_scope.md R4), what every small change leaves of the operation port,
and the meaning of an operation inside a callback (43_frame_scheduler.md R255). -/

namespace Sys2Proof.Machine

/-! ### One equation per branch of a step -/

theorem isPhase_iff {i : Instr} : isPhase i = true ↔ i.space = .phase := decide_eq_true_iff

theorem atStop_iff {i : Instr} {s : State} : atStop i s = true ↔ i = .tickstart ∧ s.fs.running = false := by
  simp [atStop]

/-- The port is read: its bytes decode to an operation, which is performed and then returns (30_encoding.md R92). -/
theorem step_of_decodePort {s : State} {bs : List Byte} {r : List (List Byte)} {i : Instr} (hb : s.ctl.blocked = none)
    (hm : s.ctl.micro = none) (hh : s.env.host = bs :: r) (hd : decodePort bs = .ok i) :
    step s = mapNext afterPort (exec i (s.setHost r)) := by
  simp only [step, stepPort, hb, hm, hh, hd]

/-- An internally issued operation is next: a tick phase, or a frame by itself (log entry 25). -/
theorem step_of_micro {s : State} {i : Instr} (hb : s.ctl.blocked = none) (hm : s.ctl.micro = some i) :
    step s = if isPhase i then stepPhase i s else exec i (s.setMicro none) := by
  simp only [step, hb, hm]

theorem stepPhase_of_not_stop {i : Instr} {s : State} (h : ¬ (i = .tickstart ∧ (pollStop s).fs.running = false)) :
    stepPhase i s = mapNext (afterPhase i) (exec i (pollStop s)) :=
  if_neg (mt atStop_iff.1 h)

theorem afterPort_of_idle {t : State} (hb : t.ctl.blocked = none) (hm : t.ctl.micro = none) :
    afterPort t = t.emit (.ret t.ctl.result) := by
  simp [afterPort, hb, hm, returnToHost]

/-! ### Only the step that reads the port takes an operation from it -/

theorem OpSmall.host {s t : State} (h : OpSmall s t) : t.env.host = s.env.host := by
  cases h with
  | panelCmd b => rw [(panelCmd_panelOnly b s).env]
  | panelData d => rw [(panelData_panelOnly d s).env]
  | panelRead => rw [(panelRead_panelOnly s).env]
  | panelRst l => rw [(panelRst_panelOnly l s).env]
  | env | emit | pins | setDevu | dp | text | sprite | clear | result | stall | stop | fault => rfl

theorem PhaseSmall.host {s t : State} (h : PhaseSmall s t) : t.env.host = s.env.host := by
  cases h with
  | op h => exact h.host
  | env e _ hh => exact hh
  | clock | emit | ie | fs | hang => rfl

theorem Small.host {s t : State} (h : Small s t) : t.env.host = s.env.host := by
  cases h with
  | phase h => exact h.host
  | ctl => rfl

theorem Steps.host {s t : State} (h : Steps s t) : t.env.host = s.env.host :=
  h.keeps (P := fun u => u.env.host = s.env.host) (fun _ _ hst hs => hst.host.trans hs) (Eq.refl _)

theorem step_host_of_micro {s t : State} {i : Instr} (hm : s.ctl.micro = some i) (h : step s = .next t) :
    t.env.host = s.env.host := by
  rcases step_steps h with hst | ⟨_, _, hm', _, _⟩
  · exact hst.host
  · rw [hm] at hm'
    cases hm'

/-! ### An operation of the Game is the operation of the port -/

theorem gameOp_outcome {i : Instr} (s : State) (hp : i.space = .port) (hr : i ≠ .run) :
    (gameOp i s).outcome = exec i s := by
  cases i
  case run => exact absurd rfl hr
  case tickstart | sample | edge | dispatch | gesture | update | draw | pace => cases hp
  case busCaset | busPaset | busRamwr | busRamrd | busSlpout | busDispon | busInitEntry => cases hp
  all_goals rfl

/-- Settles O4: the branches of `step`, the inversion of a step for the port, and `gameOp` arm by arm. -/
theorem stepRunsDecodedInstruction : Obligations.StepRunsDecodedInstruction := by
  refine ⟨fun s bs r i => step_of_decodePort, fun t => afterPort_of_idle, fun s i hb hm hp hs => ?phase,
    fun s i hb hm hp => ?frame, fun s t i => step_host_of_micro, fun i s => gameOp_outcome s⟩
  case phase => rw [step_of_micro hb hm, if_pos (isPhase_iff.2 hp), stepPhase_of_not_stop hs]
  case frame => rw [step_of_micro hb hm, if_neg (mt isPhase_iff.1 hp)]

end Sys2Proof.Machine
end

section
/-! SUPPORT. What every step keeps of the state (10_state.md): the configuration, FAULT and DEVU, the canonical form of
the panel, the caches. Each is shown of the small changes a step is made of (`step_keeps`). -/

namespace Sys2Proof.Machine

/-- A small change is one an operation of the port makes, or it leaves the display, the caches, the configuration and
FAULT as they are. -/
theorem Small.op_or_sameDisplay {s t : State} (h : Small s t) :
    OpSmall s t ∨ (SameDisplay s t ∧ t.fault = s.fault) := by
  cases h with
  | ctl m r => exact .inr ⟨by constructor <;> rfl, rfl⟩
  | phase h =>
    cases h with
    | op h => exact .inl h
    | env | clock | emit | ie | fs | hang => exact .inr ⟨by constructor <;> rfl, rfl⟩

/-! ### The configuration (R49) -/

theorem SameConfig.refl (s : State) : SameConfig s s := by constructor <;> rfl

theorem SameConfig.trans {s t u : State} (h : SameConfig s t) (k : SameConfig t u) : SameConfig s u where
  width := k.width.trans h.width
  height := k.height.trans h.height
  handlers := k.handlers.trans h.handlers
  thresh := k.thresh.trans h.thresh
  period := k.period.trans h.period
  par := k.par.trans h.par

theorem PanelOnly.sameConfig {s t : State} (h : PanelOnly s t) : SameConfig s t where
  width := h.cfgWidth
  height := h.cfgHeight
  handlers := h.handlers
  thresh := by rw [h.ie]
  period := by rw [h.fs]
  par := h.par

theorem OpSmall.sameConfig {s t : State} (h : OpSmall s t) : SameConfig s t := by
  cases h with
  | panelCmd b => exact (panelCmd_panelOnly b s).sameConfig
  | panelData d => exact (panelData_panelOnly d s).sameConfig
  | panelRead => exact (panelRead_panelOnly s).sameConfig
  | panelRst l => exact (panelRst_panelOnly l s).sameConfig
  | setDevu => exact (setDevu_panelOnly s).sameConfig
  | env | emit | pins | dp | text | sprite | clear | result | stall | stop | fault => constructor <;> rfl

theorem PhaseSmall.sameConfig {s t : State} (h : PhaseSmall s t) : SameConfig s t := by
  cases h with
  | op h => exact h.sameConfig
  | ie i ht _ => exact { SameConfig.refl s with thresh := ht }
  | fs f hp _ _ => exact { SameConfig.refl s with period := hp }
  | env | clock | emit | hang => constructor <;> rfl

theorem Small.sameConfig {s t : State} (h : Small s t) : SameConfig s t := by
  cases h with
  | phase h => exact h.sameConfig
  | ctl m r => constructor <;> rfl

theorem step_sameConfig {s t : State} (h : step s = .next t) : SameConfig s t :=
  step_keeps (P := SameConfig s) (fun _ _ k hs => hs.trans k.sameConfig)
    (fun _ _ hs => hs.trans (by constructor <;> rfl)) h (.refl s)

/-- The parameters' demands speak of nothing but the configuration. -/
theorem SameConfig.parametersOk {s t : State} (h : SameConfig s t) (hs : ParametersOk s) : ParametersOk t where
  width := by rw [h.width]; exact hs.width
  height := by rw [h.height]; exact hs.height
  period := by rw [h.period]; exact hs.period
  rstLow := by rw [h.par]; exact hs.rstLow
  rstHigh := by rw [h.par]; exact hs.rstHigh
  slpout := by rw [h.par]; exact hs.slpout
  dispon := by rw [h.par]; exact hs.dispon
  cmds := by rw [h.par]; exact hs.cmds
  init := by rw [h.par]; exact hs.init
  levels := by rw [h.par]; exact hs.levels
  chunk := by rw [h.par]; exact hs.chunk

/-- Settles O55: no small change writes the configuration. -/
theorem configurationIsConstant : Obligations.ConfigurationIsConstant :=
  fun _ _ h => ⟨step_sameConfig h, (step_sameConfig h).parametersOk⟩

/-! ### FAULT (R30) -/

/-- FAULT is as it was, or it was 0 and a code of R290 is latched. -/
def FaultLatched (s t : State) : Prop := t.fault = s.fault ∨ (s.fault.code = 0 ∧ t.fault.code.toNat ≤ 4)

theorem enterFault_latched (code : BitVec 8) (info : FaultInfo) (hm : code.toNat ≤ 4) (s : State) :
    FaultLatched s (enterFault code info s) := by
  unfold enterFault
  by_cases h0 : s.fault.code = 0
  · exact .inr ⟨h0, by simpa only [if_pos h0] using hm⟩
  · exact .inl (if_neg h0)

theorem OpSmall.faultLatched {s t : State} (h : OpSmall s t) : FaultLatched s t := by
  cases h with
  | fault code info _ hm => exact enterFault_latched code info hm s
  | panelCmd b => exact .inl (panelCmd_panelOnly b s).fault
  | panelData d => exact .inl (panelData_panelOnly d s).fault
  | panelRead => exact .inl (panelRead_panelOnly s).fault
  | panelRst l => exact .inl (panelRst_panelOnly l s).fault
  | env | emit | pins | setDevu | dp | text | sprite | clear | result | stall | stop => exact .inl rfl

theorem Small.faultLatched {s t : State} (h : Small s t) : FaultLatched s t := by
  rcases h.op_or_sameDisplay with k | ⟨_, hf⟩
  · exact k.faultLatched
  · exact .inl hf

theorem step_keeps_latched_fault {s t : State} (h : step s = .next t) (hs : s.fault.code ≠ 0) : t.fault = s.fault := by
  refine step_keeps (P := fun u => u.fault = s.fault) (fun u v k hu => ?_) (fun _ _ hu => hu) h rfl
  rcases k.faultLatched with hv | ⟨h0, _⟩
  · exact hv.trans hu
  · exact absurd (hu ▸ h0) hs

theorem step_keeps_fault_code_le {s t : State} (h : step s = .next t) (hs : s.fault.code.toNat ≤ 4) :
    t.fault.code.toNat ≤ 4 := by
  refine step_keeps (P := fun u => u.fault.code.toNat ≤ 4) (fun u v k hu => ?_) (fun _ _ hu => hu) h hs
  rcases k.faultLatched with hv | ⟨_, hv⟩
  · rwa [hv]
  · exact hv

/-! ### DEVU (R31) -/

/-- Once DEVU is set, whatever the panel sees leaves it set. -/
theorem OpSmall.devu {s t : State} (h : OpSmall s t) (hs : s.devu = true) : t.devu = true := by
  cases h with
  | panelCmd b => simp [Machine.panelCmd, hs]
  | panelData d => simp [Machine.panelData, hs]
  | panelRead => simp [Machine.panelRead, hs, drawByte]
  | panelRst l => cases l <;> simp [Machine.panelRst, hs]
  | setDevu => rfl
  | env | emit | pins | dp | text | sprite | clear | result | stall | stop | fault => exact hs

theorem Small.devu {s t : State} (h : Small s t) (hs : s.devu = true) : t.devu = true := by
  rcases h.op_or_sameDisplay with k | ⟨hd, _⟩
  · exact k.devu hs
  · rw [hd.devu, hs]

/-- Settles O54: a small change writes FAULT only while it is 0, and none clears DEVU. -/
theorem faultFlagsAreSticky : Obligations.FaultFlagsAreSticky :=
  ⟨rfl, rfl, fun _ _ => step_keeps_latched_fault, fun _ _ => step_keeps_fault_code_le,
    fun _ _ => step_keeps (fun _ _ => Small.devu) fun _ _ hs => hs⟩

/-! ### The panel's canonical form (R29) -/

theorem panelWf_scramble (s : State) : PanelWf (scramble s) := ⟨Memory.wf_ofCells _, cfgWf_fold _⟩

theorem panelWf_setDevu (s : State) : PanelWf (setDevu s) := panelWf_scramble _

/-- A panel with the same pixels and the same configuration bytes is as canonical. -/
theorem PanelWf.congr {s t : State} (hg : t.pan.gram = s.pan.gram) (hc : t.pan.cfg = s.pan.cfg) (h : PanelWf s) :
    PanelWf t := ⟨hg ▸ h.1, hc ▸ h.2⟩

theorem panelOnCmd_gram (c : CmdBytes) (b : Byte) (p : Panel) : (panelOnCmd c b p).gram = p.gram := by
  simp only [panelOnCmd]; split_ifs <;> rfl

theorem panelOnCmd_cfg (c : CmdBytes) (b : Byte) (p : Panel) : (panelOnCmd c b p).cfg = p.cfg := by
  simp only [panelOnCmd]; split_ifs <;> rfl

theorem panelWf_panelCmd (b : Byte) {s : State} (h : PanelWf s) : PanelWf (panelCmd b s) := by
  unfold panelCmd
  split
  · exact panelWf_scramble _
  · exact h.congr (panelOnCmd_gram _ _ _) (panelOnCmd_cfg _ _ _)

theorem panelWf_panelPixel (p : Half) {s : State} (h : PanelWf s) : PanelWf (panelPixel p s) := by
  unfold panelPixel
  split
  · exact ⟨Memory.wf_writePixel h.1 _ _ _, h.2⟩
  · exact panelWf_setDevu s

theorem panelWf_panelData (d : Byte) {s : State} (h : PanelWf s) : PanelWf (panelData d s) := by
  unfold panelData
  split
  · exact panelWf_scramble _
  split
  · split
    · exact h
    · exact panelWf_setDevu s
  split
  · split
    · exact h
    · exact panelWf_setDevu s
  split
  · split
    · exact h
    · exact panelWf_panelPixel _ h
  · exact ⟨h.1, cfgWf_cfgSet h.2 _ _⟩

theorem panelWf_panelRead {s : State} (h : PanelWf s) : PanelWf (panelRead s).2 := by
  unfold panelRead
  split
  · exact panelWf_scramble _
  split
  · split
    · split <;> exact h
    · exact h
  · exact panelWf_setDevu _

theorem panelWf_panelRst (l : Bool) {s : State} (h : PanelWf s) : PanelWf (panelRst l s) := by
  unfold panelRst
  split
  · exact h
  split
  · exact panelWf_scramble _
  · exact ⟨rfl, rfl⟩

theorem OpSmall.panelWf {s t : State} (k : OpSmall s t) (h : PanelWf s) : PanelWf t := by
  cases k with
  | panelCmd b => exact panelWf_panelCmd b h
  | panelData d => exact panelWf_panelData d h
  | panelRead => exact panelWf_panelRead h
  | panelRst l => exact panelWf_panelRst l h
  | setDevu => exact panelWf_setDevu s
  | env | emit | pins | dp | text | sprite | clear | result | stall | stop | fault => exact h

theorem Small.panelWf {s t : State} (k : Small s t) (h : PanelWf s) : PanelWf t := by
  rcases k.op_or_sameDisplay with k | ⟨hd, _⟩
  · exact k.panelWf h
  · exact h.congr (by rw [hd.pan]) (by rw [hd.pan])

/-- Settles O56: the panel operations one by one; nothing else touches the panel. -/
theorem panelStaysCanonical : Obligations.PanelStaysCanonical :=
  fun _ _ => step_keeps (fun _ _ => Small.panelWf) fun _ _ h => h

/-! ### The caches (R33, R196, R200) -/

/-- The text cache is sound and no map is over capacity. -/
def CachesSound (s : State) : Prop := TextCacheOk s ∧ CachesBounded s

theorem CachesSound.congr {s t : State} (hg : t.gs = s.gs) (hp : t.par = s.par) (h : CachesSound s) :
    CachesSound t := by
  unfold CachesSound TextCacheOk CachesBounded
  rw [hg, hp]
  exact h

theorem length_succ_le_of_hasRoom {c n : Nat} (h : hasRoom (some c) n = true) : n + 1 ≤ c := of_decide_eq_true h

theorem CachesSound.text {s : State} {key : TextKey} (h : CachesSound s) (hk : 1 ≤ key.scale)
    (hl : s.gs.tcache.lookup key = none) (hr : hasRoom s.par.cacheCapacity s.gs.tcache.length = true) :
    CachesSound { s with gs := { s.gs with tcache := s.gs.tcache ++ [(key, renderKey s.par.font key)] } } := by
  obtain ⟨⟨hent, hkeys⟩, hcap⟩ := h
  refine ⟨⟨fun e he => ?entry, ?keys⟩, fun c hc => ?bound⟩
  case entry =>
    rcases List.mem_append.1 he with he | he
    · exact hent e he
    · obtain rfl := List.mem_singleton.1 he
      exact ⟨rfl, hk⟩
  case keys =>
    have hnew : key ∉ s.gs.tcache.map Prod.fst := by
      intro hm
      obtain ⟨e, he, rfl⟩ := List.mem_map.1 hm
      exact absurd (List.lookup_eq_none_iff.1 hl e he) (by simp)
    simpa only [List.map_append, List.map_cons, List.map_nil, List.concat_eq_append] using hkeys.concat hnew
  case bound =>
    refine ⟨?_, (hcap c hc).2⟩
    rw [show s.par.cacheCapacity = some c from hc] at hr
    simpa using length_succ_le_of_hasRoom hr

theorem CachesSound.sprite {s : State} (key : SpriteKey) (spr : Sprite) (h : CachesSound s)
    (hr : hasRoom s.par.cacheCapacity s.gs.scache.length = true) :
    CachesSound { s with gs := { s.gs with scache := s.gs.scache ++ [(key, spr)] } } := by
  refine ⟨h.1, fun c hc => ⟨(h.2 c hc).1, ?_⟩⟩
  rw [show s.par.cacheCapacity = some c from hc] at hr
  simpa using length_succ_le_of_hasRoom hr

theorem cachesSound_clear (s : State) : CachesSound { s with gs := { tcache := [], scache := [] } } :=
  ⟨⟨fun _ he => (List.not_mem_nil he).elim, List.nodup_nil⟩, fun c _ => ⟨Nat.zero_le c, Nat.zero_le c⟩⟩

theorem OpSmall.cachesSound {s t : State} (k : OpSmall s t) (h : CachesSound s) : CachesSound t := by
  cases k with
  | text key hk hl hr => exact h.text hk hl hr
  | sprite key spr _ hr => exact h.sprite key spr hr
  | clear => exact cachesSound_clear s
  | panelCmd b => exact h.congr (panelCmd_panelOnly b s).gs (panelCmd_panelOnly b s).par
  | panelData d => exact h.congr (panelData_panelOnly d s).gs (panelData_panelOnly d s).par
  | panelRead => exact h.congr (panelRead_panelOnly s).gs (panelRead_panelOnly s).par
  | panelRst l => exact h.congr (panelRst_panelOnly l s).gs (panelRst_panelOnly l s).par
  | env | emit | pins | setDevu | dp | result | stall | stop | fault => exact h

theorem Small.cachesSound {s t : State} (k : Small s t) (h : CachesSound s) : CachesSound t := by
  rcases k.op_or_sameDisplay with k | ⟨hd, _⟩
  · exact k.cachesSound h
  · exact h.congr hd.gs hd.par

/-- Settles O57: only a memoised sprite and CLEARCACHES touch the caches. -/
theorem cachesStaySound : Obligations.CachesStaySound :=
  fun _ _ => step_keeps (P := CachesSound) (fun _ _ => Small.cachesSound) fun _ _ h => h

end Sys2Proof.Machine
end

section
/-! SUPPORT. DP.ST comes back to DP_IDLE (10_state.md R24): an operation that completed wrote it last, one in which a
fault was raised had it written by fault entry (log entry 8), and any other is stuck in a transfer (60_exceptions.md
R303). -/

namespace Sys2Proof.Machine

/-! ### An operation that completes -/

/-- If the piece completed, DP.ST is idle. -/
def Run.CompletesIdle {α : Type} (r : Run α) : Prop :=
  match r with
  | .live _ t => t.dp.st = .idle
  | .dead _ => True

theorem completesIdle_bind {α β : Type} (r : Run α) {k : α → State → Run β} (hk : ∀ a t, (k a t).CompletesIdle) :
    (r.bind k).CompletesIdle := by
  cases r with
  | live a t => exact hk a t
  | dead t => trivial

theorem completesIdle_andThen {α : Type} (r : Run Unit) {k : State → Run α} (hk : ∀ t, (k t).CompletesIdle) :
    (r.andThen k).CompletesIdle := completesIdle_bind r fun _ t => hk t

/-- A piece that completes idle, and one that keeps that. -/
theorem Run.CompletesIdle.bind {α β : Type} {r : Run α} {k : α → State → Run β} (h : r.CompletesIdle)
    (hk : ∀ a t, t.dp.st = .idle → (k a t).CompletesIdle) : (r.bind k).CompletesIdle := by
  cases r with
  | live a t => exact hk a t h
  | dead t => trivial

theorem Run.CompletesIdle.finish {r : Run Unit} (h : r.CompletesIdle) (res : Result) :
    (r.andThen (finish res)).CompletesIdle := h.bind fun _ _ ht => ht

theorem completesIdle_dpReset (s : State) : (dpReset s).CompletesIdle :=
  completesIdle_andThen _ fun _ => completesIdle_andThen _ fun _ => completesIdle_andThen _ fun _ =>
    completesIdle_andThen _ fun _ => rfl

theorem completesIdle_dpInit (s : State) : (dpInit s).CompletesIdle :=
  completesIdle_andThen _ fun _ => completesIdle_andThen _ fun _ => completesIdle_andThen _ fun _ =>
    completesIdle_andThen _ fun _ => completesIdle_andThen _ fun _ => rfl

theorem completesIdle_sendWindow (ram : State → Run Unit) (mode : StreamMode) (x0 y0 x1 y1 : Half) (s : State) :
    (sendWindow ram mode x0 y0 x1 y1 s).CompletesIdle :=
  completesIdle_andThen _ fun _ => completesIdle_andThen _ fun _ => completesIdle_andThen _ fun _ => rfl

theorem completesIdle_dpWrpix (buf : List Byte) (s : State) : (dpWrpix buf s).CompletesIdle :=
  completesIdle_andThen _ fun _ => rfl

theorem completesIdle_dpRdpix (n : Nat) (s : State) : (dpRdpix n s).CompletesIdle :=
  completesIdle_bind _ fun _ _ => rfl

theorem completesIdle_frameAlone (r : Run Unit) : (frameAlone r).CompletesIdle := completesIdle_andThen _ fun _ => rfl

theorem completesIdle_streamRep (fuel k left : Nat) (color : Half) {s : State} (h : s.dp.st = .idle) :
    (streamRep fuel k left color s).CompletesIdle := by
  induction fuel generalizing left s with
  | zero => exact h
  | succ n ih =>
    unfold streamRep
    split
    · exact h
    · exact (completesIdle_dpWrpix _ s).bind fun _ _ ht => ih _ ht

theorem completesIdle_gsFillrect (x y w h : Int) (color : Half) {s : State} (hs : s.dp.st = .idle) :
    (gsFillrect x y w h color s).CompletesIdle := by
  unfold gsFillrect
  split
  · exact (completesIdle_sendWindow ..).bind fun _ _ ht => completesIdle_streamRep _ _ _ _ ht
  · exact hs

theorem completesIdle_gsSafefillrect (x y w h : Int) (color : Half) {s : State} (hs : s.dp.st = .idle) :
    (gsSafefillrect x y w h color s).CompletesIdle := by
  simp only [gsSafefillrect]
  split
  · exact hs
  · exact completesIdle_gsFillrect _ _ _ _ _ hs

theorem completesIdle_gsLoadsprite (key : SpriteKey) {s : State} (h : s.dp.st = .idle) :
    (gsLoadsprite key s).CompletesIdle := by
  unfold gsLoadsprite
  split
  · exact h
  · simp only [loadMiss]
    split
    · trivial
    · split <;> exact h

/-- If the operation completed, DP.ST is idle. -/
def Play.CompletesIdle (p : Play) : Prop := p.live = true → p.st.dp.st = .idle

theorem completesIdle_ofRun {r : Run Unit} (h : r.CompletesIdle) : (Play.ofRun r).CompletesIdle := by
  cases r with
  | live a t => exact fun _ => h
  | dead t => exact fun hl => nomatch hl

theorem completesIdle_refuse (why : Refusal) (s : State) : (Play.refuse why s).CompletesIdle := fun hl => nomatch hl

theorem completesIdle_opBlit (x y x1 y1 : Int) (buf : List Byte) (s : State) :
    (opBlit x y x1 y1 buf s).CompletesIdle := by
  unfold opBlit
  split
  · exact completesIdle_ofRun (Run.CompletesIdle.finish (completesIdle_andThen _ (completesIdle_dpWrpix buf)) _)
  · exact completesIdle_refuse _ s

theorem completesIdle_gameOp (i : Instr) {s : State} (hs : s.dp.st = .idle) : (gameOp i s).CompletesIdle := by
  cases i with
  | reset => exact completesIdle_ofRun ((completesIdle_dpReset s).finish _)
  | init => exact completesIdle_ofRun ((completesIdle_dpInit s).finish _)
  | setwin x0 y0 x1 y1 =>
    simp only [gameOp, opSetwin]
    split
    · exact completesIdle_ofRun ((completesIdle_sendWindow ..).finish _)
    · exact completesIdle_refuse _ s
  | setwinrd x0 y0 x1 y1 =>
    simp only [gameOp, opSetwinrd]
    split
    · exact completesIdle_ofRun ((completesIdle_sendWindow ..).finish _)
    · exact completesIdle_refuse _ s
  | wrpix buf => exact completesIdle_ofRun ((completesIdle_dpWrpix buf s).finish _)
  | rdpix n => exact completesIdle_ofRun ((completesIdle_dpRdpix n s).bind fun _ _ ht => ht)
  | clear color => exact completesIdle_ofRun ((completesIdle_gsFillrect _ _ _ _ _ hs).finish _)
  | fillrect x y w h color => exact completesIdle_ofRun ((completesIdle_gsFillrect _ _ _ _ _ hs).finish _)
  | safefillrect x y w h color => exact completesIdle_ofRun ((completesIdle_gsSafefillrect _ _ _ _ _ hs).finish _)
  | drawimage x y w h buf => exact completesIdle_opBlit _ _ _ _ _ _
  | drawtext x y text color bg scale =>
    simp only [gameOp, opDrawtext]
    split
    · exact completesIdle_opBlit _ _ _ _ _ _
    · exact completesIdle_opBlit _ _ _ _ _ _
  | loadsprite name w h => exact completesIdle_ofRun ((completesIdle_gsLoadsprite _ hs).bind fun _ _ ht => ht)
  | textsize | rendertext | clearcaches | stop => exact fun _ => hs
  | run | tickstart | sample | edge | dispatch | gesture | update | draw | pace => exact completesIdle_refuse _ s
  | busCaset | busPaset | busRamwr | busRamrd | busSlpout | busDispon | busInitEntry => exact completesIdle_refuse _ s

/-! ### An operation that does not complete -/

/-- No thread hangs in the Game or the provider: if it is stuck at all, it is in a transfer. -/
def OnlyBusBlocks (s : State) : Prop := s.ctl.blocked.isSome = true → s.ctl.blocked = some .bus

theorem OnlyBusBlocks.congr {s t : State} (h : OnlyBusBlocks s) (hc : t.ctl = s.ctl) : OnlyBusBlocks t := by
  unfold OnlyBusBlocks
  rwa [hc]

/-- Operations of the port call neither the Game nor the provider, so they get stuck in a transfer only. -/
theorem OpSmall.onlyBusBlocks {s t : State} (k : OpSmall s t) (h : OnlyBusBlocks s) : OnlyBusBlocks t := by
  cases k with
  | stall => exact fun _ => rfl
  | panelCmd b => exact h.congr (panelCmd_panelOnly b s).ctl
  | panelData d => exact h.congr (panelData_panelOnly d s).ctl
  | panelRead => exact h.congr (panelRead_panelOnly s).ctl
  | panelRst l => exact h.congr (panelRst_panelOnly l s).ctl
  | env | emit | pins | setDevu | dp | text | sprite | clear | result | stop | fault => exact h

theorem OpSteps.onlyBusBlocks {s t : State} (h : OpSteps s t) (hs : OnlyBusBlocks s) : OnlyBusBlocks t :=
  h.keeps (fun _ _ => OpSmall.onlyBusBlocks) hs

theorem onlyBusBlocks_of_none {s : State} (h : s.ctl.blocked = none) : OnlyBusBlocks s := fun hb => by simp [h] at hb

theorem sequencerIdle_of_idle {s : State} (h : s.dp.st = .idle) : SequencerIdle s := fun _ => h

/-- Stuck, or in fault entry: the two ways in which an operation of the port does not complete (`Run.Ends`). -/
theorem sequencerIdle_of_stopped {f : FaultRegs} {t : State} (hb : OnlyBusBlocks t)
    (h : t.ctl.blocked.isSome = true ∨ Faulted f t) : SequencerIdle t := by
  rcases h with h | ⟨code, info, u, _, _, rfl⟩
  · exact fun hn => absurd (hb h) hn
  · exact sequencerIdle_of_idle rfl

/-! ### Everything an operation can end in -/

/-- Idle and, if stuck, in a transfer: where each operation of a step begins. -/
def AtRest (s : State) : Prop := s.dp.st = .idle ∧ OnlyBusBlocks s

/-- How an operation leaves the sequencer: at rest if it completed; idle or in a stalled transfer if it was abandoned.
A refusal leaves no next state. -/
def Play.EndsIdle (p : Play) : Prop :=
  (p.live = true → AtRest p.st) ∧ (p.live = false → p.refusal = none → SequencerIdle p.st)

theorem endsIdle_done {s : State} (h : AtRest s) : (Play.done s).EndsIdle := ⟨fun _ => h, fun hl => nomatch hl⟩

theorem endsIdle_andThen {p : Play} {k : State → Play} (h : p.EndsIdle) (hk : ∀ t, AtRest t → (k t).EndsIdle) :
    (p.andThen k).EndsIdle := by
  unfold Play.andThen
  split
  · rename_i hl
    exact hk _ (h.1 hl)
  · exact h

/-- An operation made of the changes of the port: what it does when it completes and how it stops otherwise are known. -/
theorem endsIdle_of_opSteps {f : FaultRegs} {s : State} {p : Play} (hs : OnlyBusBlocks s) (hst : OpSteps s p.st)
    (hc : p.CompletesIdle) (he : p.Ends f) : p.EndsIdle :=
  ⟨fun hl => ⟨hc hl, hst.onlyBusBlocks hs⟩, fun hl hr => sequencerIdle_of_stopped (hst.onlyBusBlocks hs) (he.2 hl hr)⟩

theorem endsIdle_gameOp (i : Instr) {s : State} (h : AtRest s) : (gameOp i s).EndsIdle :=
  endsIdle_of_opSteps h.2 (steps_gameOp i s) (completesIdle_gameOp i h.1) (ends_gameOp i rfl)

theorem endsIdle_gameBytes (bs : List Byte) {s : State} (h : AtRest s) : (gameBytes bs s).EndsIdle := by
  unfold gameBytes
  split
  · exact endsIdle_gameOp _ h
  · exact ⟨fun hl => (nomatch hl), fun _ hr => nomatch hr⟩

theorem endsIdle_gameOps (ops : List (List Byte)) {s : State} (h : AtRest s) : (gameOps ops s).EndsIdle := by
  induction ops generalizing s with
  | nil => exact endsIdle_done h
  | cons bs r ih => exact endsIdle_andThen (endsIdle_gameBytes bs h) fun _ ht => ih ht

/-! ### Callbacks and tick phases -/

theorem endsIdle_closeCallback (c : Callback) (r : Reply) {s : State} (h : AtRest s) :
    (Play.ofRun (closeCallback c r s)).EndsIdle := by
  cases r with
  | ok b => exact endsIdle_done h
  | fail => exact ⟨fun hl => (nomatch hl), fun _ _ => sequencerIdle_of_idle rfl⟩
  | never => exact ⟨fun hl => (nomatch hl), fun _ _ => sequencerIdle_of_idle h.1⟩

theorem endsIdle_failCallback (c : Callback) {p : Play} (h : p.EndsIdle) : (failCallback c p).EndsIdle := by
  unfold failCallback
  split
  · exact h
  · exact h

theorem endsIdle_callGame (c : Callback) {s : State} (h : AtRest s) : (callGame c s).EndsIdle :=
  endsIdle_andThen (endsIdle_failCallback c (endsIdle_gameOps _ h)) fun _ ht => endsIdle_closeCallback c _ ht

theorem endsIdle_callHandlers (ks : List (Fin 6)) {s : State} (h : AtRest s) : (callHandlers ks s).EndsIdle := by
  induction ks generalizing s with
  | nil => exact endsIdle_done h
  | cons k r ih =>
    refine endsIdle_andThen ?_ fun _ ht => ih ht
    split
    · exact endsIdle_callGame _ h
    · exact endsIdle_done h

theorem endsIdle_ieSample {s : State} (h : AtRest s) : (Play.ofRun (ieSample s)).EndsIdle := by
  simp only [ieSample]
  split
  · split
    · exact endsIdle_done h
    · exact ⟨fun hl => (nomatch hl), fun _ _ => sequencerIdle_of_idle rfl⟩
    · exact ⟨fun hl => (nomatch hl), fun _ _ => sequencerIdle_of_idle h.1⟩
  · exact endsIdle_done h

theorem endsIdle_ieGesture {s : State} (h : AtRest s) : (ieGesture s).EndsIdle := by
  simp only [ieGesture]
  split
  · split
    · refine endsIdle_andThen ?_ fun _ ht => endsIdle_done ht
      split
      · exact endsIdle_callGame _ h
      · exact endsIdle_done h
    · exact endsIdle_done h
  · exact endsIdle_done h

theorem endsIdle_drawAndPresent {s : State} (h : AtRest s) : (drawAndPresent s).EndsIdle :=
  endsIdle_andThen (endsIdle_callGame _ h) fun _ ht => endsIdle_done ht

theorem endsIdle_fsDraw {s : State} (h : AtRest s) : (fsDraw s).EndsIdle := by
  simp only [fsDraw]
  split
  · refine endsIdle_andThen (endsIdle_callGame _ h) fun t ht => ?_
    split
    · exact endsIdle_drawAndPresent ht
    · exact endsIdle_done ht
  · exact endsIdle_drawAndPresent h

/-! ### exec and step -/

theorem Play.EndsIdle.outcome {p : Play} {t : State} (h : p.EndsIdle) (ho : p.outcome = .next t) :
    SequencerIdle t := by
  unfold Play.outcome at ho
  split at ho
  · rename_i hr
    cases ho
    cases hl : p.live with
    | true => exact sequencerIdle_of_idle (h.1 hl).1
    | false => exact h.2 hl hr
  · cases ho

/-- A frame by itself ends idle from any state: it writes DP.ST last. -/
theorem sequencerIdle_frameAlone {f : FaultRegs} {r : Run Unit} {s t : State} (hs : OnlyBusBlocks s)
    (hst : OpSteps s r.state) (he : r.Ends f) (h : (Play.ofRun (frameAlone r)).outcome = .next t) : SequencerIdle t :=
  Play.EndsIdle.outcome (endsIdle_of_opSteps hs (p := .ofRun (frameAlone r)) (steps_frameAlone hst)
    (completesIdle_ofRun (completesIdle_frameAlone r)) (ends_ofRun (ends_andThen he fun _ ht => ht))) h

theorem exec_sequencerIdle {i : Instr} {s t : State} (hs : AtRest s) (h : exec i s = .next t) : SequencerIdle t := by
  by_cases hp : i.space = .port ∧ i ≠ .run
  · rw [← gameOp_outcome s hp.1 hp.2] at h
    exact (endsIdle_gameOp i hs).outcome h
  cases i with
  | run | tickstart => cases h; exact sequencerIdle_of_idle hs.1
  | sample => exact (endsIdle_ieSample hs).outcome h
  | edge => exact (endsIdle_done (s := ieEdge s) hs).outcome h
  | dispatch => exact (endsIdle_callHandlers _ (s := s.setPh 3) hs).outcome h
  | gesture => exact (endsIdle_ieGesture hs).outcome h
  | update => exact (endsIdle_callGame _ (s := s.setPh 5) hs).outcome h
  | draw => exact (endsIdle_fsDraw hs).outcome h
  | pace =>
    simp only [exec, execPace] at h
    split at h <;> (cases h; exact sequencerIdle_of_idle hs.1)
  | busCaset x0 x1 => exact sequencerIdle_frameAlone hs.2 (steps_frameCaset x0 x1 s) (ends_frameCaset x0 x1 rfl) h
  | busPaset y0 y1 => exact sequencerIdle_frameAlone hs.2 (steps_framePaset y0 y1 s) (ends_framePaset y0 y1 rfl) h
  | busRamwr => exact sequencerIdle_frameAlone hs.2 (steps_frameRamwr s) (ends_busCmd _ rfl) h
  | busRamrd => exact sequencerIdle_frameAlone hs.2 (steps_frameRamrd s) (ends_busCmd _ rfl) h
  | busSlpout => exact sequencerIdle_frameAlone hs.2 (steps_frameSlpout s) (ends_busCmd _ rfl) h
  | busDispon => exact sequencerIdle_frameAlone hs.2 (steps_frameDispon s) (ends_busCmd _ rfl) h
  | busInitEntry c ps =>
    exact sequencerIdle_frameAlone hs.2 (steps_frameInitEntry c ps s) (ends_frameInitEntry c ps rfl) h
  | _ => exact absurd ⟨rfl, by simp⟩ hp

theorem sequencerIdle_afterPhase (i : Instr) {s : State} (h : SequencerIdle s) : SequencerIdle (afterPhase i s) := by
  unfold afterPhase
  split
  · exact h
  split
  · exact h
  · unfold advance
    split <;> exact h

theorem sequencerIdle_afterPort {s : State} (h : SequencerIdle s) : SequencerIdle (afterPort s) := by
  unfold afterPort
  split <;> exact h

theorem step_blocked_none {s t : State} (h : step s = .next t) : s.ctl.blocked = none := by
  unfold step at h
  split at h
  · cases h
  · assumption

/-- Settles O59: a step begins at rest, exec ends idle or in a stalled transfer, and what follows exec leaves DP.ST. -/
theorem sequencerReturnsToIdle : Obligations.SequencerReturnsToIdle := by
  intro s t h hs
  have hb : s.ctl.blocked = none := step_blocked_none h
  have hrest : AtRest s := ⟨hs (by simp [hb]), onlyBusBlocks_of_none hb⟩
  simp only [step, hb] at h
  split at h
  case h_1 i _ =>
    split at h
    case isTrue =>
      unfold stepPhase at h
      split at h
      · cases h
        exact sequencerIdle_of_idle hrest.1
      · obtain ⟨u, hu, rfl⟩ := mapNext_next h
        exact sequencerIdle_afterPhase i (exec_sequencerIdle (s := pollStop s) hrest hu)
    case isFalse => exact exec_sequencerIdle (s := s.setMicro none) hrest h
  case h_2 =>
    split at h
    case h_1 => cases h; exact hs
    case h_2 bs r _ =>
      unfold stepPort at h
      split at h
      · obtain ⟨u, hu, rfl⟩ := mapNext_next h
        exact sequencerIdle_afterPort (exec_sequencerIdle (s := s.setHost r) hrest hu)
      · cases h

end Sys2Proof.Machine
end

section
/-! SUPPORT. The pixel streams of the reference panel (20_memory.md R71, R78, R82, R83) as WRPIX and RDPIX meet them. -/

namespace Sys2Proof.Machine

/-! ### A WRITE stream -/

/-- A defined panel that has taken the RAM write command and whose window is valid can go on with its stream. -/
theorem Ready.writing {s : State} (hr : Ready s) (hc : s.pan.cmd = s.par.cmds.ramwr) (hm : s.pan.mode = .write)
    (hv : panWindowValid s = true) : Writing s :=
  ⟨hr.defined, hc, hm, (distinct_ram hr.distinct).1, (distinct_ram hr.distinct).2, hv⟩

/-- The columns of a valid panel window end before 65536. -/
theorem panWindow_columns {s : State} (hv : panWindowValid s = true) : s.pan.xs.toNat + s.pan.winW ≤ 65536 := by
  have h := winValid_iff.1 hv
  have := s.pan.xe.isLt
  unfold Panel.winW
  omega

/-- Settles O14: WRPIX sends the panel its bytes as they are, and `sentData_paint` says where they land. -/
theorem wrpixPaintsStream : Obligations.WrpixPaintsStream := by
  intro s buf hr hm hc hpm hv bytes n w h cellX cellY
  obtain ⟨hpan, hdevu, _⟩ := wrpixDone_panel buf (hr.streamDevu hm)
  obtain ⟨hfits, hover⟩ := sentData_paint buf (hr.writing hc hpm hv)
  refine ⟨_, execWrpix_quiet buf hr.quiet, fun hn => ?fits, fun hn => hdevu.trans (hover hn)⟩
  obtain ⟨hd, hp⟩ := hfits hn
  have hp' : (wrpixDone buf s).pan = _ := hpan.trans hp
  refine ⟨hdevu.trans hd, ?panel, fun k hk => ?cell, fun a ha => ?frame⟩ <;> rw [State.setResult_pan, hp']
  case panel => rfl
  case cell => exact readPixel_paint (Nat.succ_pos _) (panWindow_columns hv) bytes s.pan.ptr s.pan.gram k hk
  case frame => exact read_paint_outside _ _ _ bytes s.pan.ptr s.pan.gram a ha

/-! ### A stream may be cut anywhere (R78) -/

/-- The panel cannot tell the two states apart: they hold the same panel, ghost flags, parameters and surface. -/
structure PanelAlike (s t : State) : Prop where
  pan : t.pan = s.pan
  devu : t.devu = s.devu
  draws : t.draws = s.draws
  par : t.par = s.par
  cfgWidth : t.cfgWidth = s.cfgWidth
  cfgHeight : t.cfgHeight = s.cfgHeight

theorem PanelAlike.trans {s t u : State} (h : PanelAlike s t) (k : PanelAlike t u) : PanelAlike s u :=
  ⟨k.pan.trans h.pan, k.devu.trans h.devu, k.draws.trans h.draws, k.par.trans h.par, k.cfgWidth.trans h.cfgWidth,
    k.cfgHeight.trans h.cfgHeight⟩

/-- What the panel does with a pixel rests on nothing else (R80). -/
theorem PanelAlike.panelPixel (x : Half) {s t : State} (h : PanelAlike s t) :
    PanelAlike (panelPixel x s) (panelPixel x t) := by
  obtain ⟨hp, hd, hn, hpar, hw, hh⟩ := h
  have hok : streamOk t = streamOk s := by
    simp only [streamOk, panWindowValid, State.width, State.height, hp, hw, hh]
  unfold Machine.panelPixel
  rw [hok]
  split
  · constructor <;> simp [*]
  · constructor <;> simp [*]

/-- So does what it does with a data byte. -/
theorem PanelAlike.panelData (d : Byte) {s t : State} (h : PanelAlike s t) :
    PanelAlike (panelData d s) (panelData d t) := by
  have hx := h.panelPixel
  obtain ⟨hp, hd, hn, hpar, hw, hh⟩ := h
  unfold Machine.panelData
  rw [hp, hd, hpar]
  split
  · constructor <;> simp [*]
  split
  · split <;> constructor <;> simp [*]
  split
  · split <;> constructor <;> simp [*]
  split
  · split
    · constructor <;> simp [*]
    · exact hx _
  · constructor <;> simp [*]

theorem PanelAlike.sentData (bs : List Byte) {s t : State} (h : PanelAlike s t) :
    PanelAlike (sentData bs s) (sentData bs t) := by
  induction bs generalizing s t with
  | nil => exact h
  | cons b r ih => exact ih (PanelAlike.panelData b ⟨h.pan, h.devu, h.draws, h.par, h.cfgWidth, h.cfgHeight⟩)

/-- A stream sent in its own mode leaves the panel where its bytes leave it. -/
theorem wrpixDone_panelAlike (buf : List Byte) {s : State} (h : streamDevu s .write = false) :
    PanelAlike (sentData buf s) (wrpixDone buf s) := by
  obtain ⟨hp, hd, hn⟩ := wrpixDone_panel buf h
  have hw := wrpixDone_dpOnly buf s
  have hb := sentData_keeps buf s
  exact ⟨hp, hd, hn, hw.par.trans hb.par.symm, hw.cfgWidth.trans hb.cfgWidth.symm,
    hw.cfgHeight.trans hb.cfgHeight.symm⟩

/-- The stream sets DEVU itself outside its mode. -/
theorem wrpixDone_devu_of_streamDevu (buf : List Byte) {s : State} (h : streamDevu s .write = true) :
    (wrpixDone buf s).devu = true :=
  dataDone_devu _ _ (by simp [h])

/-- WRPIX writes nothing that decides whether a stream sets DEVU. -/
theorem streamDevu_wrpixDone (buf : List Byte) (s : State) (r : Result) :
    streamDevu ((wrpixDone buf s).setResult r) .write = streamDevu s .write := by
  simp [streamDevu, wrpixDone_dp]

/-- In its own mode a stream cut in two leaves the panel where the bytes of both parts leave it. -/
theorem wrpixDone_wrpixDone_panelAlike (a b : List Byte) (r : Result) {s : State} (h : streamDevu s .write = false) :
    PanelAlike (sentData (a ++ b) s) (wrpixDone b ((wrpixDone a s).setResult r)) := by
  have ha := wrpixDone_panelAlike a h
  have har : PanelAlike (sentData a s) ((wrpixDone a s).setResult r) :=
    ⟨ha.pan, ha.devu, ha.draws, ha.par, ha.cfgWidth, ha.cfgHeight⟩
  rw [sentData_append]
  exact (har.sentData b).trans (wrpixDone_panelAlike b ((streamDevu_wrpixDone a s r).trans h))

/-- Settles O15: in its own mode the stream is its bytes, cut or whole; in another both ways set DEVU. -/
theorem wrpixSplitsAnywhere : Obligations.WrpixSplitsAnywhere := by
  intro s a b hq
  have hqa : Quiet ((wrpixDone a s).setResult .nothing) := (wrpixDone_dpOnly a s).quiet hq
  refine ⟨_, _, _, execWrpix_quiet a hq, execWrpix_quiet b hqa, execWrpix_quiet (a ++ b) hq, ?flat, ?devu, ?dp,
    fun hm hi => ?pan⟩
  case flat => simp [wrpixDone_flat]
  case dp => simp [wrpixDone_dp]
  case devu =>
    cases h : streamDevu s .write
    case false => exact (wrpixDone_wrpixDone_panelAlike a b .nothing h).devu.trans (wrpixDone_panelAlike _ h).devu.symm
    case true =>
      exact (wrpixDone_devu_of_streamDevu b ((streamDevu_wrpixDone a s .nothing).trans h)).trans
        (wrpixDone_devu_of_streamDevu (a ++ b) h).symm
  case pan =>
    have h : streamDevu s .write = false := by simp [streamDevu, hm, hi]
    exact (wrpixDone_wrpixDone_panelAlike a b .nothing h).pan.trans (wrpixDone_panelAlike _ h).pan.symm

/-! ### A READ stream -/

/-- Settles O16: RDPIX hands on the bytes of the stream, and `rdpixDone_read` says which pixels they are. -/
theorem rdpixReturnsPixels : Obligations.RdpixReturnsPixels := by
  intro s n hr hm hpm hb hv w h cellX cellY
  obtain ⟨hfits, hover⟩ := rdpixDone_read n (hr.streamDevu hm) ⟨hr.defined, hpm, hv, hb⟩
  exact ⟨_, _, execRdpix_quiet n hr.quiet, rfl, (rdpixDone_flat n s).1, hfits, hover⟩

end Sys2Proof.Machine
end

section
/-! SUPPORT. What a command frame by itself does to the reference panel (20_memory.md R81, R82; log entry 25). -/

namespace Sys2Proof.Machine

/-! ### A command byte -/

/-- The six named commands, pair by pair. -/
theorem CmdBytes.distinct_iff {c : CmdBytes} : c.Distinct ↔
    (c.caset ≠ c.paset ∧ c.caset ≠ c.ramwr ∧ c.caset ≠ c.ramrd ∧ c.caset ≠ c.slpout ∧
      c.caset ≠ c.dispon) ∧
    (c.paset ≠ c.ramwr ∧ c.paset ≠ c.ramrd ∧ c.paset ≠ c.slpout ∧ c.paset ≠ c.dispon) ∧
    (c.ramwr ≠ c.ramrd ∧ c.ramwr ≠ c.slpout ∧ c.ramwr ≠ c.dispon) ∧
    (c.ramrd ≠ c.slpout ∧ c.ramrd ≠ c.dispon) ∧ c.slpout ≠ c.dispon := by
  simp [CmdBytes.Distinct, CmdBytes.all]

/-- A command byte that opens no stream and sets no mode only ends what was before it. -/
theorem panelOnCmd_of_plain {c : CmdBytes} {b : Byte} (p : Panel) (hwr : b ≠ c.ramwr) (hrd : b ≠ c.ramrd)
    (hsl : b ≠ c.slpout) (hon : b ≠ c.dispon) :
    panelOnCmd c b p = { p with cmd := b, np := 0, hb := none, mode := .none } := by
  simp [panelOnCmd, hwr, hrd, hsl, hon]

theorem panelOnCmd_caset {c : CmdBytes} (hc : c.Distinct) (p : Panel) :
    panelOnCmd c c.caset p = { p with cmd := c.caset, np := 0, hb := none, mode := .none } := by
  obtain ⟨⟨_, hwr, hrd, hsl, hon⟩, _⟩ := CmdBytes.distinct_iff.1 hc
  exact panelOnCmd_of_plain p hwr hrd hsl hon

theorem panelOnCmd_paset {c : CmdBytes} (hc : c.Distinct) (p : Panel) :
    panelOnCmd c c.paset p = { p with cmd := c.paset, np := 0, hb := none, mode := .none } := by
  obtain ⟨_, ⟨hwr, hrd, hsl, hon⟩, _⟩ := CmdBytes.distinct_iff.1 hc
  exact panelOnCmd_of_plain p hwr hrd hsl hon

theorem panelOnCmd_ramwr (c : CmdBytes) (p : Panel) :
    panelOnCmd c c.ramwr p = { p with cmd := c.ramwr, np := 0, hb := none, mode := .write, ptr := 0 } := by
  simp [panelOnCmd]

theorem panelOnCmd_ramrd {c : CmdBytes} (hc : c.Distinct) (p : Panel) :
    panelOnCmd c c.ramrd p = { p with cmd := c.ramrd, np := 0, hb := none, mode := .read, ptr := 0 } := by
  obtain ⟨_, _, ⟨hwr, _⟩, _⟩ := CmdBytes.distinct_iff.1 hc
  simp [panelOnCmd, hwr.symm]

theorem panelOnCmd_slpout {c : CmdBytes} (hc : c.Distinct) (p : Panel) :
    panelOnCmd c c.slpout p = { p with cmd := c.slpout, np := 0, hb := none, mode := .none, awake := true } := by
  obtain ⟨_, _, ⟨_, hwr, _⟩, ⟨hrd, _⟩, _⟩ := CmdBytes.distinct_iff.1 hc
  simp [panelOnCmd, hwr.symm, hrd.symm]

theorem panelOnCmd_dispon {c : CmdBytes} (hc : c.Distinct) (p : Panel) :
    panelOnCmd c c.dispon p = { p with cmd := c.dispon, np := 0, hb := none, mode := .none, on := true } := by
  obtain ⟨_, _, ⟨_, _, hwr⟩, ⟨_, hrd⟩, hsl⟩ := CmdBytes.distinct_iff.1 hc
  simp [panelOnCmd, hwr.symm, hrd.symm, hsl.symm]

/-- A handshake entry's command is none of the six. -/
theorem panelOnCmd_of_not_mem {c : CmdBytes} {b : Byte} (hb : b ∉ c.all) (p : Panel) :
    panelOnCmd c b p = { p with cmd := b, np := 0, hb := none, mode := .none } := by
  simp only [CmdBytes.all, List.mem_cons, List.not_mem_nil, or_false, not_or] at hb
  obtain ⟨_, _, hwr, hrd, hsl, hon⟩ := hb
  exact panelOnCmd_of_plain p hwr hrd hsl hon

/-! ### Parameter bytes of a handshake entry -/

theorem cfgGet_cfgSet_of_ne {m : List (Byte × List Byte)} {k j : Byte} (ps : List Byte) (h : j ≠ k) :
    cfgGet (cfgSet m k ps) j = cfgGet m j := by
  have hjk : (j == k) = false := by simpa using h
  induction m with
  | nil => simp [cfgSet, cfgGet, List.lookup_cons, hjk]
  | cons c r ih =>
    obtain ⟨i, qs⟩ := c
    simp only [cfgSet]
    split
    · simp [cfgGet, List.lookup_cons, hjk]
    · split
      · rename_i hki
        subst hki
        simp [cfgGet, List.lookup_cons, hjk]
      · simp only [cfgGet, List.lookup_cons] at ih ⊢
        split
        · rfl
        · exact ih

/-- The row of PAN.CFG that parameter bytes leave: the first byte after the command starts it anew (R82). -/
def cfgRow (np : Nat) (row ps : List Byte) : List Byte :=
  if ps = [] then row else (if np = 0 then [] else row) ++ ps

theorem cfgRow_cons (np : Nat) (row : List Byte) (d : Byte) (r : List Byte) :
    cfgRow np row (d :: r) = cfgRow (np + 1) (cfgRow np row [d]) r := by
  by_cases h : r = [] <;> simp [cfgRow, h]

/-- The panel takes the parameters of an entry. -/
structure TakesParams (s : State) : Prop where
  defined : s.devu = false
  caset : s.pan.cmd ≠ s.par.cmds.caset
  paset : s.pan.cmd ≠ s.par.cmds.paset
  mode : s.pan.mode ≠ .write

/-- A byte of a handshake entry goes to the end of its row. -/
theorem TakesParams.panelData {s : State} (h : TakesParams s) (d : Byte) :
    panelData d s = { s with pan := { s.pan with
      cfg := cfgSet s.pan.cfg s.pan.cmd (cfgRow s.pan.np (cfgGet s.pan.cfg s.pan.cmd) [d]), np := s.pan.np + 1 } } := by
  simp [Machine.panelData, h.defined, h.caset, h.paset, h.mode, cfgRow]

/-- The parameter bytes fill the row of their command, and no other. -/
theorem TakesParams.sentData (ps : List Byte) {s : State} (h : TakesParams s) :
    (sentData ps s).devu = false ∧
      ∃ cfg, (sentData ps s).pan = { s.pan with np := s.pan.np + ps.length, cfg := cfg } ∧
      cfgGet cfg s.pan.cmd = cfgRow s.pan.np (cfgGet s.pan.cfg s.pan.cmd) ps ∧
      ∀ k, k ≠ s.pan.cmd → cfgGet cfg k = cfgGet s.pan.cfg k := by
  induction ps generalizing s with
  | nil => exact ⟨h.defined, s.pan.cfg, rfl, rfl, fun _ _ => rfl⟩
  | cons d r ih =>
    have he : TakesParams (s.emit (.dat d)) := ⟨h.defined, h.caset, h.paset, h.mode⟩
    simp only [Machine.sentData, he.panelData d]
    obtain ⟨hd, cfg, hpan, hrow, hrest⟩ := ih (s := { s.emit (.dat d) with pan := { s.pan with
      cfg := cfgSet s.pan.cfg s.pan.cmd (cfgRow s.pan.np (cfgGet s.pan.cfg s.pan.cmd) [d]), np := s.pan.np + 1 } })
      ⟨h.defined, h.caset, h.paset, h.mode⟩
    refine ⟨hd, cfg, hpan.trans ?_, hrow.trans ?_, fun k hk => (hrest k hk).trans (cfgGet_cfgSet_of_ne _ hk)⟩
    · simp [Nat.add_assoc, Nat.add_comm 1]
    · rw [cfgGet_cfgSet]
      exact (cfgRow_cons _ _ d r).symm

/-! ### A frame by itself -/

/-- A frame of a command alone. -/
theorem frameAlone_busCmd (c : Byte) (st : DpState) {s : State} (hq : Quiet s) :
    (Play.ofRun (frameAlone (busCmd c (s.setSt st)))).outcome =
      .next (((cmdDone c (s.setSt st)).setSt .idle).setResult .nothing) := by
  rw [busCmd_quiet c (s := s.setSt st) hq]; rfl

/-- A frame of a command and its parameters. -/
theorem frameAlone_frame (st1 st2 : DpState) (c : Byte) (ps : List Byte) {s : State} (hq : Quiet s) :
    (Play.ofRun (frameAlone ((busCmd c (s.setSt st1)).andThen fun s => busData ps (s.setSt st2)))).outcome =
      .next (((frameDone st1 st2 c ps s).setSt .idle).setResult .nothing) := by
  rw [frame_quiet st1 st2 c ps hq]; rfl

/-- Where a frame's command leaves the panel before its parameters come. -/
theorem afterCommand_panel (st1 st2 : DpState) (c : Byte) {s : State} (hd : s.devu = false) :
    ((cmdDone c (s.setSt st1)).setSt st2).pan = panelOnCmd s.par.cmds c s.pan ∧
      ((cmdDone c (s.setSt st1)).setSt st2).devu = false ∧ ((cmdDone c (s.setSt st1)).setSt st2).par = s.par :=
  ⟨cmdDone_pan c (s := s.setSt st1) hd, by simpa using hd, (cmdDone_busOnly c (s.setSt st1)).par⟩

/-- A frame of a command alone reaches the panel as that command. -/
theorem frameAlone_busCmd_panel (c : Byte) (st : DpState) {s : State} (hq : Quiet s) (hd : s.devu = false) :
    ∃ t, (Play.ofRun (frameAlone (busCmd c (s.setSt st)))).outcome = .next t ∧ t.devu = false ∧
      t.pan = panelOnCmd s.par.cmds c s.pan := by
  obtain ⟨hpan, hdevu, _⟩ := afterCommand_panel st .idle c hd
  exact ⟨_, frameAlone_busCmd c st hq, hdevu, hpan⟩

/-- The parameters of a frame reach the panel as they are. -/
theorem frameDone_panel (st1 st2 : DpState) (c : Byte) (ps : List Byte) (s : State) :
    (frameDone st1 st2 c ps s).pan = (sentData ps ((cmdDone c (s.setSt st1)).setSt st2)).pan ∧
      (frameDone st1 st2 c ps s).devu = (sentData ps ((cmdDone c (s.setSt st1)).setSt st2)).devu := by
  obtain ⟨hpan, hdevu, _⟩ := dataDone_panel ps ((cmdDone c (s.setSt st1)).setSt st2)
  exact ⟨hpan, hdevu⟩

theorem busCaset_panel (x0 x1 : Half) {s : State} (hq : Quiet s) (hd : s.devu = false) (hc : s.par.cmds.Distinct) :
    ∃ t, exec (.busCaset x0 x1) s = .next t ∧ t.devu = false ∧
      t.pan = { s.pan with xs := x0, xe := x1, cmd := s.par.cmds.caset, np := 4, hb := none, mode := .none } := by
  obtain ⟨hpan, hdevu, hpar⟩ := afterCommand_panel .colCmd .colDat s.par.cmds.caset hd
  rw [panelOnCmd_caset hc] at hpan
  obtain ⟨hp, hd'⟩ := sentData_caset x0 x1 hdevu (by rw [hpan, hpar]) (by rw [hpan])
  obtain ⟨fp, fd⟩ := frameDone_panel .colCmd .colDat s.par.cmds.caset (be16 x0 ++ be16 x1) s
  exact ⟨_, frameAlone_frame .colCmd .colDat _ _ hq, fd.trans hd', fp.trans (hp.trans (by rw [hpan]))⟩

theorem busPaset_panel (y0 y1 : Half) {s : State} (hq : Quiet s) (hd : s.devu = false) (hc : s.par.cmds.Distinct) :
    ∃ t, exec (.busPaset y0 y1) s = .next t ∧ t.devu = false ∧
      t.pan = { s.pan with ys := y0, ye := y1, cmd := s.par.cmds.paset, np := 4, hb := none, mode := .none } := by
  obtain ⟨hpan, hdevu, hpar⟩ := afterCommand_panel .rowCmd .rowDat s.par.cmds.paset hd
  rw [panelOnCmd_paset hc] at hpan
  obtain ⟨⟨hne, _⟩, _⟩ := CmdBytes.distinct_iff.1 hc
  obtain ⟨hp, hd'⟩ := sentData_paset y0 y1 hdevu (by rw [hpan, hpar]) (by rw [hpan]) (by rw [hpar]; exact hne.symm)
  obtain ⟨fp, fd⟩ := frameDone_panel .rowCmd .rowDat s.par.cmds.paset (be16 y0 ++ be16 y1) s
  exact ⟨_, frameAlone_frame .rowCmd .rowDat _ _ hq, fd.trans hd', fp.trans (hp.trans (by rw [hpan]))⟩

theorem busInitEntry_panel {cmd : Byte} (params : List Byte) {s : State} (hq : Quiet s) (hd : s.devu = false)
    (hn : cmd ∉ s.par.cmds.all) :
    ∃ cfg, (∃ t, exec (.busInitEntry cmd params) s = .next t ∧ t.devu = false ∧
        t.pan = { s.pan with cmd := cmd, np := params.length, hb := none, mode := .none, cfg := cfg }) ∧
      cfgGet cfg cmd = (if params = [] then cfgGet s.pan.cfg cmd else params) ∧
      ∀ k, k ≠ cmd → cfgGet cfg k = cfgGet s.pan.cfg k := by
  obtain ⟨hpan, hdevu, hpar⟩ := afterCommand_panel .initCmd .initDat cmd hd
  rw [panelOnCmd_of_not_mem hn] at hpan
  have htakes : TakesParams ((cmdDone cmd (s.setSt .initCmd)).setSt .initDat) := by
    refine ⟨hdevu, ?_, ?_, ?_⟩ <;> rw [hpan]
    · rw [hpar]; rintro rfl; simp [CmdBytes.all] at hn
    · rw [hpar]; rintro rfl; simp [CmdBytes.all] at hn
    · simp
  obtain ⟨hd', cfg, hp, hrow, hrest⟩ := htakes.sentData params
  obtain ⟨fp, fd⟩ := frameDone_panel .initCmd .initDat cmd params s
  rw [hpan] at hp hrow hrest
  refine ⟨cfg, ⟨_, frameAlone_frame .initCmd .initDat cmd params hq, fd.trans hd', ?_⟩, ?_, hrest⟩
  · exact fp.trans (hp.trans (by simp))
  · simpa [cfgRow] using hrow

/-- Settles O20: the panel sees a frame's command byte (`panelOnCmd`), then its parameters one by one. -/
theorem busFramesReachPanel : Obligations.BusFramesReachPanel := by
  intro s hq hd hc reaches
  have command := fun c st => frameAlone_busCmd_panel c st hq hd
  refine ⟨fun x0 x1 => busCaset_panel x0 x1 hq hd hc, fun y0 y1 => busPaset_panel y0 y1 hq hd hc, ?ramwr, ?ramrd,
    ?slpout, ?dispon, fun cmd params hn => busInitEntry_panel params hq hd hn⟩
  case ramwr => exact panelOnCmd_ramwr s.par.cmds s.pan ▸ command s.par.cmds.ramwr .ramCmd
  case ramrd => exact panelOnCmd_ramrd hc s.pan ▸ command s.par.cmds.ramrd .ramCmd
  case slpout => exact panelOnCmd_slpout hc s.pan ▸ command s.par.cmds.slpout .slpout
  case dispon => exact panelOnCmd_dispon hc s.pan ▸ command s.par.cmds.dispon .dispon

end Sys2Proof.Machine
end

section
/-! SUPPORT. "The hardware's own rules never depend on" the panel (20_memory.md R80). `PanelOnly s t` says that two
states differ at most in the panel, DEVU and the count of free values; from two such states every piece of an operation,
RDPIX apart, ends the same way in two such states, whatever is injected on the bus. -/

namespace Sys2Proof.Machine

/-! ### States that differ in the panel only -/

/-- s with another panel, DEVU and draw counter. -/
def State.withPanel (s : State) (p : Panel) (d : Bool) (n : Nat) : State := { s with pan := p, devu := d, draws := n }

theorem panelOnly_withPanel (s : State) (p : Panel) (d : Bool) (n : Nat) : PanelOnly s (s.withPanel p d n) := by
  constructor <;> rfl

theorem PanelOnly.eq_withPanel {s t : State} (h : PanelOnly s t) : t = s.withPanel t.pan t.devu t.draws :=
  state_ext h.dp h.pins rfl rfl rfl h.fault h.gs h.ie h.fs h.handlers h.cfgWidth h.cfgHeight h.par h.env h.ctl h.out

theorem PanelOnly.symm {s t : State} (h : PanelOnly s t) : PanelOnly t s :=
  ⟨h.dp.symm, h.pins.symm, h.fault.symm, h.gs.symm, h.ie.symm, h.fs.symm, h.handlers.symm, h.cfgWidth.symm,
    h.cfgHeight.symm, h.par.symm, h.env.symm, h.ctl.symm, h.out.symm⟩

/-- To show something of two states that differ in the panel only, put another panel into the first. -/
theorem PanelOnly.rec_withPanel {P : State → State → Prop} (hP : ∀ s p d n, P s (s.withPanel p d n)) {s t : State}
    (h : PanelOnly s t) : P s t := h.eq_withPanel ▸ hP s t.pan t.devu t.draws

/-- An update that neither reads nor writes the panel. -/
theorem PanelOnly.map {f : State → State} (hf : ∀ s p d n, f (s.withPanel p d n) = (f s).withPanel p d n)
    {s t : State} (h : PanelOnly s t) : PanelOnly (f s) (f t) :=
  h.rec_withPanel (P := fun s t => PanelOnly (f s) (f t)) fun s p d n => hf s p d n ▸ panelOnly_withPanel (f s) p d n

/-- Whatever the panel then does on either side. -/
theorem PanelOnly.through {s t s' t' : State} (h : PanelOnly s t) (hs : PanelOnly s s') (ht : PanelOnly t t') :
    PanelOnly s' t' := (hs.symm.trans h).trans ht

section
variable {s t : State} (h : PanelOnly s t)
include h

theorem PanelOnly.emit (e : Event) : PanelOnly (s.emit e) (t.emit e) := h.map fun _ _ _ _ => rfl
theorem PanelOnly.setSt (st : DpState) : PanelOnly (s.setSt st) (t.setSt st) := h.map fun _ _ _ _ => rfl
theorem PanelOnly.setResult (r : Result) : PanelOnly (s.setResult r) (t.setResult r) := h.map fun _ _ _ _ => rfl
theorem PanelOnly.setBus (b : List (Nat × BusFate)) : PanelOnly (s.setBus b) (t.setBus b) := h.map fun _ _ _ _ => rfl
theorem PanelOnly.openTx (l : Bool) : PanelOnly (openTx l s) (openTx l t) := h.map fun _ _ _ _ => rfl
theorem PanelOnly.closeTx : PanelOnly (closeTx s) (closeTx t) := h.map fun _ _ _ _ => rfl
theorem PanelOnly.enterFault (code : BitVec 8) (info : FaultInfo) :
    PanelOnly (enterFault code info s) (enterFault code info t) := h.map fun _ _ _ _ => rfl
theorem PanelOnly.dpRegs (f : DpRegs → DpRegs) : PanelOnly { s with dp := f s.dp } { t with dp := f t.dp } :=
  h.map (f := fun s => { s with dp := f s.dp }) fun _ _ _ _ => rfl
theorem PanelOnly.gsRegs (f : GsRegs → GsRegs) : PanelOnly { s with gs := f s.gs } { t with gs := f t.gs } :=
  h.map (f := fun s => { s with gs := f s.gs }) fun _ _ _ _ => rfl
theorem PanelOnly.fsRegs (f : FsRegs → FsRegs) : PanelOnly { s with fs := f s.fs } { t with fs := f t.fs } :=
  h.map (f := fun s => { s with fs := f s.fs }) fun _ _ _ _ => rfl
theorem PanelOnly.setDevuIf (c d : Bool) : PanelOnly (setDevuIf c s) (setDevuIf d t) :=
  h.through (setDevuIf_panelOnly c s) (setDevuIf_panelOnly d t)

end

/-! ### Pieces of operations -/

/-- Two runs that end alike: both complete with one value or neither does, in states that differ in the panel only. -/
inductive Run.Alike {α : Type} : Run α → Run α → Prop
  | live (a : α) {s t : State} (h : PanelOnly s t) : Alike (.live a s) (.live a t)
  | dead {s t : State} (h : PanelOnly s t) : Alike (.dead s) (.dead t)

theorem alike_bind {α β : Type} {r q : Run α} {f g : α → State → Run β} (h : r.Alike q)
    (k : ∀ a s t, PanelOnly s t → (f a s).Alike (g a t)) : (r.bind f).Alike (q.bind g) := by
  cases h with
  | live a h => exact k a _ _ h
  | dead h => exact .dead h

theorem alike_andThen {α : Type} {r q : Run Unit} {f g : State → Run α} (h : r.Alike q)
    (k : ∀ s t, PanelOnly s t → (f s).Alike (g t)) : (r.andThen f).Alike (q.andThen g) :=
  alike_bind h fun _ => k

theorem alike_done {s t : State} (h : PanelOnly s t) : (Run.done s).Alike (.done t) := .live () h

theorem alike_pollIdle {s t : State} (h : PanelOnly s t) : (pollIdle s).Alike (pollIdle t) := by
  unfold pollIdle
  rw [h.env]
  split
  · exact alike_done h
  · exact alike_done (h.setBus _)
  · exact .dead ((h.setBus _).enterFault _ _)
  · exact .dead ((h.setBus _).enterFault _ _)
  · exact alike_done h

theorem alike_pollTransfer {s t : State} (h : PanelOnly s t) : (pollTransfer s).Alike (pollTransfer t) := by
  unfold pollTransfer
  rw [h.env]
  split
  · exact alike_done h
  · exact alike_done (h.setBus _)
  · exact .dead ((h.setBus _).enterFault _ _)
  · exact .dead ((h.setBus _).enterFault _ _)
  · exact .dead ((h.setBus _).map
      (f := fun s => { s with ctl := { s.ctl with blocked := some .bus } }) fun _ _ _ _ => rfl)

theorem alike_sendCmd (b : Byte) {s t : State} (h : PanelOnly s t) : (sendCmd b s).Alike (sendCmd b t) :=
  alike_andThen (alike_pollTransfer h) fun _ _ h =>
    alike_done ((h.emit _).through (panelCmd_panelOnly b _) (panelCmd_panelOnly b _))

theorem alike_sendData (bs : List Byte) {s t : State} (h : PanelOnly s t) : (sendData bs s).Alike (sendData bs t) := by
  induction bs generalizing s t with
  | nil => exact alike_done h
  | cons b r ih =>
    exact alike_andThen (alike_pollTransfer h) fun _ _ h =>
      ih ((h.emit _).through (panelData_panelOnly b _) (panelData_panelOnly b _))

theorem alike_endTx {s t : State} (h : PanelOnly s t) : (endTx s).Alike (endTx t) :=
  alike_andThen (alike_pollTransfer h) fun _ _ h => alike_done h.closeTx

theorem alike_busCmd (b : Byte) {s t : State} (h : PanelOnly s t) : (busCmd b s).Alike (busCmd b t) :=
  alike_andThen (alike_pollIdle h) fun s t h => by
    rw [h.par]
    exact alike_andThen (alike_sendCmd b (h.openTx _)) fun _ _ => alike_endTx

theorem alike_busData (bs : List Byte) {s t : State} (h : PanelOnly s t) : (busData bs s).Alike (busData bs t) := by
  cases bs with
  | nil => exact alike_done h
  | cons b r =>
    exact alike_andThen (alike_pollIdle h) fun s t h => by
      rw [h.par]
      exact alike_andThen (alike_sendData (b :: r) (h.openTx _)) fun _ _ => alike_endTx

theorem alike_rstLine (l : Bool) {s t : State} (h : PanelOnly s t) : (rstLine l s).Alike (rstLine l t) :=
  alike_andThen (alike_pollIdle h) fun _ _ h =>
    have hr := (h.map (f := fun s => { s with pins := { s.pins with rstN := l } }) fun _ _ _ _ => rfl).emit (.rst l)
    alike_done (hr.through (panelRst_panelOnly l _) (panelRst_panelOnly l _))

theorem alike_busWait (ms : Nat) {s t : State} (h : PanelOnly s t) : (busWait ms s).Alike (busWait ms t) :=
  alike_andThen (alike_pollIdle h) fun _ _ h => alike_done (h.emit _)

/-! ### Frames -/

theorem alike_frame (st1 st2 : DpState) (c : Byte) (ps : List Byte) {s t : State} (h : PanelOnly s t) :
    ((busCmd c (s.setSt st1)).andThen fun s => busData ps (s.setSt st2)).Alike
      ((busCmd c (t.setSt st1)).andThen fun s => busData ps (s.setSt st2)) :=
  alike_andThen (alike_busCmd c (h.setSt st1)) fun _ _ h => alike_busData ps (h.setSt st2)

section
variable {s t : State} (h : PanelOnly s t)
include h

theorem alike_frameCaset (x0 x1 : Half) : (frameCaset x0 x1 s).Alike (frameCaset x0 x1 t) := by
  unfold frameCaset; rw [h.par]; exact alike_frame _ _ _ _ h

theorem alike_framePaset (y0 y1 : Half) : (framePaset y0 y1 s).Alike (framePaset y0 y1 t) := by
  unfold framePaset; rw [h.par]; exact alike_frame _ _ _ _ h

theorem alike_frameRamwr : (frameRamwr s).Alike (frameRamwr t) := by
  unfold frameRamwr; rw [h.par]; exact alike_busCmd _ (h.setSt _)

theorem alike_frameRamrd : (frameRamrd s).Alike (frameRamrd t) := by
  unfold frameRamrd; rw [h.par]; exact alike_busCmd _ (h.setSt _)

theorem alike_frameSlpout : (frameSlpout s).Alike (frameSlpout t) := by
  unfold frameSlpout; rw [h.par]; exact alike_busCmd _ (h.setSt _)

theorem alike_frameDispon : (frameDispon s).Alike (frameDispon t) := by
  unfold frameDispon; rw [h.par]; exact alike_busCmd _ (h.setSt _)

theorem alike_frameInitEntry (c : Byte) (ps : List Byte) : (frameInitEntry c ps s).Alike (frameInitEntry c ps t) :=
  alike_frame _ _ _ _ h

end

theorem alike_frameAlone {r q : Run Unit} (h : r.Alike q) : (frameAlone r).Alike (frameAlone q) :=
  alike_andThen h fun _ _ h => alike_done ((h.setSt _).setResult _)

/-! ### Unit DP -/

theorem alike_dpReset {s t : State} (h : PanelOnly s t) : (dpReset s).Alike (dpReset t) :=
  alike_andThen (alike_rstLine false (h.setSt _)) fun s t h => by
    rw [h.par]
    exact alike_andThen (alike_busWait _ h) fun _ _ h => alike_andThen (alike_rstLine true (h.setSt _)) fun s t h => by
      rw [h.par]
      exact alike_andThen (alike_busWait _ h) fun _ _ h => alike_done (h.map fun _ _ _ _ => rfl)

theorem alike_sendEntries (es : List InitEntry) (k : Nat) {s t : State} (h : PanelOnly s t) :
    (sendEntries es k s).Alike (sendEntries es k t) := by
  induction es generalizing k s t with
  | nil => exact alike_done h
  | cons e r ih =>
    exact alike_andThen (alike_frameInitEntry (h.dpRegs fun d => { d with seq := k }) _ _) fun _ _ h => ih (k + 1) h

theorem alike_dpInit {s t : State} (h : PanelOnly s t) : (dpInit s).Alike (dpInit t) := by
  unfold dpInit
  rw [h.par]
  exact alike_andThen (alike_sendEntries _ _ (h.setDevuIf _ _)) fun _ _ h =>
    alike_andThen (alike_frameSlpout h) fun s t h => by
      rw [h.par]
      exact alike_andThen (alike_busWait _ h) fun _ _ h => alike_andThen (alike_frameDispon h) fun s t h => by
        rw [h.par]
        exact alike_andThen (alike_busWait _ h) fun _ _ h => alike_done (h.map fun _ _ _ _ => rfl)

/-- The three frames of a window, whichever RAM command ends them. -/
theorem alike_sendWindow {ram : State → Run Unit} (hram : ∀ s t, PanelOnly s t → (ram s).Alike (ram t))
    (mode : StreamMode) (x0 y0 x1 y1 : Half) {s t : State} (h : PanelOnly s t) :
    (sendWindow ram mode x0 y0 x1 y1 s).Alike (sendWindow ram mode x0 y0 x1 y1 t) :=
  alike_andThen (alike_frameCaset h x0 x1) fun _ _ h => alike_andThen (alike_framePaset h y0 y1) fun s t h =>
    alike_andThen (hram s t h) fun _ _ h => alike_done (h.map fun _ _ _ _ => rfl)

theorem alike_dpSetwin (x0 y0 x1 y1 : Int) {s t : State} (h : PanelOnly s t) :
    (dpSetwin x0 y0 x1 y1 s).Alike (dpSetwin x0 y0 x1 y1 t) :=
  alike_sendWindow (fun _ _ => alike_frameRamwr) _ _ _ _ _ (h.setDevuIf _ _)

theorem alike_dpSetwinrd (x0 y0 x1 y1 : Int) {s t : State} (h : PanelOnly s t) :
    (dpSetwinrd x0 y0 x1 y1 s).Alike (dpSetwinrd x0 y0 x1 y1 t) :=
  alike_sendWindow (fun _ _ => alike_frameRamrd) _ _ _ _ _ (h.setDevuIf _ _)

theorem alike_dpWrpix (buf : List Byte) {s t : State} (h : PanelOnly s t) : (dpWrpix buf s).Alike (dpWrpix buf t) :=
  alike_andThen (alike_busData buf ((h.setDevuIf _ _).setSt _)) fun _ _ h => alike_done (h.setSt _)

/-! ### Unit GS -/

theorem alike_streamRep (fuel k left : Nat) (color : Half) {s t : State} (h : PanelOnly s t) :
    (streamRep fuel k left color s).Alike (streamRep fuel k left color t) := by
  induction fuel generalizing left s t with
  | zero => exact alike_done h
  | succ n ih =>
    unfold streamRep
    split
    · exact alike_done h
    · exact alike_andThen (alike_dpWrpix _ h) fun _ _ h => ih _ h

theorem PanelOnly.width {s t : State} (h : PanelOnly s t) : t.width = s.width := by
  unfold State.width; rw [h.cfgWidth]

theorem PanelOnly.height {s t : State} (h : PanelOnly s t) : t.height = s.height := by
  unfold State.height; rw [h.cfgHeight]

theorem alike_gsFillrect (x y w k : Int) (color : Half) {s t : State} (h : PanelOnly s t) :
    (gsFillrect x y w k color s).Alike (gsFillrect x y w k color t) := by
  unfold gsFillrect
  rw [h.width, h.height]
  split
  · refine alike_andThen (alike_dpSetwin _ _ _ _ h) fun s t h => ?_
    unfold chunkPixels
    rw [h.par]
    exact alike_streamRep _ _ _ _ h
  · exact alike_done h

theorem alike_gsSafefillrect (x y w k : Int) (color : Half) {s t : State} (h : PanelOnly s t) :
    (gsSafefillrect x y w k color s).Alike (gsSafefillrect x y w k color t) := by
  simp only [gsSafefillrect, h.width, h.height]
  split
  · exact alike_done h
  · exact alike_gsFillrect _ _ _ _ _ h

theorem alike_loadMiss (key : SpriteKey) {s t : State} (h : PanelOnly s t) :
    (loadMiss key s).Alike (loadMiss key t) := by
  have hr : PanelOnly (readResource s).2 (readResource t).2 :=
    h.map (f := fun s => (readResource s).2) fun _ _ _ _ => rfl
  have ha : (readResource t).1 = (readResource s).1 := by unfold readResource; rw [h.env]
  simp only [loadMiss, ha, h.par, h.gs]
  split
  · exact .dead (hr.enterFault _ _)
  · split
    · exact .live _ (hr.gsRegs fun g => { g with scache := g.scache ++ _ })
    · exact .live _ hr

theorem alike_gsLoadsprite (key : SpriteKey) {s t : State} (h : PanelOnly s t) :
    (gsLoadsprite key s).Alike (gsLoadsprite key t) := by
  unfold gsLoadsprite
  rw [h.gs]
  split
  · exact .live _ h
  · exact alike_loadMiss key h

/-- The text cache is asked and filled alike. -/
theorem PanelOnly.cacheGetOrBuild (key : TextKey) {s t : State} (h : PanelOnly s t) :
    (cacheGetOrBuild key t).1 = (cacheGetOrBuild key s).1 ∧
      PanelOnly (cacheGetOrBuild key s).2 (cacheGetOrBuild key t).2 := by
  unfold Machine.cacheGetOrBuild
  rw [h.gs, h.par]
  split
  · exact ⟨rfl, h⟩
  · dsimp only
    split
    · exact ⟨rfl, { h with gs := rfl, par := rfl }⟩
    · exact ⟨rfl, h⟩

/-! ### Operations -/

/-- Two operations that end alike: refused for one reason or not at all, complete or not, in states that differ in the
panel only. -/
structure Play.Alike (p q : Play) : Prop where
  refusal : q.refusal = p.refusal
  live    : q.live = p.live
  st      : PanelOnly p.st q.st

theorem alike_ofRun {r q : Run Unit} (h : r.Alike q) : (Play.ofRun r).Alike (.ofRun q) := by
  cases h with
  | live a h => exact ⟨rfl, rfl, h⟩
  | dead h => exact ⟨rfl, rfl, h⟩

/-- A piece that ends alike, and its result. -/
theorem alike_finish {r q : Run Unit} (h : r.Alike q) (res : Result) :
    (Play.ofRun (r.andThen (finish res))).Alike (.ofRun (q.andThen (finish res))) :=
  alike_ofRun (alike_andThen h fun _ _ h => alike_done (h.setResult res))

theorem alike_playDone {s t : State} (h : PanelOnly s t) : (Play.done s).Alike (.done t) := ⟨rfl, rfl, h⟩
theorem alike_refuse (why : Refusal) {s t : State} (h : PanelOnly s t) : (Play.refuse why s).Alike (.refuse why t) :=
  ⟨rfl, rfl, h⟩

theorem alike_opBlit (x y x1 y1 : Int) (buf : List Byte) {s t : State} (h : PanelOnly s t) :
    (opBlit x y x1 y1 buf s).Alike (opBlit x y x1 y1 buf t) := by
  unfold opBlit
  split
  · exact alike_finish (alike_andThen (alike_dpSetwin _ _ _ _ h) fun _ _ => alike_dpWrpix buf) _
  · exact alike_refuse _ h

theorem alike_opDrawtext (x y : Int) (text : List Byte) (color : Half) (bg : Option Half) (scale : Int) {s t : State}
    (h : PanelOnly s t) : (opDrawtext x y text color bg scale s).Alike (opDrawtext x y text color bg scale t) := by
  simp only [opDrawtext, h.width, h.height]
  split
  · unfold drawFast
    rw [h.par]
    exact alike_opBlit _ _ _ _ _ h
  · obtain ⟨hspr, hst⟩ := h.cacheGetOrBuild { text := text, fg := color, bg := bg, scale := clampScale scale }
    simp only [drawCached, opDrawimage, hspr]
    exact alike_opBlit _ _ _ _ _ hst

/-- THE LAW: an operation of the port, RDPIX apart, does the same whatever the panel holds. -/
theorem alike_gameOp {i : Instr} (hi : ∀ k, i ≠ .rdpix k) {s t : State} (h : PanelOnly s t) :
    (gameOp i s).Alike (gameOp i t) := by
  cases i with
  | reset => exact alike_finish (alike_dpReset h) _
  | init => exact alike_finish (alike_dpInit h) _
  | setwin x0 y0 x1 y1 =>
    simp only [gameOp, opSetwin]
    split
    · exact alike_finish (alike_dpSetwin _ _ _ _ h) _
    · exact alike_refuse _ h
  | setwinrd x0 y0 x1 y1 =>
    simp only [gameOp, opSetwinrd]
    split
    · exact alike_finish (alike_dpSetwinrd _ _ _ _ h) _
    · exact alike_refuse _ h
  | wrpix buf => exact alike_finish (alike_dpWrpix buf h) _
  | rdpix k => exact absurd rfl (hi k)
  | clear color =>
    simp only [gameOp, opClear, h.width, h.height]
    exact alike_finish (alike_gsFillrect _ _ _ _ _ h) _
  | fillrect x y w k color => exact alike_finish (alike_gsFillrect _ _ _ _ _ h) _
  | safefillrect x y w k color => exact alike_finish (alike_gsSafefillrect _ _ _ _ _ h) _
  | drawimage x y w k buf => exact alike_opBlit _ _ _ _ _ h
  | drawtext x y text color bg scale => exact alike_opDrawtext _ _ _ _ _ _ h
  | textsize text scale => exact alike_playDone (h.setResult _)
  | rendertext text color bg scale =>
    simp only [gameOp, opRendertext, h.par]
    exact alike_playDone (h.setResult _)
  | clearcaches => exact alike_playDone ((h.gsRegs fun _ => _).setResult _)
  | stop => exact alike_playDone ((h.fsRegs fun f => { f with running := false }).setResult _)
  | loadsprite name w k =>
    exact alike_ofRun (alike_bind (alike_gsLoadsprite _ h) fun _ _ _ h => alike_done (h.setResult _))
  | run | tickstart | sample | edge | dispatch | gesture | update | draw | pace => exact alike_refuse _ h
  | busCaset | busPaset | busRamwr | busRamrd | busSlpout | busDispon | busInitEntry => exact alike_refuse _ h

/-! ### Outcomes -/

theorem sameButPanel_next {s t : State} (h : PanelOnly s t) : SameButPanel (.next s) (.next t) := h.eq_withPanel

theorem Play.Alike.outcome {p q : Play} (h : p.Alike q) : SameButPanel p.outcome q.outcome := by
  unfold Play.outcome
  rw [h.refusal]
  split
  · exact sameButPanel_next h.st
  · rfl

theorem sameButPanel_frameAlone {r q : Run Unit} (h : r.Alike q) :
    SameButPanel (Play.ofRun (frameAlone r)).outcome (Play.ofRun (frameAlone q)).outcome :=
  (alike_ofRun (alike_frameAlone h)).outcome

/-- RUN reads the Clock and writes unit FS. -/
theorem sameButPanel_run {s t : State} (h : PanelOnly s t) : SameButPanel (exec .run s) (exec .run t) :=
  h.rec_withPanel (P := fun s t => SameButPanel (exec .run s) (exec .run t)) fun _ _ _ _ => rfl

/-- Settles O53: the operations of the port, RUN, and the frames of the bus. -/
theorem panelIsUnobservable : Obligations.PanelIsUnobservable := by
  intro i s p d n hphase hrd
  have h := panelOnly_withPanel s p d n
  by_cases hport : i.space = .port ∧ i ≠ .run
  · rw [← gameOp_outcome _ hport.1 hport.2, ← gameOp_outcome _ hport.1 hport.2]
    exact (alike_gameOp hrd h).outcome
  cases i with
  | run => exact sameButPanel_run h
  | busCaset x0 x1 => exact sameButPanel_frameAlone (alike_frameCaset h x0 x1)
  | busPaset y0 y1 => exact sameButPanel_frameAlone (alike_framePaset h y0 y1)
  | busRamwr => exact sameButPanel_frameAlone (alike_frameRamwr h)
  | busRamrd => exact sameButPanel_frameAlone (alike_frameRamrd h)
  | busSlpout => exact sameButPanel_frameAlone (alike_frameSlpout h)
  | busDispon => exact sameButPanel_frameAlone (alike_frameDispon h)
  | busInitEntry c ps => exact sameButPanel_frameAlone (alike_frameInitEntry h c ps)
  | tickstart | sample | edge | dispatch | gesture | update | draw | pace => exact absurd rfl hphase
  | _ => exact absurd ⟨rfl, by simp⟩ hport

end Sys2Proof.Machine
end

section
/-! SUPPORT. The decoders against the encoder (30_encoding.md R91 to R96, R107, R112): a decoder that reads an encoded
operation back finds every proper initial part of it truncated, field by field, so the two are shown together. -/

namespace Sys2Proof

/-! ### What a decoder does to the bytes of one value -/

/-- `d` reads the value `a` from `bs` and leaves what follows; every proper initial part of `bs` is too short for it
(R96). -/
structure Reads {α : Type} (d : List Byte → Except DecodeError (α × List Byte)) (bs : List Byte) (a : α) : Prop where
  whole : ∀ r, d (bs ++ r) = .ok (a, r)
  short_truncated : ∀ n < bs.length, d (bs.take n) = .error .truncated

variable {α : Type} {a : α} {bs : List Byte}

theorem Reads.exactly {d : List Byte → Except DecodeError (α × List Byte)} (h : Reads d bs a) : d bs = .ok (a, []) := by
  rw [← h.whole, List.append_nil]

/-- Nothing is left to read. -/
theorem Reads.ok (a : α) : Reads (fun r => .ok (a, r)) [] a := ⟨fun _ => rfl, fun _ hn => nomatch hn⟩

/-- A field of fixed bytes in front: an initial part ends inside it or after it. -/
theorem Reads.field {d k : List Byte → Except DecodeError (α × List Byte)} (f : List Byte)
    (hwhole : ∀ r, d (f ++ r) = k r) (hshort : ∀ n < f.length, d (f.take n) = .error .truncated)
    (h : Reads k bs a) : Reads d (f ++ bs) a where
  whole r := by rw [List.append_assoc, hwhole, h.whole]
  short_truncated n hn := by
    rw [List.length_append] at hn
    rcases lt_or_ge n f.length with hf | hf
    · rw [List.take_append_of_le_length hf.le, hshort n hf]
    · rw [List.take_append, List.take_of_length_le hf, hwhole, h.short_truncated _ (by omega)]

theorem Reads.takeByte {k : Byte → List Byte → Except DecodeError (α × List Byte)} (b : Byte) (h : Reads (k b) bs a) :
    Reads (fun r => takeByte r k) (b :: bs) a :=
  h.field [b] (fun _ => rfl) fun n hn => by
    obtain rfl : n = 0 := Nat.lt_one_iff.1 hn
    rfl

theorem Reads.take16 {k : Half → List Byte → Except DecodeError (α × List Byte)} (v : Half) (h : Reads (k v) bs a) :
    Reads (fun r => take16 r k) (be16 v ++ bs) a :=
  h.field (be16 v) (fun r => take16_be16 v r k) fun n hn => by
    have : n < 2 := hn
    interval_cases n <;> rfl

theorem Reads.take32 {k : BitVec 32 → List Byte → Except DecodeError (α × List Byte)} (v : BitVec 32)
    (h : Reads (k v) bs a) : Reads (fun r => take32 r k) (be32 v ++ bs) a :=
  h.field (be32 v) (fun r => take32_be32 v r k) fun n hn => by
    have : n < 4 := hn
    interval_cases n <;> rfl

theorem Reads.takeBytes {k : List Byte → List Byte → Except DecodeError (α × List Byte)} (f : List Byte)
    (h : Reads (k f) bs a) : Reads (fun r => takeBytes f.length r k) (f ++ bs) a :=
  h.field f (fun r => takeBytes_append f r k) fun n hn => by
    rw [Sys2Proof.takeBytes, if_neg (by rw [List.length_take]; omega)]

theorem Reads.takeBackground {k : Option Half → List Byte → Except DecodeError (α × List Byte)} (bg : Option Half)
    (h : Reads (k bg) bs a) : Reads (fun r => takeBackground r k) (encodeBackground bg ++ bs) a :=
  h.field (encodeBackground bg) (fun r => takeBackground_encode bg r k) fun n hn => by
    have : n < 3 := length_encodeBackground bg ▸ hn
    cases bg <;> interval_cases n <;> rfl

/-- A `u32` length and as many bytes. -/
theorem Reads.counted32 {k : List Byte → List Byte → Except DecodeError (α × List Byte)} {f : List Byte}
    (hf : inU32 f.length = true) (h : Reads (k f) bs a) :
    Reads (fun r => Sys2Proof.take32 r fun len r => Sys2Proof.takeBytes len.toNat r k)
      (len32 f.length ++ (f ++ bs)) a := by
  refine .take32 _ ?_
  rw [toNat_len32 hf]
  exact h.takeBytes f

/-- A `u16` length and as many bytes. -/
theorem Reads.counted16 {k : List Byte → List Byte → Except DecodeError (α × List Byte)} {f : List Byte}
    (hf : inLen16 f.length = true) (h : Reads (k f) bs a) :
    Reads (fun r => Sys2Proof.take16 r fun len r => Sys2Proof.takeBytes len.toNat r k)
      (len16 f.length ++ (f ++ bs)) a := by
  refine .take16 _ ?_
  rw [toNat_len16 hf]
  exact h.takeBytes f

/-! ### The formats (R93) -/

/-- Format FW: four bounds. -/
theorem decodeFW_reads (mk : Int → Int → Int → Int → Instr) {x0 y0 x1 y1 : Int}
    (h : (inU16 x0 && inU16 y0 && inU16 x1 && inU16 y1) = true) :
    Reads (decodeFW mk) (field16 x0 ++ field16 y0 ++ field16 x1 ++ field16 y1) (mk x0 y0 x1 y1) := by
  simp only [Bool.and_eq_true] at h
  obtain ⟨⟨⟨h1, h2⟩, h3⟩, h4⟩ := h
  have hr : Reads (decodeFW mk) (field16 x0 ++ (field16 y0 ++ (field16 x1 ++ (field16 y1 ++ []))))
      (mk x0 y0 x1 y1) := by
    refine .take16 _ (.take16 _ (.take16 _ (.take16 _ ?_)))
    rw [toNat_field16 h1, toNat_field16 h2, toNat_field16 h3, toNat_field16 h4]
    exact .ok _
  simpa only [List.append_assoc, List.append_nil] using hr

/-- Format FR: a rectangle and a colour. -/
theorem decodeFR_reads (mk : Int → Int → Int → Int → Half → Instr) {x y w h : Int} (color : Half)
    (hwf : (inS16 x && inS16 y && inS16 w && inS16 h) = true) :
    Reads (decodeFR mk) (field16 x ++ field16 y ++ field16 w ++ field16 h ++ be16 color) (mk x y w h color) := by
  simp only [Bool.and_eq_true] at hwf
  obtain ⟨⟨⟨h1, h2⟩, h3⟩, h4⟩ := hwf
  have hr : Reads (decodeFR mk) (field16 x ++ (field16 y ++ (field16 w ++ (field16 h ++ (be16 color ++ [])))))
      (mk x y w h color) := by
    refine .take16 _ (.take16 _ (.take16 _ (.take16 _ (.take16 color ?_))))
    rw [toInt_field16 h1, toInt_field16 h2, toInt_field16 h3, toInt_field16 h4]
    exact .ok _
  simpa only [List.append_assoc, List.append_nil] using hr

/-- Format FI: a rectangle and a buffer. -/
theorem decodeFI_reads {x y w h : Int} {buf : List Byte}
    (hwf : (inS16 x && inS16 y && inS16 w && inS16 h && inU32 buf.length) = true) :
    Reads decodeFI (field16 x ++ field16 y ++ field16 w ++ field16 h ++ len32 buf.length ++ buf)
      (.drawimage x y w h buf) := by
  simp only [Bool.and_eq_true] at hwf
  obtain ⟨⟨⟨⟨h1, h2⟩, h3⟩, h4⟩, hb⟩ := hwf
  have hr : Reads decodeFI
      (field16 x ++ (field16 y ++ (field16 w ++ (field16 h ++ (len32 buf.length ++ (buf ++ []))))))
      (.drawimage x y w h buf) := by
    refine .take16 _ (.take16 _ (.take16 _ (.take16 _ (.counted32 hb ?_))))
    rw [toInt_field16 h1, toInt_field16 h2, toInt_field16 h3, toInt_field16 h4]
    exact .ok _
  simpa only [List.append_assoc, List.append_nil] using hr

/-- Format FT: a scale and a text. -/
theorem decodeFT_reads {text : List Byte} {scale : Int} (hwf : (inS16 scale && inLen16 text.length) = true) :
    Reads decodeFT (field16 scale ++ len16 text.length ++ text) (.textsize text scale) := by
  simp only [Bool.and_eq_true] at hwf
  obtain ⟨hs, ht⟩ := hwf
  have hr : Reads decodeFT (field16 scale ++ (len16 text.length ++ (text ++ []))) (.textsize text scale) := by
    refine .take16 _ (.counted16 ht ?_)
    rw [toInt_field16 hs]
    exact .ok _
  simpa only [List.append_assoc, List.append_nil] using hr

/-- Format FD: a place, two colours, a scale and a text. -/
theorem decodeFD_reads {x y scale : Int} {text : List Byte} (color : Half) (bg : Option Half)
    (hwf : (inS16 x && inS16 y && inS16 scale && inLen16 text.length) = true) :
    Reads decodeFD (field16 x ++ field16 y ++ be16 color ++ encodeBackground bg ++ field16 scale ++
      len16 text.length ++ text) (.drawtext x y text color bg scale) := by
  simp only [Bool.and_eq_true] at hwf
  obtain ⟨⟨⟨hx, hy⟩, hs⟩, ht⟩ := hwf
  have hr : Reads decodeFD (field16 x ++ (field16 y ++ (be16 color ++ (encodeBackground bg ++ (field16 scale ++
      (len16 text.length ++ (text ++ []))))))) (.drawtext x y text color bg scale) := by
    refine .take16 _ (.take16 _ (.take16 color (.takeBackground bg (.take16 _ (.counted16 ht ?_)))))
    rw [toInt_field16 hx, toInt_field16 hy, toInt_field16 hs]
    exact .ok _
  simpa only [List.append_assoc, List.append_nil] using hr

/-- Format FK: two colours, a scale and a text. -/
theorem decodeFK_reads {scale : Int} {text : List Byte} (color : Half) (bg : Option Half)
    (hwf : (inS16 scale && inLen16 text.length) = true) :
    Reads decodeFK (be16 color ++ encodeBackground bg ++ field16 scale ++ len16 text.length ++ text)
      (.rendertext text color bg scale) := by
  simp only [Bool.and_eq_true] at hwf
  obtain ⟨hs, ht⟩ := hwf
  have hr : Reads decodeFK (be16 color ++ (encodeBackground bg ++ (field16 scale ++ (len16 text.length ++
      (text ++ []))))) (.rendertext text color bg scale) := by
    refine .take16 color (.takeBackground bg (.take16 _ (.counted16 ht ?_)))
    rw [toInt_field16 hs]
    exact .ok _
  simpa only [List.append_assoc, List.append_nil] using hr

/-- Format FL: two sizes and a name. -/
theorem decodeFL_reads {w h : Int} {name : List Byte}
    (hwf : (inS16 w && inS16 h && inLen16 name.length) = true) :
    Reads decodeFL (field16 w ++ field16 h ++ len16 name.length ++ name) (.loadsprite name w h) := by
  simp only [Bool.and_eq_true] at hwf
  obtain ⟨⟨hw, hh⟩, hn⟩ := hwf
  have hr : Reads decodeFL (field16 w ++ (field16 h ++ (len16 name.length ++ (name ++ []))))
      (.loadsprite name w h) := by
    refine .take16 _ (.take16 _ (.counted16 hn ?_))
    rw [toInt_field16 hw, toInt_field16 hh]
    exact .ok _
  simpa only [List.append_assoc, List.append_nil] using hr

/-! ### The operations of the port (R91) -/

/-- THE LAW of the port: it reads every encoded operation back, and finds every proper initial part truncated. -/
theorem decodeOp_reads {i : Instr} (hwf : i.WellFormed) (hp : i.space = .port) : Reads decodeOp (encode i) i := by
  cases i with
  | reset => exact .takeByte 0x01 (.ok _)
  | init => exact .takeByte 0x02 (.ok _)
  | setwin x0 y0 x1 y1 => exact .takeByte 0x03 (decodeFW_reads _ hwf)
  | setwinrd x0 y0 x1 y1 => exact .takeByte 0x04 (decodeFW_reads _ hwf)
  | wrpix buf =>
    have hr : Reads decodeOp (0x05 :: (len32 buf.length ++ (buf ++ []))) (.wrpix buf) :=
      .takeByte 0x05 (.counted32 hwf (.ok _))
    rwa [List.append_nil] at hr
  | rdpix n =>
    have hr : Reads decodeOp (0x06 :: (len32 n ++ [])) (.rdpix (BitVec.ofNat 32 n).toNat) :=
      .takeByte 0x06 (.take32 _ (.ok _))
    rwa [List.append_nil, toNat_len32 hwf] at hr
  | clear color => exact .takeByte 0x10 (.take16 color (.ok _))
  | fillrect x y w h color => exact .takeByte 0x11 (decodeFR_reads _ color hwf)
  | safefillrect x y w h color => exact .takeByte 0x12 (decodeFR_reads _ color hwf)
  | drawimage x y w h buf => exact .takeByte 0x13 (decodeFI_reads hwf)
  | textsize text scale => exact .takeByte 0x14 (decodeFT_reads hwf)
  | drawtext x y text color bg scale => exact .takeByte 0x15 (decodeFD_reads color bg hwf)
  | rendertext text color bg scale => exact .takeByte 0x16 (decodeFK_reads color bg hwf)
  | clearcaches => exact .takeByte 0x17 (.ok _)
  | loadsprite name w h => exact .takeByte 0x18 (decodeFL_reads hwf)
  | run => exact .takeByte 0x20 (.ok _)
  | stop => exact .takeByte 0x21 (.ok _)
  | tickstart | sample | edge | dispatch | gesture | update | draw | pace => cases hp
  | busCaset | busPaset | busRamwr | busRamrd | busSlpout | busDispon | busInitEntry => cases hp

/-! ### The tick phases and the frames (R107, R112) -/

theorem decode_encode_phase {i : Instr} (hp : i.space = .phase) : decode .phase (encode i) = .ok (i, []) := by
  cases i with
  | tickstart | sample | edge | dispatch | gesture | update | draw | pace => rfl
  | _ => cases hp

/-- A command byte that is none of the six named ones begins a handshake entry. -/
theorem decodeFrame_of_not_mem {c : CmdBytes} {cmd : Byte} (h : cmd ∉ c.all) (params : List Byte) :
    decodeFrame c (cmd :: params) = .ok (.busInitEntry cmd params, []) := by
  simp only [CmdBytes.all, List.mem_cons, List.not_mem_nil, or_false, not_or] at h
  obtain ⟨hca, hpa, hwr, hrd, hsl, hon⟩ := h
  simp only [decodeFrame, takeByte_cons, if_neg hca, if_neg hpa, if_neg hwr, if_neg hrd, if_neg hsl, if_neg hon]

/-- An address-set frame's parameters: two bounds. -/
theorem take16_twice (mk : Half → Half → Instr) (v w : Half) :
    take16 (be16 v ++ be16 w) (fun a r => take16 r fun b r => .ok (mk a b, r)) = .ok (mk v w, []) := by
  rw [take16_be16, ← List.append_nil (be16 w), take16_be16]

theorem decode_encode_frame {i : Instr} (hwf : i.WellFormed) (hp : i.space = .frame) :
    decode .frame (encode i) = .ok (i, []) := by
  cases i with
  | busCaset x0 x1 => exact take16_twice .busCaset x0 x1
  | busPaset y0 y1 => exact take16_twice .busPaset y0 y1
  | busRamwr | busRamrd | busSlpout | busDispon => rfl
  | busInitEntry cmd params =>
    refine decodeFrame_of_not_mem (fun hm => ?_) params
    simp [Instr.WellFormed, Instr.wf, hm] at hwf
  | _ => cases hp

end Sys2Proof

namespace Sys2Proof.Machine

/-- Settles O2: each decoder computes. -/
theorem wordsDecodeAsSpecified : Obligations.WordsDecodeAsSpecified :=
  ⟨rfl, rfl, rfl, rfl, rfl, rfl, rfl, rfl, rfl⟩

/-- Settles O1: each language's decoder reads back what the encoder wrote. -/
theorem decodeEncodeRoundTrip : Obligations.DecodeEncodeRoundTrip := by
  refine ⟨fun i hwf => ?_, fun i r hwf hp => (decodeOp_reads hwf hp).whole r⟩
  cases hs : i.space with
  | port => exact (decodeOp_reads hwf hs).exactly
  | phase => exact decode_encode_phase hs
  | frame => exact decode_encode_frame hwf hs

end Sys2Proof.Machine
end

section
/-! SUPPORT. Reserved encodings (30_encoding.md R96): each is rejected under its own name, by the decoder, at the port
and inside a callback. -/

namespace Sys2Proof

theorem decodePort_of_error {bs : List Byte} {e : DecodeError} (h : decodeOp bs = .error e) :
    decodePort bs = .error e := by
  unfold decodePort
  rw [h]

/-- A code that is none of the table's. -/
theorem decodeOp_reservedCode {code : Byte} (h : code ∉ operationCodes) (r : List Byte) :
    decodeOp (code :: r) = .error (.reservedCode code) := by
  have hn : code.toNat ∉ operationCodes.map BitVec.toNat := fun hm =>
    h ((List.mem_map_of_injective fun _ _ => BitVec.eq_of_toNat_eq).1 hm)
  unfold decodeOp
  rw [takeByte_cons]
  split
  case h_18 => rfl
  -- the codes of R91: each is in the table, and h says that this one is not
  all_goals exact absurd (by simp [operationCodes, *]) hn

/-- A bgf other than 0 or 1; its bg has come (R93, R94). -/
theorem takeBackground_reserved {α : Type} {bgf : Byte} (h : 2 ≤ bgf.toNat) {r : List Byte} (hr : 2 ≤ r.length)
    (k : Option Half → List Byte → Except DecodeError α) :
    takeBackground (bgf :: r) k = .error (.reservedBackground bgf) := by
  match r, hr with
  | hi :: lo :: r, _ =>
    simp only [takeBackground, takeByte_cons, take16]
    split
    · omega
    · omega
    · rfl

/-- The background of DRAWTEXT comes after the six bytes of its place and colour. -/
theorem decodeFD_reservedBackground {f r : List Byte} {bgf : Byte} (h : 2 ≤ bgf.toNat) (hr : 2 ≤ r.length)
    (hf : f.length = 6) : decodeFD (f ++ bgf :: r) = .error (.reservedBackground bgf) := by
  match f, hf with
  | [_, _, _, _, _, _], _ => simp [decodeFD, take16, takeBackground_reserved h hr]

/-- The background of RENDERTEXT comes after the two bytes of its colour. -/
theorem decodeFK_reservedBackground {f r : List Byte} {bgf : Byte} (h : 2 ≤ bgf.toNat) (hr : 2 ≤ r.length)
    (hf : f.length = 2) : decodeFK (f ++ bgf :: r) = .error (.reservedBackground bgf) := by
  match f, hf with
  | [_, _], _ => simp [decodeFK, take16, takeBackground_reserved h hr]

end Sys2Proof

namespace Sys2Proof.Machine

/-- The step that reads bytes the decoder rejects is the refusal. -/
theorem step_of_decodePort_error {s : State} {bs : List Byte} {r : List (List Byte)} {e : DecodeError}
    (hb : s.ctl.blocked = none) (hm : s.ctl.micro = none) (hh : s.env.host = bs :: r) (hd : decodePort bs = .error e) :
    step s = .refused (decodeRefusal e) := by
  simp only [step, stepPort, hb, hm, hh, hd]

theorem gameBytes_of_decodePort_error (s : State) {bs : List Byte} {e : DecodeError} (hd : decodePort bs = .error e) :
    gameBytes bs s = Play.refuse (decodeRefusal e) s := by
  simp only [gameBytes, hd]

/-- Settles O3: the decoder's error in each case, and what the port and the Game do with any error. -/
theorem reservedEncodingsRefused : Obligations.ReservedEncodingsRefused :=
  ⟨fun _ r h => decodePort_of_error (decodeOp_reservedCode h r),
    fun _ _ _ h hr hf => decodePort_of_error (decodeFD_reservedBackground h hr hf),
    fun _ _ _ h hr hf => decodePort_of_error (decodeFK_reservedBackground h hr hf),
    fun _ n hwf hp hn => decodePort_of_error ((decodeOp_reads hwf hp).short_truncated n hn),
    fun _ _ _ _ => step_of_decodePort_error, fun s _ _ => gameBytes_of_decodePort_error s, fun _ => rfl⟩

end Sys2Proof.Machine
end

section
/-! SUPPORT. What the bus primitives put on the framed trace while no bus fault is injected (30_encoding.md R100 to
R105). -/

namespace Sys2Proof.Machine

@[simp] theorem trace_emit (e : Event) (s : State) : (s.emit e).trace = s.trace ++ [e] := List.reverse_cons

theorem trace_congr {s t : State} (h : t.out = s.out) : t.trace = s.trace := congrArg List.reverse h

theorem trace_openTx (l : Bool) (s : State) : (openTx l s).trace = s.trace ++ [.dc l, .cs false] := by
  rw [openTx, trace_emit, trace_emit, List.append_assoc]
  rfl

theorem trace_closeTx (s : State) : (closeTx s).trace = s.trace ++ [.cs true] := trace_emit _ _

theorem cmdDone_trace (b : Byte) (s : State) :
    (cmdDone b s).trace = s.trace ++ [.dc s.par.dcCmd, .cs false, .cmd b, .cs true] := by
  rw [cmdDone, trace_closeTx, trace_congr (panelCmd_panelOnly b _).out, trace_emit, trace_openTx]
  simp

theorem sentData_trace (bs : List Byte) (s : State) : (sentData bs s).trace = s.trace ++ bs.map Event.dat := by
  simp [State.trace, sentData_out]

/-- Data that are not empty are one transaction (R101). -/
theorem dataDone_trace (b : Byte) (r : List Byte) (s : State) : (dataDone (b :: r) s).trace =
    s.trace ++ [.dc s.par.dcData, .cs false] ++ (b :: r).map Event.dat ++ [.cs true] := by
  rw [dataDone, trace_closeTx, sentData_trace, trace_openTx]

/-- So is a read of at least one byte (R102). -/
theorem readDone_trace (n : Nat) (s : State) : (readDone (n + 1) s).2.trace =
    s.trace ++ [.dc s.par.dcData, .cs false] ++ (readDone (n + 1) s).1.map Event.rd ++ [.cs true] := by
  obtain ⟨r, _, hbytes, hout⟩ := received_bytes (n + 1) [] (openTx s.par.dcData s)
  have htrace : (received (n + 1) [] (openTx s.par.dcData s)).2.trace =
      (openTx s.par.dcData s).trace ++ r.map Event.rd := by
    simp [State.trace, hout]
  rw [readDone, trace_closeTx, htrace, trace_openTx, hbytes]
  rfl

theorem rstDone_trace (l : Bool) (s : State) : (rstDone l s).trace = s.trace ++ [.rst l] := by
  rw [rstDone, trace_congr (panelRst_panelOnly l _).out, trace_emit]
  rfl

theorem rstDone_pins (l : Bool) (s : State) : (rstDone l s).pins = { s.pins with rstN := l } :=
  (panelRst_panelOnly l _).pins

/-- Settles O18: the closed form of each primitive, its trace and its pins. -/
theorem busPrimitivesFrameTransactions : Obligations.BusPrimitivesFrameTransactions :=
  fun s hq => ⟨fun b => ⟨_, busCmd_quiet b hq, cmdDone_pins b s, cmdDone_trace b s⟩,
    rfl,
    fun b r => ⟨_, busData_quiet (b :: r) hq, dataDone_pins (b :: r) s, dataDone_trace b r s⟩,
    rfl,
    fun n => ⟨_, _, busRead_quiet (n + 1) hq, (readDone_flat (n + 1) s).1, readDone_pins (n + 1) s, readDone_trace n s⟩,
    fun l => ⟨_, rstLine_quiet l hq, rstDone_pins l s, rstDone_trace l s⟩,
    fun ms => busWait_quiet ms hq⟩

end Sys2Proof.Machine
end

section
/-! SUPPORT. The framing laws of the bus (30_encoding.md R106). `FramedAt par p s` says where the framed trace of a
state stands; each bus primitive opens a transaction and closes it again, or the thread is stuck in it (60_exceptions.md
R303), or a fault is latched (R298). -/

namespace Sys2Proof.Machine

/-! ### Where a trace stands -/

theorem frameRun_append (par : Params) (p : FramePos) (xs ys : List Event) :
    frameRun par p (xs ++ ys) = (frameRun par p xs).bind fun q => frameRun par q ys := by
  induction xs generalizing p with
  | nil => rfl
  | cons e r ih =>
    rw [List.cons_append, frameRun, frameRun, Option.bind_assoc]
    exact congrArg _ (funext ih)

/-- The level of CS_n at a position: 0 inside a transaction. -/
def FramePos.csN : FramePos → Bool
  | .outside _ => true
  | .inside _ _ => false

/-- The thread is in no stuck transfer, and unless a fault is latched the trace obeys the framing laws, stands at p, and
CS_n has p's level. It speaks of no other field, so that an update of another field keeps it by unfolding. -/
def FramedAt (par : Params) (p : FramePos) (s : State) : Prop :=
  s.par = par ∧ par.dcCmd ≠ par.dcData ∧ s.ctl.blocked ≠ some .bus ∧
    (NoFault s → frameRun par (.outside none) s.trace = some p ∧ s.pins.csN = p.csN)

variable {par : Params} {p q : FramePos} {s t : State}

theorem FramedAt.par_eq (h : FramedAt par p s) : s.par = par := h.1
theorem FramedAt.levels (h : FramedAt par p s) : par.dcCmd ≠ par.dcData := h.2.1

/-- No transaction is open: where every operation begins. -/
theorem FramedAt.framed (h : FramedAt par (.outside none) s) : Framed s := by
  obtain ⟨rfl, hl, _, hpos⟩ := h
  exact ⟨hl, fun hn => ⟨_, (hpos hn).1, fun _ => ⟨rfl, (hpos hn).2⟩⟩⟩

theorem Framed.framedAt (h : Framed s) (hb : s.ctl.blocked ≠ some .bus) : FramedAt s.par (.outside none) s := by
  refine ⟨rfl, h.1, hb, fun hn => ?_⟩
  obtain ⟨p, hp, hout⟩ := h.2 hn
  obtain ⟨rfl, hcs⟩ := hout hb
  exact ⟨hp, hcs⟩

/-- One event that the laws admit, and the pins set with it. -/
theorem FramedAt.event (h : FramedAt par p s) {e : Event} (he : frameStep par p e = some q) (pins : Pins)
    (hq : s.pins.csN = p.csN → pins.csN = q.csN) : FramedAt par q (({ s with pins := pins } : State).emit e) := by
  obtain ⟨hpar, hl, hb, hpos⟩ := h
  refine ⟨hpar, hl, hb, fun hn => ⟨?_, hq (hpos hn).2⟩⟩
  have htr : (({ s with pins := pins } : State).emit e).trace = s.trace ++ [e] := trace_emit e _
  rw [htr, frameRun_append, (hpos hn).1]
  simp [frameRun, he]

/-- An event that opens and closes nothing. -/
theorem FramedAt.emit (h : FramedAt par p s) {e : Event} (he : frameStep par p e = some q) (hq : q.csN = p.csN) :
    FramedAt par q (s.emit e) := h.event he s.pins fun hs => hs.trans hq.symm

/-- The panel has no part in the framing. -/
theorem FramedAt.panelOnly (h : FramedAt par p s) (k : PanelOnly s t) : FramedAt par p t := by
  unfold FramedAt NoFault State.trace at h ⊢
  rwa [k.par, k.ctl, k.fault, k.out, k.pins]

theorem FramedAt.setSt (h : FramedAt par p s) (st : DpState) : FramedAt par p (s.setSt st) := h

theorem FramedAt.setDevuIf (h : FramedAt par p s) (c : Bool) : FramedAt par p (setDevuIf c s) :=
  h.panelOnly (setDevuIf_panelOnly c s)

/-- Once a fault is latched no claim is made (R298). -/
theorem FramedAt.enterFault (h : FramedAt par p s) {code : BitVec 8} (hc : code ≠ 0) (info : FaultInfo) :
    Framed (enterFault code info s) := by
  obtain ⟨rfl, hl, _⟩ := h
  refine ⟨hl, fun hn => ?_⟩
  simp only [NoFault, Machine.enterFault] at hn
  split at hn
  · exact absurd hn hc
  · contradiction

/-- A transfer that never completes may leave its transaction open (R303). -/
theorem FramedAt.stall (h : FramedAt par p s) : Framed { s with ctl := { s.ctl with blocked := some .bus } } := by
  obtain ⟨rfl, hl, _, hpos⟩ := h
  exact ⟨hl, fun hn => ⟨p, (hpos hn).1, fun hb => absurd rfl hb⟩⟩

/-- The Game or the provider hangs between transactions (R302). -/
theorem FramedAt.hang (h : FramedAt par (.outside none) s) {b : Block} (hb : b ≠ .bus) :
    Framed { s with ctl := { s.ctl with blocked := some b } } := by
  obtain ⟨hpar, hl, _, hpos⟩ := h
  exact FramedAt.framed (par := par) ⟨hpar, hl, fun e => hb (Option.some.inj e), hpos⟩

/-! ### The bus primitives -/

/-- If the piece completed its trace stands at p; if not, the laws hold all the same. -/
def Run.Framed {α : Type} (par : Params) (p : FramePos) (r : Run α) : Prop :=
  match r with
  | .live _ t => FramedAt par p t
  | .dead t => Machine.Framed t

theorem framed_bind {α β : Type} {r : Run α} {k : α → State → Run β} (h : r.Framed par p)
    (hk : ∀ a t, FramedAt par p t → (k a t).Framed par q) : (r.bind k).Framed par q := by
  cases r with
  | live a t => exact hk a t h
  | dead t => exact h

theorem framed_andThen {α : Type} {r : Run Unit} {k : State → Run α} (h : r.Framed par p)
    (hk : ∀ t, FramedAt par p t → (k t).Framed par q) : (r.andThen k).Framed par q := framed_bind h fun _ => hk

theorem framed_pollIdle (h : FramedAt par p s) : (pollIdle s).Framed par p := by
  unfold pollIdle
  split
  · exact h
  · exact h
  · exact FramedAt.enterFault (s := s.setBus _) h (by decide) _
  · exact FramedAt.enterFault (s := s.setBus _) h (by decide) _
  · exact h

theorem framed_pollTransfer (h : FramedAt par p s) : (pollTransfer s).Framed par p := by
  unfold pollTransfer
  split
  · exact h
  · exact h
  · exact FramedAt.enterFault (s := s.setBus _) h (by decide) _
  · exact FramedAt.enterFault (s := s.setBus _) h (by decide) _
  · exact FramedAt.stall (s := s.setBus _) h

/-- R106 (c): DC has the transaction's level before CS_n falls. -/
theorem FramedAt.openTx {d : Option Bool} (h : FramedAt par (.outside d) s) (l : Bool) :
    FramedAt par (.inside l 0) (openTx l s) :=
  (h.emit (e := .dc l) rfl rfl).event (e := .cs false) rfl { s.pins with dc := l, csN := false } fun _ => rfl

/-- R106 (b): the command byte is the only one of its transaction. -/
theorem framed_sendCmd (b : Byte) (h : FramedAt par (.inside par.dcCmd 0) s) :
    (sendCmd b s).Framed par (.inside par.dcCmd 1) :=
  framed_andThen (framed_pollTransfer h) fun _ h =>
    (h.emit (e := .cmd b) (if_pos ⟨rfl, rfl⟩) rfl).panelOnly (panelCmd_panelOnly b _)

theorem framed_sendData (bs : List Byte) {n : Nat} (h : FramedAt par (.inside par.dcData n) s) :
    (sendData bs s).Framed par (.inside par.dcData (n + bs.length)) := by
  induction bs generalizing n s with
  | nil => exact h
  | cons b r ih =>
    rw [List.length_cons, show n + (r.length + 1) = n + 1 + r.length by omega]
    exact framed_andThen (framed_pollTransfer h) fun _ h =>
      ih ((h.emit (e := .dat b) (if_pos rfl) rfl).panelOnly (panelData_panelOnly b _))

theorem framed_recvData (k : Nat) (got : List Byte) {n : Nat} (h : FramedAt par (.inside par.dcData n) s) :
    (recvData k got s).Framed par (.inside par.dcData (n + k)) := by
  induction k generalizing n got s with
  | zero => exact h
  | succ k ih =>
    rw [show n + (k + 1) = n + 1 + k by omega]
    exact framed_andThen (framed_pollTransfer h) fun t h =>
      ih _ ((h.panelOnly (panelRead_panelOnly t)).emit (e := .rd _) (if_pos rfl) rfl)

/-- A command transaction closes after its one byte, a data transaction after any number. -/
theorem framed_endTx {l : Bool} {n : Nat} (h : FramedAt par (.inside l n) s) (hn : l = par.dcCmd → n = 1) :
    (endTx s).Framed par (.outside none) :=
  framed_andThen (framed_pollTransfer h) fun t h =>
    h.event (e := .cs true) (if_pos hn) { t.pins with csN := true } fun _ => rfl

section
variable (h : FramedAt par (.outside none) s)
include h

theorem framed_busCmd (b : Byte) : (busCmd b s).Framed par (.outside none) :=
  framed_andThen (framed_pollIdle h) fun t h => by
    rw [h.par_eq]
    exact framed_andThen (framed_sendCmd b (h.openTx _)) fun _ h => framed_endTx h fun _ => rfl

theorem framed_busData (bs : List Byte) : (busData bs s).Framed par (.outside none) := by
  cases bs with
  | nil => exact h
  | cons b r =>
    refine framed_andThen (framed_pollIdle h) fun t h => ?_
    rw [h.par_eq]
    exact framed_andThen (framed_sendData (b :: r) (h.openTx _)) fun _ h =>
      framed_endTx h fun e => absurd e.symm h.levels

theorem framed_busRead (n : Nat) : (busRead n s).Framed par (.outside none) := by
  cases n with
  | zero => exact h
  | succ n =>
    refine framed_andThen (framed_pollIdle h) fun t h => ?_
    rw [h.par_eq]
    exact framed_bind (framed_recvData (n + 1) [] (h.openTx _)) fun _ _ h =>
      framed_andThen (framed_endTx h fun e => absurd e.symm h.levels) fun _ h => h

theorem framed_rstLine (l : Bool) : (rstLine l s).Framed par (.outside none) :=
  framed_andThen (framed_pollIdle h) fun t h =>
    (h.event (e := .rst l) rfl { t.pins with rstN := l } id).panelOnly (panelRst_panelOnly l _)

theorem framed_busWait (ms : Nat) : (busWait ms s).Framed par (.outside none) :=
  framed_andThen (framed_pollIdle h) fun _ h => h.emit rfl rfl

/-! ### Frames and unit DP: bus primitives, and registers between them -/

/-- A command transaction and its parameters, whatever DP.ST holds meanwhile. -/
theorem framed_frame (st1 st2 : DpState) (c : Byte) (ps : List Byte) :
    ((busCmd c (s.setSt st1)).andThen fun s => busData ps (s.setSt st2)).Framed par (.outside none) :=
  framed_andThen (framed_busCmd (h.setSt st1) c) fun _ h => framed_busData (h.setSt st2) ps

theorem framed_dpReset : (dpReset s).Framed par (.outside none) :=
  framed_andThen (framed_rstLine (h.setSt _) false) fun _ h => framed_andThen (framed_busWait h _) fun _ h =>
    framed_andThen (framed_rstLine (h.setSt _) true) fun _ h => framed_andThen (framed_busWait h _) fun _ h => h

theorem framed_sendEntries (es : List InitEntry) (k : Nat) : (sendEntries es k s).Framed par (.outside none) := by
  induction es generalizing k s with
  | nil => exact h
  | cons e r ih =>
    exact framed_andThen (framed_frame (s := { s with dp := { s.dp with seq := k } }) h _ _ _ _) fun _ h => ih h (k + 1)

theorem framed_dpInit : (dpInit s).Framed par (.outside none) :=
  framed_andThen (framed_sendEntries (h.setDevuIf _) _ _) fun _ h =>
    framed_andThen (framed_busCmd (h.setSt _) _) fun _ h => framed_andThen (framed_busWait h _) fun _ h =>
      framed_andThen (framed_busCmd (h.setSt _) _) fun _ h => framed_andThen (framed_busWait h _) fun _ h => h

/-- The three frames of a window, whichever RAM command ends them. -/
theorem framed_sendWindow {ram : State → Run Unit}
    (hram : ∀ t, FramedAt par (.outside none) t → (ram t).Framed par (.outside none)) (mode : StreamMode)
    (x0 y0 x1 y1 : Half) : (sendWindow ram mode x0 y0 x1 y1 s).Framed par (.outside none) :=
  framed_andThen (framed_frame h _ _ _ _) fun _ h => framed_andThen (framed_frame h _ _ _ _) fun t h =>
    framed_andThen (hram t h) fun _ h => h

theorem framed_dpSetwin (x0 y0 x1 y1 : Int) : (dpSetwin x0 y0 x1 y1 s).Framed par (.outside none) :=
  framed_sendWindow (h.setDevuIf _) (fun _ h => framed_busCmd (h.setSt .ramCmd) _) _ _ _ _ _

theorem framed_dpSetwinrd (x0 y0 x1 y1 : Int) : (dpSetwinrd x0 y0 x1 y1 s).Framed par (.outside none) :=
  framed_sendWindow (h.setDevuIf _) (fun _ h => framed_busCmd (h.setSt .ramCmd) _) _ _ _ _ _

theorem framed_dpWrpix (buf : List Byte) : (dpWrpix buf s).Framed par (.outside none) :=
  framed_andThen (framed_busData ((h.setDevuIf _).setSt _) buf) fun _ h => h

theorem framed_dpRdpix (n : Nat) : (dpRdpix n s).Framed par (.outside none) :=
  framed_bind (framed_busRead ((h.setDevuIf _).setSt _) _) fun _ _ h => h

/-! ### Unit GS -/

theorem framed_streamRep (fuel k left : Nat) (color : Half) :
    (streamRep fuel k left color s).Framed par (.outside none) := by
  induction fuel generalizing left s with
  | zero => exact h
  | succ n ih =>
    unfold streamRep
    split
    · exact h
    · exact framed_andThen (framed_dpWrpix h _) fun _ h => ih h _

theorem framed_gsFillrect (x y w k : Int) (color : Half) : (gsFillrect x y w k color s).Framed par (.outside none) := by
  unfold gsFillrect
  split
  · exact framed_andThen (framed_dpSetwin h _ _ _ _) fun _ h => framed_streamRep h _ _ _ _
  · exact h

theorem framed_gsSafefillrect (x y w k : Int) (color : Half) :
    (gsSafefillrect x y w k color s).Framed par (.outside none) := by
  simp only [gsSafefillrect]
  split
  · exact h
  · exact framed_gsFillrect h _ _ _ _ _

theorem framed_gsLoadsprite (key : SpriteKey) : (gsLoadsprite key s).Framed par (.outside none) := by
  unfold gsLoadsprite
  split
  · exact h
  · simp only [loadMiss]
    split
    · exact FramedAt.enterFault (s := (readResource s).2) h (by decide) _
    · split <;> exact h

theorem FramedAt.cacheGetOrBuild (key : TextKey) : FramedAt par (.outside none) (cacheGetOrBuild key s).2 := by
  unfold Machine.cacheGetOrBuild
  split
  · exact h
  · dsimp only
    split <;> exact h

end

/-! ### Operations -/

/-- An operation leaves the laws as they are; if it completed, the thread is in no stuck transfer. -/
def Play.Framed (par : Params) (p : Play) : Prop :=
  (p.live = true → FramedAt par (.outside none) p.st) ∧ (p.live = false → Machine.Framed p.st)

theorem framed_done (h : FramedAt par (.outside none) s) : (Play.done s).Framed par :=
  ⟨fun _ => h, fun hl => nomatch hl⟩

theorem framed_refuse (why : Refusal) (h : FramedAt par (.outside none) s) : (Play.refuse why s).Framed par :=
  ⟨fun hl => (nomatch hl), fun _ => h.framed⟩

theorem framed_ofRun {r : Run Unit} (h : r.Framed par (.outside none)) : (Play.ofRun r).Framed par := by
  cases r with
  | live a t => exact framed_done h
  | dead t => exact ⟨fun hl => (nomatch hl), fun _ => h⟩

/-- A piece and then its result. -/
theorem framed_finish {r : Run Unit} (h : r.Framed par (.outside none)) (res : Result) :
    (Play.ofRun (r.andThen (finish res))).Framed par := framed_ofRun (framed_andThen h fun _ h => h)

theorem framed_playThen {p : Play} {k : State → Play} (h : p.Framed par)
    (hk : ∀ t, FramedAt par (.outside none) t → (k t).Framed par) : (p.andThen k).Framed par := by
  unfold Play.andThen
  split
  · rename_i hl
    exact hk _ (h.1 hl)
  · exact h

theorem Play.Framed.st {p : Play} (h : p.Framed par) : Machine.Framed p.st := by
  cases hl : p.live with
  | true => exact (h.1 hl).framed
  | false => exact h.2 hl

theorem Play.Framed.outcome {p : Play} (h : p.Framed par) (ho : p.outcome = .next t) : Machine.Framed t :=
  outcome_next ho ▸ h.st

theorem framed_frameAlone {r : Run Unit} (h : r.Framed par (.outside none)) : (Play.ofRun (frameAlone r)).Framed par :=
  framed_ofRun (framed_andThen h fun _ h => h)

section
variable (h : FramedAt par (.outside none) s)
include h

theorem framed_opBlit (x y x1 y1 : Int) (buf : List Byte) : (opBlit x y x1 y1 buf s).Framed par := by
  unfold opBlit
  split
  · exact framed_finish (framed_andThen (framed_dpSetwin h _ _ _ _) fun _ h => framed_dpWrpix h buf) _
  · exact framed_refuse _ h

theorem framed_opDrawtext (x y : Int) (text : List Byte) (color : Half) (bg : Option Half) (scale : Int) :
    (opDrawtext x y text color bg scale s).Framed par := by
  simp only [opDrawtext]
  split
  · exact framed_opBlit h _ _ _ _ _
  · exact framed_opBlit (h.cacheGetOrBuild _) _ _ _ _ _

theorem framed_gameOp (i : Instr) : (gameOp i s).Framed par := by
  cases i with
  | reset => exact framed_finish (framed_dpReset h) _
  | init => exact framed_finish (framed_dpInit h) _
  | setwin x0 y0 x1 y1 =>
    simp only [gameOp, opSetwin]
    split
    · exact framed_finish (framed_dpSetwin h _ _ _ _) _
    · exact framed_refuse _ h
  | setwinrd x0 y0 x1 y1 =>
    simp only [gameOp, opSetwinrd]
    split
    · exact framed_finish (framed_dpSetwinrd h _ _ _ _) _
    · exact framed_refuse _ h
  | wrpix buf => exact framed_finish (framed_dpWrpix h buf) _
  | rdpix n => exact framed_ofRun (framed_bind (framed_dpRdpix h n) fun _ _ h => h)
  | clear color => exact framed_finish (framed_gsFillrect h _ _ _ _ _) _
  | fillrect x y w k color => exact framed_finish (framed_gsFillrect h _ _ _ _ _) _
  | safefillrect x y w k color => exact framed_finish (framed_gsSafefillrect h _ _ _ _ _) _
  | drawimage x y w k buf => exact framed_opBlit h _ _ _ _ _
  | drawtext x y text color bg scale => exact framed_opDrawtext h _ _ _ _ _ _
  | loadsprite name w k => exact framed_ofRun (framed_bind (framed_gsLoadsprite h _) fun _ _ h => h)
  | textsize | rendertext | clearcaches | stop => exact ⟨fun _ => h, fun hl => nomatch hl⟩
  | run | tickstart | sample | edge | dispatch | gesture | update | draw | pace => exact framed_refuse _ h
  | busCaset | busPaset | busRamwr | busRamrd | busSlpout | busDispon | busInitEntry => exact framed_refuse _ h

theorem framed_gameBytes (bs : List Byte) : (gameBytes bs s).Framed par := by
  unfold gameBytes
  split
  · exact framed_gameOp h _
  · exact framed_refuse _ h

theorem framed_gameOps (ops : List (List Byte)) : (gameOps ops s).Framed par := by
  induction ops generalizing s with
  | nil => exact framed_done h
  | cons bs r ih => exact framed_playThen (framed_gameBytes h bs) fun _ h => ih h

/-! ### Callbacks and tick phases: their events lie between transactions -/

theorem framed_closeCallback (c : Callback) (r : Reply) : (closeCallback c r s).Framed par (.outside none) := by
  cases r with
  | ok b => exact h.emit rfl rfl
  | fail => exact (h.emit (e := .answer c .fail) rfl rfl).enterFault (by decide) _
  | never => exact h.hang (by decide)

end

/-- A callback that a fault ended answers `fail` after it. -/
theorem framed_failCallback (c : Callback) {p : Play} (h : p.Framed par) : (failCallback c p).Framed par := by
  unfold failCallback
  split
  case isTrue => exact h
  case isFalse hc =>
    simp only [Bool.or_eq_true, not_or, Bool.not_eq_true] at hc
    obtain ⟨⟨hl, _⟩, hb⟩ := hc
    have hn : p.st.ctl.blocked ≠ some .bus := fun e => by simp [e] at hb
    exact ⟨fun hl' => absurd hl' (by simp [hl]), fun _ => (((h.2 hl).framedAt hn).emit rfl rfl).framed⟩

section
variable (h : FramedAt par (.outside none) s)
include h

theorem framed_callGame (c : Callback) : (callGame c s).Framed par :=
  have hopen : FramedAt par (.outside none) (openCallback c s) := FramedAt.emit (e := .call c) h rfl rfl
  framed_playThen (framed_failCallback c (framed_gameOps hopen _)) fun _ h => framed_ofRun (framed_closeCallback h c _)

theorem framed_callHandlers (ks : List (Fin 6)) : (callHandlers ks s).Framed par := by
  induction ks generalizing s with
  | nil => exact framed_done h
  | cons k r ih =>
    refine framed_playThen ?_ fun _ h => ih h
    split
    · exact framed_callGame h _
    · exact framed_done h

theorem framed_ieSample : (ieSample s).Framed par (.outside none) := by
  have hask : FramedAt par (.outside none) (askProvider (s.setPh 1)).2 := FramedAt.emit (e := .provider) h rfl rfl
  simp only [ieSample]
  split
  · split
    · exact hask
    · exact hask.enterFault (by decide) _
    · exact hask.hang (by decide)
  · exact h

theorem framed_ieGesture : (ieGesture s).Framed par := by
  simp only [ieGesture]
  split
  · split
    · refine framed_playThen ?_ fun t h => framed_done (s := setSkip t) h
      split
      · exact framed_callGame (s := setCand none (readClock (s.setPh 4)).2) h _
      · exact framed_done (s := setCand none (readClock (s.setPh 4)).2) h
    · exact framed_done (s := setCand _ (readClock (s.setPh 4)).2) h
  · exact framed_done (s := s.setPh 4) h

theorem framed_drawAndPresent : (drawAndPresent s).Framed par :=
  framed_playThen (framed_callGame h _) fun _ h => framed_done (h.emit rfl rfl)

theorem framed_fsDraw : (fsDraw s).Framed par := by
  simp only [fsDraw]
  split
  · refine framed_playThen (framed_callGame (s := s.setPh 6) h _) fun t h => ?_
    split
    · exact framed_drawAndPresent h
    · exact framed_done h
  · exact framed_drawAndPresent (s := s.setPh 6) h

/-! ### exec and step -/

theorem exec_framed {i : Instr} (he : exec i s = .next t) : Framed t := by
  by_cases hp : i.space = .port ∧ i ≠ .run
  · rw [← gameOp_outcome s hp.1 hp.2] at he
    exact (framed_gameOp h i).outcome he
  cases i with
  | run | tickstart => cases he; exact h.framed
  | sample => exact (framed_ofRun (framed_ieSample h)).outcome he
  | edge => exact (framed_done (s := ieEdge s) h).outcome he
  | dispatch => exact (framed_callHandlers (s := s.setPh 3) h _).outcome he
  | gesture => exact (framed_ieGesture h).outcome he
  | update => exact (framed_callGame (s := s.setPh 5) h _).outcome he
  | draw => exact (framed_fsDraw h).outcome he
  | pace =>
    simp only [exec, execPace] at he
    split at he
    · cases he
      exact (FramedAt.emit (s := (readClock (s.setPh 7)).2) h rfl rfl).framed
    · cases he
      exact h.framed
  | busCaset | busPaset | busInitEntry =>
    exact (framed_frameAlone (framed_frame h _ _ _ _)).outcome he
  | busRamwr | busRamrd | busSlpout | busDispon =>
    exact (framed_frameAlone (framed_busCmd (h.setSt _) _)).outcome he
  | _ => exact absurd ⟨rfl, by simp⟩ hp

end

theorem framed_returnToHost (h : Framed s) (hb : s.ctl.blocked.isSome = false) : Framed (returnToHost s) :=
  ((h.framedAt fun e => by simp [e] at hb).emit rfl rfl).framed

theorem framed_afterPhase (i : Instr) (h : Framed s) : Framed (afterPhase i s) := by
  unfold afterPhase
  split
  case isTrue => exact h
  case isFalse hb =>
    split
    · exact framed_returnToHost h (eq_false_of_ne_true hb)
    · unfold advance
      split <;> exact h

theorem framed_afterPort (h : Framed s) : Framed (afterPort s) := by
  unfold afterPort
  split
  case isTrue => exact h
  case isFalse hc =>
    rw [Bool.or_eq_true, not_or, Bool.not_eq_true] at hc
    exact framed_returnToHost h hc.1

/-- Settles O23: a step begins between transactions; exec keeps the laws, and what follows exec is outside any. -/
theorem everyStepKeepsFraming : Obligations.EveryStepKeepsFraming := by
  intro s t hs h
  have hb : s.ctl.blocked = none := step_blocked_none h
  have hat : FramedAt s.par (.outside none) s := hs.framedAt (by simp [hb])
  simp only [step, hb] at h
  split at h
  case h_1 i _ =>
    split at h
    case isTrue =>
      unfold stepPhase at h
      split at h
      · cases h
        exact framed_returnToHost (s := { pollStop s with ctl := { s.ctl with micro := none, result := .stopped } })
          hs (by simp [hb])
      · obtain ⟨u, hu, rfl⟩ := mapNext_next h
        exact framed_afterPhase i (exec_framed (s := pollStop s) hat hu)
    case isFalse => exact exec_framed (s := s.setMicro none) hat h
  case h_2 =>
    split at h
    case h_1 => cases h; exact hs
    case h_2 bs r _ =>
      unfold stepPort at h
      split at h
      · obtain ⟨u, hu, rfl⟩ := mapNext_next h
        exact framed_afterPort (exec_framed (s := s.setHost r) hat hu)
      · cases h

end Sys2Proof.Machine
end

section
/-! SUPPORT. What a command frame by itself sends and leaves alone (30_encoding.md R107; log entry 25). -/

namespace Sys2Proof.Machine

/-- An outcome that is the end of a frame: its bytes are on the trace, DP.ST is idle, nothing else of the hardware but
the pins has changed. -/
theorem frameDone_sends (st1 st2 : DpState) (cmd : Byte) (ps : List Byte) {s : State}
    {o : Host.Outcome State Fault Refusal}
    (ho : o = .next (((frameDone st1 st2 cmd ps s).setSt .idle).setResult .nothing)) :
    ∃ t, o = .next t ∧ t.flat = s.flat ++ .cmd cmd :: ps.map Event.dat ∧ t.dp = { s.dp with st := .idle } ∧
      t.pins = pinsAfterBlit s ps.length ∧ t.gs = s.gs ∧ t.ctl.result = .nothing ∧ SameBeyondBus s t := by
  have hkeeps := (frameDone_dpOnly st1 st2 cmd ps s).trans (setSt_dpOnly .idle _)
  refine ⟨_, ho, ?flat, ?dp, frameDone_pins st1 st2 cmd ps s, hkeeps.gs, rfl, hkeeps.sameBeyondBus .nothing⟩
  case flat => rw [flat_setResult, flat_setSt, frameDone_flat]
  case dp => rw [State.setResult_dp, State.setSt_dp, frameDone_dp]

/-- Settles O19: `frameDone_sends` for each frame; one without parameters ends as one with the empty list of them. -/
theorem busFramesSendBytes : Obligations.BusFramesSendBytes := by
  intro s hq sends
  have parameters := fun st1 st2 c ps => frameDone_sends st1 st2 c ps (frameAlone_frame st1 st2 c ps hq)
  have command := fun c st => frameDone_sends st .idle c [] (frameAlone_busCmd c st hq)
  exact ⟨fun x0 x1 => parameters .colCmd .colDat _ (be16 x0 ++ be16 x1),
    fun y0 y1 => parameters .rowCmd .rowDat _ (be16 y0 ++ be16 y1),
    command _ .ramCmd, command _ .ramCmd, command _ .slpout, command _ .dispon,
    fun cmd params => parameters .initCmd .initDat cmd params⟩

end Sys2Proof.Machine
end

section
/-! SUPPORT. DRAWIMAGE as SETWIN and then WRPIX (30_encoding.md R99): between the two only the result of SETWIN stands,
which nothing on the way to the panel reads. -/

namespace Sys2Proof.Machine

/-! ### The result of the last operation has no part in a stream -/

theorem setDevuIf_setResult (c : Bool) (r : Result) (s : State) :
    setDevuIf c (s.setResult r) = (setDevuIf c s).setResult r := by
  cases c <;> rfl

/-- A data byte changes the panel only, and in the same way whatever the result is. -/
theorem panelData_setResult (d : Byte) (r : Result) (s : State) :
    panelData d (s.setResult r) = (panelData d s).setResult r := by
  have halike : PanelAlike (panelData d s) (panelData d (s.setResult r)) :=
    PanelAlike.panelData d (by constructor <;> rfl)
  calc panelData d (s.setResult r)
    _ = (s.setResult r).withPanel _ _ _ := (panelData_panelOnly d (s.setResult r)).eq_withPanel
    _ = (s.withPanel (panelData d s).pan (panelData d s).devu (panelData d s).draws).setResult r := by
      rw [halike.pan, halike.devu, halike.draws]; rfl
    _ = (panelData d s).setResult r := congrArg (State.setResult r) (panelData_panelOnly d s).eq_withPanel.symm

theorem sentData_setResult (bs : List Byte) (r : Result) (s : State) :
    sentData bs (s.setResult r) = (sentData bs s).setResult r := by
  induction bs generalizing s with
  | nil => rfl
  | cons b bs ih => exact (congrArg (sentData bs) (panelData_setResult b r (s.emit (.dat b)))).trans (ih _)

theorem dataDone_setResult (bs : List Byte) (r : Result) (s : State) :
    dataDone bs (s.setResult r) = (dataDone bs s).setResult r := by
  cases bs with
  | nil => rfl
  | cons b bs => exact congrArg closeTx (sentData_setResult (b :: bs) r (openTx s.par.dcData s))

theorem wrpixDone_setResult (buf : List Byte) (r : Result) (s : State) :
    wrpixDone buf (s.setResult r) = (wrpixDone buf s).setResult r := by
  have hd : (setDevuIf (streamDevu s .write) (s.setResult r)).setSt .tx =
      ((setDevuIf (streamDevu s .write) s).setSt .tx).setResult r := by rw [setDevuIf_setResult]; rfl
  exact congrArg (State.setSt .idle) ((congrArg (dataDone buf) hd).trans (dataDone_setResult buf r _))

/-! ### DRAWIMAGE -/

theorem execDrawimage_quiet {s : State} {x y w h : Int} (buf : List Byte) (hq : Quiet s)
    (hb : boundsOk x y (x + w - 1) (y + h - 1) = true) : exec (.drawimage x y w h buf) s =
      .next ((wrpixDone buf (setwinDone x y (x + w - 1) (y + h - 1) s)).setResult .nothing) :=
  opBlit_quiet buf hq hb

theorem drawimage_is_setwin_wrpix {s : State} {x y w h : Int} (buf : List Byte) (hq : Quiet s)
    (hb : boundsOk x y (x + w - 1) (y + h - 1) = true) :
    ∃ t u, exec (.setwin x y (x + w - 1) (y + h - 1)) s = .next t ∧ exec (.wrpix buf) t = .next u ∧
      exec (.drawimage x y w h buf) s = .next u := by
  have hqt : Quiet ((setwinDone x y (x + w - 1) (y + h - 1) s).setResult .nothing) :=
    (setwinDone_dpOnly x y (x + w - 1) (y + h - 1) s).quiet hq
  refine ⟨_, _, execSetwin_quiet hq hb, execWrpix_quiet buf hqt, ?_⟩
  rw [execDrawimage_quiet buf hq hb, wrpixDone_setResult]
  rfl

/-- Settles O30: the expansion, and `blit_paint` for the picture. -/
theorem drawimageIsWindowThenPixels : Obligations.DrawimageIsWindowThenPixels :=
  ⟨fun _ _ _ _ _ buf hq hb => drawimage_is_setwin_wrpix buf hq hb, fun _ _ _ _ _ buf hr hi hl =>
    ⟨_, execDrawimage_quiet buf hr.quiet (inSurface_window hi).2, blit_paint hi buf hr hl⟩⟩

end Sys2Proof.Machine
end

section
/-! SUPPORT. RESET in closed form while no bus fault is injected (40_display_protocol.md R132), and the panel it leaves
(20_memory.md R84). -/

namespace Sys2Proof.Machine

/-! ### RESET -/

theorem panelRst_devu (l : Bool) (s : State) : (panelRst l s).devu = s.devu := by
  unfold panelRst
  split
  · rfl
  split <;> rfl

/-- The line going high is nothing to the panel (20_memory.md R84). -/
@[simp] theorem rstDone_true_pan (s : State) : (rstDone true s).pan = s.pan := rfl

@[simp] theorem rstDone_devu (l : Bool) (s : State) : (rstDone l s).devu = s.devu := panelRst_devu l _

/-- The line going low is a panel that has lost everything (R84). -/
theorem rstDone_false_pan {s : State} (h : s.devu = false) : (rstDone false s).pan = Panel.undef s.draws := by
  simp [rstDone, panelRst, h]

/-- The state after one edge of the reset line, passing DP.ST through st, and its settle time. -/
def edgeDone (l : Bool) (st : DpState) (ms : Nat) (s : State) : State := (rstDone l (s.setSt st)).emit (.wait ms)

theorem edgeDone_dpOnly (l : Bool) (st : DpState) (ms : Nat) (s : State) : DpOnly s (edgeDone l st ms s) :=
  ((setSt_dpOnly st s).trans (rstDone_busOnly l _).dpOnly).trans (emit_dpOnly _ _)

theorem edgeDone_quiet (l : Bool) (st : DpState) (ms : Nat) {s : State} (h : Quiet s) :
    rstLine l (s.setSt st) = .done (rstDone l (s.setSt st)) ∧
      busWait ms (rstDone l (s.setSt st)) = .done (edgeDone l st ms s) :=
  ⟨rstLine_quiet l h, busWait_quiet ms ((rstDone_busOnly l (s.setSt st)).dpOnly.quiet h)⟩

theorem edgeDone_flat (l : Bool) (st : DpState) (ms : Nat) (s : State) :
    (edgeDone l st ms s).flat = s.flat ++ [.rst l, .wait ms] := by
  rw [edgeDone, flat_emit, rstDone_flat, flat_setSt, List.append_assoc]; rfl

theorem edgeDone_dp (l : Bool) (st : DpState) (ms : Nat) (s : State) :
    (edgeDone l st ms s).dp = { s.dp with st := st } := (rstDone_busOnly l _).dp

theorem edgeDone_pins (l : Bool) (st : DpState) (ms : Nat) (s : State) :
    (edgeDone l st ms s).pins = { s.pins with rstN := l } := rstDone_pins l _

/-- The state after RESET, before its result. -/
def resetDone (s : State) : State :=
  resetRegs (edgeDone true .rstHigh s.par.rstHighMs (edgeDone false .rstLow s.par.rstLowMs s))

theorem dpReset_quiet {s : State} (h : Quiet s) : dpReset s = .done (resetDone s) := by
  have hkeeps := edgeDone_dpOnly false .rstLow s.par.rstLowMs s
  obtain ⟨hlow, hlowWait⟩ := edgeDone_quiet false .rstLow s.par.rstLowMs h
  obtain ⟨hhigh, hhighWait⟩ := edgeDone_quiet true .rstHigh s.par.rstHighMs (hkeeps.quiet h)
  have hlowPar : (rstDone false (s.setSt .rstLow)).par = s.par := (rstDone_busOnly false _).par
  have hhighPar : (rstDone true ((edgeDone false .rstLow s.par.rstLowMs s).setSt .rstHigh)).par = s.par :=
    (rstDone_busOnly true _).par.trans hkeeps.par
  simp only [dpReset, hlow, Run.andThen_live, hlowPar, hlowWait, hhigh, hhighPar, hhighWait]
  rfl

theorem execReset_quiet {s : State} (h : Quiet s) : exec .reset s = .next ((resetDone s).setResult .nothing) := by
  simp only [exec, execReset, opReset, dpReset_quiet h, Run.andThen_live]
  rfl

theorem resetRegs_dpOnly (s : State) : DpOnly s (resetRegs s) := by constructor <;> rfl

theorem resetDone_dpOnly (s : State) : DpOnly s (resetDone s) :=
  ((edgeDone_dpOnly _ _ _ s).trans (edgeDone_dpOnly _ _ _ _)).trans (resetRegs_dpOnly _)

theorem resetDone_flat (s : State) : (resetDone s).flat =
    s.flat ++ [.rst false, .wait s.par.rstLowMs, .rst true, .wait s.par.rstHighMs] := by
  have hregs : (resetDone s).flat = (edgeDone true .rstHigh s.par.rstHighMs _).flat := flat_congr (resetRegs_out _)
  simp [hregs, edgeDone_flat]

theorem resetDone_dp (s : State) :
    (resetDone s).dp = { s.dp with rstd := true, initd := false, mode := .none, st := .idle } := by
  simp [resetDone, edgeDone_dp]

theorem resetDone_pins (s : State) : (resetDone s).pins = { s.pins with rstN := true } := by
  simp [resetDone, edgeDone_pins]

theorem resetDone_devu (s : State) : (resetDone s).devu = s.devu := by simp [resetDone, edgeDone]

/-- What RESET leaves of a panel that was defined (R84). -/
theorem resetDone_pan {s : State} (h : s.devu = false) : (resetDone s).pan = Panel.undef s.draws := by
  simp [resetDone, edgeDone, rstDone_false_pan (s := s.setSt .rstLow) h]

/-- Settles O8: the closed form of RESET, field by field; the panel lost everything at the low edge. -/
theorem resetPulsesLineAndForgetsPanel : Obligations.ResetPulsesLineAndForgetsPanel := by
  intro s hq
  have hkeeps := resetDone_dpOnly s
  refine ⟨_, execReset_quiet hq, resetDone_flat s, resetDone_dp s, resetDone_pins s, resetDone_devu s, hkeeps.gs, rfl,
    hkeeps.sameBeyondBus .nothing, fun hd => ?panel⟩
  case panel =>
    rw [State.setResult_pan, resetDone_pan hd]
    exact ⟨rfl, rfl, rfl, rfl, fun _ => rfl⟩

end Sys2Proof.Machine
end

section
/-! SUPPORT. INIT in closed form while no bus fault is injected (40_display_protocol.md R135). -/

namespace Sys2Proof.Machine

/-! ### The entries of the handshake -/

/-- DP.SEQ <- k. -/
def State.setSeq (k : Nat) (s : State) : State := { s with dp := { s.dp with seq := k } }

theorem setSeq_dpOnly (k : Nat) (s : State) : DpOnly s (s.setSeq k) := by constructor <;> rfl

/-- The state after one entry, DP.SEQ at k. -/
def entryDone (e : InitEntry) (k : Nat) (s : State) : State :=
  frameDone .initCmd .initDat e.cmd e.params (s.setSeq k)

/-- The state after the entries from index k on. -/
def entriesDone (es : List InitEntry) (k : Nat) (s : State) : State :=
  match es with
  | [] => s
  | e :: r => entriesDone r (k + 1) (entryDone e k s)

theorem entryDone_dpOnly (e : InitEntry) (k : Nat) (s : State) : DpOnly s (entryDone e k s) :=
  (setSeq_dpOnly k s).trans (frameDone_dpOnly _ _ _ _ _)

theorem entriesDone_dpOnly (es : List InitEntry) (k : Nat) (s : State) : DpOnly s (entriesDone es k s) := by
  induction es generalizing k s with
  | nil => exact .refl s
  | cons e r ih => exact (entryDone_dpOnly e k s).trans (ih _ _)

theorem sendEntries_quiet (es : List InitEntry) (k : Nat) {s : State} (h : Quiet s) :
    sendEntries es k s = .done (entriesDone es k s) := by
  induction es generalizing k s with
  | nil => rfl
  | cons e r ih =>
    have hframe : frameInitEntry e.cmd e.params (s.setSeq k) = .done (entryDone e k s) :=
      frame_quiet .initCmd .initDat e.cmd e.params (s := s.setSeq k) h
    have hrest := ih (k + 1) ((entryDone_dpOnly e k s).quiet h)
    exact (congrArg (Run.andThen · _) hframe).trans hrest

theorem entriesDone_flat (es : List InitEntry) (k : Nat) (s : State) :
    (entriesDone es k s).flat = s.flat ++ es.flatMap fun e => .cmd e.cmd :: e.params.map Event.dat := by
  induction es generalizing k s with
  | nil => simp [entriesDone]
  | cons e r ih =>
    have hentry : (entryDone e k s).flat = s.flat ++ .cmd e.cmd :: e.params.map Event.dat := frameDone_flat _ _ _ _ _
    rw [entriesDone, ih, hentry, List.flatMap_cons, List.append_assoc]

/-- Of unit DP's registers the entries write DP.SEQ and DP.ST only. -/
theorem entriesDone_dp (es : List InitEntry) (k : Nat) (s : State) :
    ∃ q st, (entriesDone es k s).dp = { s.dp with seq := q, st := st } := by
  induction es generalizing k s with
  | nil => exact ⟨_, _, rfl⟩
  | cons e r ih =>
    obtain ⟨q, st, h⟩ := ih (k + 1) (entryDone e k s)
    exact ⟨q, st, h.trans (by rw [entryDone, frameDone_dp]; rfl)⟩

/-- The entries leave the reset line alone. -/
theorem entriesDone_rstN (es : List InitEntry) (k : Nat) (s : State) :
    (entriesDone es k s).pins.rstN = s.pins.rstN := by
  induction es generalizing k s with
  | nil => rfl
  | cons e r ih => rw [entriesDone, ih, entryDone, frameDone_pins]; rfl

/-! ### The panel behind the handshake -/

theorem frameDone_devu_set (st1 st2 : DpState) (c : Byte) (ps : List Byte) {s : State} (h : s.devu = true) :
    (frameDone st1 st2 c ps s).devu = true := dataDone_devu ps _ (by simpa using h)

theorem entriesDone_devu_set (es : List InitEntry) (k : Nat) {s : State} (h : s.devu = true) :
    (entriesDone es k s).devu = true := by
  induction es generalizing k s with
  | nil => exact h
  | cons e r ih => exact ih _ (frameDone_devu_set _ _ _ _ (s := s.setSeq k) h)

/-- An entry that names none of the six commands is harmless to a defined panel (`busInitEntry_panel`). -/
theorem entryDone_harmless {e : InitEntry} (k : Nat) {s : State} (hq : Quiet s) (hd : s.devu = false)
    (he : e.cmd ∉ s.par.cmds.all) : (entryDone e k s).devu = false ∧ (entryDone e k s).pan.gram = s.pan.gram := by
  obtain ⟨_, ⟨t, ht, htd, htp⟩, _⟩ := busInitEntry_panel e.params (s := s.setSeq k) hq hd he
  obtain rfl := Host.Outcome.next.inj
    ((frameAlone_frame .initCmd .initDat e.cmd e.params (s := s.setSeq k) hq).symm.trans ht)
  have hgram := congrArg Panel.gram htp
  exact ⟨htd, hgram⟩

theorem entriesDone_harmless (es : List InitEntry) (k : Nat) {s : State} (hq : Quiet s) (hd : s.devu = false)
    (hes : ∀ e ∈ es, e.cmd ∉ s.par.cmds.all) :
    (entriesDone es k s).devu = false ∧ (entriesDone es k s).pan.gram = s.pan.gram := by
  induction es generalizing k s with
  | nil => exact ⟨hd, rfl⟩
  | cons e r ih =>
    obtain ⟨he, hr⟩ := List.forall_mem_cons.1 hes
    have hkeeps := entryDone_dpOnly e k s
    obtain ⟨hd1, hg1⟩ := entryDone_harmless k hq hd he
    obtain ⟨hd2, hg2⟩ := ih (k + 1) (hkeeps.quiet hq) hd1 (by rw [hkeeps.par]; exact hr)
    exact ⟨hd2, hg2.trans hg1⟩

/-! ### Sleep out and display on -/

/-- The state after a command and its settle time. -/
def settledCmd (c : Byte) (st : DpState) (ms : Nat) (s : State) : State := (cmdDone c (s.setSt st)).emit (.wait ms)

theorem settledCmd_dpOnly (c : Byte) (st : DpState) (ms : Nat) (s : State) : DpOnly s (settledCmd c st ms s) :=
  ((setSt_dpOnly st s).trans (cmdDone_busOnly c _).dpOnly).trans (emit_dpOnly _ _)

theorem settledCmd_quiet (c : Byte) (st : DpState) (ms : Nat) {s : State} (h : Quiet s) :
    busCmd c (s.setSt st) = .done (cmdDone c (s.setSt st)) ∧
      busWait ms (cmdDone c (s.setSt st)) = .done (settledCmd c st ms s) :=
  ⟨busCmd_quiet c h, busWait_quiet ms ((cmdDone_busOnly c (s.setSt st)).dpOnly.quiet h)⟩

theorem settledCmd_flat (c : Byte) (st : DpState) (ms : Nat) (s : State) :
    (settledCmd c st ms s).flat = s.flat ++ [.cmd c, .wait ms] := by
  rw [settledCmd, flat_emit, cmdDone_flat, flat_setSt, List.append_assoc]; rfl

theorem settledCmd_dp (c : Byte) (st : DpState) (ms : Nat) (s : State) :
    (settledCmd c st ms s).dp = { s.dp with st := st } := (cmdDone_busOnly c _).dp

theorem settledCmd_pins (c : Byte) (st : DpState) (ms : Nat) (s : State) :
    (settledCmd c st ms s).pins = pinsAfter s s.par.dcCmd := cmdDone_pins c (s.setSt st)

@[simp] theorem settledCmd_devu (c : Byte) (st : DpState) (ms : Nat) (s : State) :
    (settledCmd c st ms s).devu = s.devu := by simp [settledCmd]

theorem settledCmd_pan (c : Byte) (st : DpState) (ms : Nat) {s : State} (h : s.devu = false) :
    (settledCmd c st ms s).pan = panelOnCmd s.par.cmds c s.pan := cmdDone_pan c (s := s.setSt st) h

/-! ### INIT -/

/-- The state after the entries INIT sends first. -/
def handshakeDone (s : State) : State := entriesDone s.par.init.seq 0 (setDevuIf (!s.dp.rstd) s)

/-- The state after INIT, before its result. -/
def initDone (s : State) : State :=
  initRegs (settledCmd s.par.cmds.dispon .dispon s.par.disponMs
    (settledCmd s.par.cmds.slpout .slpout s.par.slpoutMs (handshakeDone s)))

theorem handshakeDone_dpOnly (s : State) : DpOnly s (handshakeDone s) :=
  (setDevuIf_dpOnly _ s).trans (entriesDone_dpOnly _ _ _)

theorem initRegs_dpOnly (s : State) : DpOnly s (initRegs s) := by constructor <;> rfl

theorem initDone_dpOnly (s : State) : DpOnly s (initDone s) :=
  (((handshakeDone_dpOnly s).trans (settledCmd_dpOnly _ _ _ _)).trans (settledCmd_dpOnly _ _ _ _)).trans
    (initRegs_dpOnly _)

theorem dpInit_quiet {s : State} (h : Quiet s) : dpInit s = .done (initDone s) := by
  have hseq : sendEntries s.par.init.seq 0 (setDevuIf (!s.dp.rstd) s) = .done (handshakeDone s) :=
    sendEntries_quiet _ _ ((setDevuIf_dpOnly _ s).quiet h)
  have hk := handshakeDone_dpOnly s
  have hks := hk.trans (settledCmd_dpOnly s.par.cmds.slpout .slpout s.par.slpoutMs _)
  obtain ⟨hslp, hslpWait⟩ := settledCmd_quiet s.par.cmds.slpout .slpout s.par.slpoutMs (hk.quiet h)
  obtain ⟨hon, honWait⟩ := settledCmd_quiet s.par.cmds.dispon .dispon s.par.disponMs (hks.quiet h)
  have hslpSent := hk.trans ((setSt_dpOnly .slpout _).trans (cmdDone_busOnly s.par.cmds.slpout _).dpOnly)
  have honSent := hks.trans ((setSt_dpOnly .dispon _).trans (cmdDone_busOnly s.par.cmds.dispon _).dpOnly)
  simp only [dpInit, hseq, Run.andThen_live, frameSlpout, hk.par, hslp, hslpSent.par, hslpWait, frameDispon, hks.par,
    hon, honSent.par, honWait]
  rfl

theorem execInit_quiet {s : State} (h : Quiet s) : exec .init s = .next ((initDone s).setResult .nothing) := by
  simp only [exec, execInit, opInit, dpInit_quiet h, Run.andThen_live]
  rfl

theorem initDone_flat (s : State) : (initDone s).flat = s.flat ++ initTrace s.par := by
  have hregs : (initDone s).flat = (settledCmd s.par.cmds.dispon .dispon s.par.disponMs _).flat :=
    flat_congr (initRegs_out _)
  simp [hregs, settledCmd_flat, handshakeDone, entriesDone_flat, initTrace]

theorem initDone_dp (s : State) :
    (initDone s).dp = { s.dp with initd := true, mode := .none, seq := 0, st := .idle } := by
  obtain ⟨q, st, h⟩ := entriesDone_dp s.par.init.seq 0 (setDevuIf (!s.dp.rstd) s)
  simp [initDone, settledCmd_dp, handshakeDone, h, (setDevuIf_panelOnly _ s).dp]

theorem initDone_pins (s : State) : (initDone s).pins = pinsAfter s s.par.dcCmd := by
  have hk := handshakeDone_dpOnly s
  have hks := hk.trans (settledCmd_dpOnly s.par.cmds.slpout .slpout s.par.slpoutMs _)
  have hrst : (handshakeDone s).pins.rstN = s.pins.rstN := by
    rw [handshakeDone, entriesDone_rstN, (setDevuIf_panelOnly _ s).pins]
  simp [initDone, settledCmd_pins, pinsAfter, hks.par, hrst]

theorem initDone_devu (s : State) : (initDone s).devu = (handshakeDone s).devu := by simp [initDone]

theorem handshakeDone_devu_set {s : State} (h : (s.devu || !s.dp.rstd) = true) : (handshakeDone s).devu = true :=
  entriesDone_devu_set _ _ (by rw [setDevuIf_devu]; exact h)

/-- A handshake that names none of the six commands is harmless to a panel that stays defined. -/
theorem handshakeDone_harmless {s : State} (hq : Quiet s) (hd : (s.devu || !s.dp.rstd) = false)
    (hes : ∀ e ∈ s.par.init.seq, e.cmd ∉ s.par.cmds.all) :
    (handshakeDone s).devu = false ∧ (handshakeDone s).pan.gram = s.pan.gram := by
  have hrstd : (!s.dp.rstd) = false := (Bool.or_eq_false_iff.1 hd).2
  have hdevu : s.devu = false := (Bool.or_eq_false_iff.1 hd).1
  rw [handshakeDone, hrstd, setDevuIf_false]
  exact entriesDone_harmless _ _ hq hdevu hes

/-- Sleep out and display on wake a panel that is defined and leave its pixels (20_memory.md R81). -/
theorem initDone_pan {s : State} (hd : (handshakeDone s).devu = false) (hc : s.par.cmds.Distinct) :
    (initDone s).pan.awake = true ∧ (initDone s).pan.on = true ∧ (initDone s).pan.mode = .none ∧
      (initDone s).pan.gram = (handshakeDone s).pan.gram := by
  have hk := handshakeDone_dpOnly s
  have hks := hk.trans (settledCmd_dpOnly s.par.cmds.slpout .slpout s.par.slpoutMs _)
  rw [initDone, initRegs_pan, settledCmd_pan _ _ _ (by simpa using hd), settledCmd_pan _ _ _ hd, hks.par, hk.par,
    panelOnCmd_slpout hc, panelOnCmd_dispon hc]
  exact ⟨rfl, rfl, rfl, rfl⟩

/-- Settles O9: the closed form of INIT, field by field; only a missing RESET or a named command can set DEVU. -/
theorem initSendsHandshake : Obligations.InitSendsHandshake := by
  intro s hq
  have hkeeps := initDone_dpOnly s
  refine ⟨_, execInit_quiet hq, initDone_flat s, initDone_dp s, initDone_pins s, hkeeps.gs, rfl,
    hkeeps.sameBeyondBus .nothing, fun hr => ?noReset, fun hes => ⟨?devu, fun ht hc => ?panel⟩⟩
  case noReset => exact (initDone_devu s).trans (handshakeDone_devu_set (by simp [hr]))
  case devu =>
    refine (initDone_devu s).trans ?_
    cases hd : (s.devu || !s.dp.rstd) with
    | false => exact (handshakeDone_harmless hq hd hes).1
    | true => exact handshakeDone_devu_set hd
  case panel =>
    have hdone : (handshakeDone s).devu = false := (initDone_devu s).symm.trans ht
    have hd : (s.devu || !s.dp.rstd) = false :=
      Bool.eq_false_iff.2 fun hset => by simp [handshakeDone_devu_set hset] at hdone
    obtain ⟨hawake, hon, hmode, hgram⟩ := initDone_pan hdone hc
    exact ⟨hawake, hon, hmode, fun a => congrArg (Memory.read · a) (hgram.trans (handshakeDone_harmless hq hd hes).2)⟩

end Sys2Proof.Machine
end

section
/-! SUPPORT. SETWIN and SETWINRD with bounds that fit, whichever RAM command ends them (40_display_protocol.md R140,
R144), and the refusal of bounds that do not (R142). -/

namespace Sys2Proof.Machine

/-! ### The frames of a window, DEVU set first if R141 or R152 says so -/

/-- The state after SETWIN (ram = RAMWR, mode = write: `setwinDone`) or SETWINRD (RAMRD, read), before its result. -/
def windowOpDone (ram : Byte) (mode : StreamMode) (x0 y0 x1 y1 : Int) (s : State) : State :=
  windowDone ram mode (boundField x0) (boundField y0) (boundField x1) (boundField y1)
    (setDevuIf (windowDevu s x0 y0 x1 y1) s)

section
variable (ram : Byte) (mode : StreamMode) (x0 y0 x1 y1 : Int) (s : State)

theorem windowOpDone_dpOnly : DpOnly s (windowOpDone ram mode x0 y0 x1 y1 s) :=
  (setDevuIf_dpOnly _ s).trans (windowDone_dpOnly _ _ _ _ _ _ _)

theorem windowOpDone_flat : (windowOpDone ram mode x0 y0 x1 y1 s).flat =
    s.flat ++ windowTrace s.par.cmds ram (boundField x0) (boundField y0) (boundField x1) (boundField y1) := by
  rw [windowOpDone, windowDone_flat, flat_setDevuIf, (setDevuIf_panelOnly _ s).par]

theorem windowOpDone_dp : (windowOpDone ram mode x0 y0 x1 y1 s).dp = windowedDp s x0 y0 x1 y1 mode := by
  rw [windowOpDone, windowDone_dp, (setDevuIf_panelOnly _ s).dp]; rfl

theorem windowOpDone_pins : (windowOpDone ram mode x0 y0 x1 y1 s).pins = pinsAfter s s.par.dcCmd := by
  simp [windowOpDone, windowDone_pins, pinsAfter, (setDevuIf_panelOnly _ s).par, (setDevuIf_panelOnly _ s).pins]

theorem windowOpDone_devu :
    (windowOpDone ram mode x0 y0 x1 y1 s).devu = (s.devu || windowDevu s x0 y0 x1 y1) := by
  cases h : (s.devu || windowDevu s x0 y0 x1 y1) with
  | false => exact (windowDone_devu _ _ _ _ _ _ _ ((setDevuIf_devu _ s).trans h)).1
  | true => exact windowDone_devu_set _ _ _ _ _ _ _ ((setDevuIf_devu _ s).trans h)

end

section
variable {ram : Byte} {mode : StreamMode} {x0 y0 x1 y1 : Int} {s : State}

/-- Where DEVU is not set after the window, nothing set it before. -/
theorem windowOpDone_defined (h : (windowOpDone ram mode x0 y0 x1 y1 s).devu = false) :
    s.devu = false ∧ windowDevu s x0 y0 x1 y1 = false :=
  Bool.or_eq_false_iff.1 ((windowOpDone_devu ram mode x0 y0 x1 y1 s).symm.trans h)

theorem windowOpDone_sameGram (h : (windowOpDone ram mode x0 y0 x1 y1 s).devu = false) :
    SameGram s (windowOpDone ram mode x0 y0 x1 y1 s) := by
  obtain ⟨hd, hw⟩ := windowOpDone_defined h
  rw [windowOpDone, hw, setDevuIf_false]
  exact fun a => congrArg (Memory.read · a) (windowDone_devu _ _ _ _ _ _ s hd).2

theorem windowOpDone_pan (h : (windowOpDone ram mode x0 y0 x1 y1 s).devu = false) (hc : s.par.cmds.Distinct)
    (hr : (ram = s.par.cmds.ramwr ∧ mode = .write) ∨ (ram = s.par.cmds.ramrd ∧ mode = .read)) :
    (windowOpDone ram mode x0 y0 x1 y1 s).pan =
      windowedPanel s.pan (boundField x0) (boundField y0) (boundField x1) (boundField y1) mode ram := by
  obtain ⟨hd, hw⟩ := windowOpDone_defined h
  rw [windowOpDone, hw, setDevuIf_false]
  exact windowDone_pan _ _ _ _ _ _ s hd hc hr

theorem windowOpDone_devu_iff : (windowOpDone ram mode x0 y0 x1 y1 s).devu = true ↔ s.devu = true ∨
    s.dp.initd = false ∨ ¬ (0 ≤ x0 ∧ x0 ≤ x1 ∧ x1 < s.width ∧ 0 ≤ y0 ∧ y0 ≤ y1 ∧ y1 < s.height) := by
  rw [windowOpDone_devu, Bool.or_eq_true, windowDevu_iff]

end

/-- Settles O10: both operations end in `windowOpDone`, and its lemmas say what that leaves. -/
theorem windowOperationsSendAndLatch : Obligations.WindowOperationsSendAndLatch := by
  intro s x0 y0 x1 y1 hq hb does
  have hsent : ∀ (i : Instr) (ram : Byte) (mode : StreamMode),
      exec i s = .next ((windowOpDone ram mode x0 y0 x1 y1 s).setResult .nothing) →
      (ram = s.par.cmds.ramwr ∧ mode = .write) ∨ (ram = s.par.cmds.ramrd ∧ mode = .read) → does i ram mode := by
    intro i ram mode hi hr
    have hkeeps := windowOpDone_dpOnly ram mode x0 y0 x1 y1 s
    exact ⟨_, hi, windowOpDone_flat ram mode .., windowOpDone_dp ram mode .., windowOpDone_pins ram mode ..,
      hkeeps.gs, rfl, hkeeps.sameBeyondBus .nothing, windowOpDone_devu_iff (mode := mode),
      windowOpDone_sameGram (mode := mode),
      fun hd hc => windowOpDone_pan hd hc hr⟩
  exact ⟨hsent _ _ _ (execSetwin_quiet hq (boundsOk_iff.2 hb)) (.inl ⟨rfl, rfl⟩),
    hsent _ _ _ (execSetwinrd_quiet hq (boundsOk_iff.2 hb)) (.inr ⟨rfl, rfl⟩)⟩

/-! ### A bound outside 0..65535 -/

theorem opBlit_refused {x0 y0 x1 y1 : Int} (hb : boundsOk x0 y0 x1 y1 = false) (buf : List Byte) (s : State) :
    opBlit x0 y0 x1 y1 buf s = Play.refuse .windowBound s := by
  simp [opBlit, hb]

theorem execSetwin_refused {x0 y0 x1 y1 : Int} (hb : boundsOk x0 y0 x1 y1 = false) (s : State) :
    exec (.setwin x0 y0 x1 y1) s = .refused .windowBound := by
  simp [exec, execSetwin, opSetwin, hb]

theorem execSetwinrd_refused {x0 y0 x1 y1 : Int} (hb : boundsOk x0 y0 x1 y1 = false) (s : State) :
    exec (.setwinrd x0 y0 x1 y1) s = .refused .windowBound := by
  simp [exec, execSetwinrd, opSetwinrd, hb]

theorem execDrawimage_refused {x y w h : Int} (hb : boundsOk x y (lastOf x w) (lastOf y h) = false) (buf : List Byte)
    (s : State) : exec (.drawimage x y w h buf) s = .refused .windowBound := by
  simp [exec, execDrawimage, opDrawimage, opBlit_refused hb]

/-- DRAWTEXT's window is the clamped text box on either path (41_graphics_surface.md R189 to R193). -/
theorem execDrawtext_refused {x y : Int} {text : List Byte} {color : Half} {bg : Option Half} {scale : Int} {s : State}
    (ht : TextCacheOk s)
    (hb : boundsOk (clampPos x s.width (textWidth text scale)) (clampPos y s.height (textHeight scale))
      (lastOf (clampPos x s.width (textWidth text scale)) (textWidth text scale))
      (lastOf (clampPos y s.height (textHeight scale)) (textHeight scale)) = false) :
    exec (.drawtext x y text color bg scale) s = .refused .windowBound := by
  simp only [exec, execDrawtext, opDrawtext, textWidth_clampScale, textHeight_clampScale]
  split
  case isTrue hfast =>
    have hw : textWidth text 1 = textWidth text scale := by rw [← hfast.1, textWidth_clampScale]
    have hh : textHeight 1 = textHeight scale := by rw [← hfast.1, textHeight_clampScale]
    rw [drawFast, hw, hh, opBlit_refused hb, Play.outcome_refuse]
  case isFalse =>
    simp only [drawCached, opDrawimage, cacheGetOrBuild_sprite _ ht, renderKey, renderText, textWidth_clampScale,
      textHeight_clampScale]
    rw [opBlit_refused hb, Play.outcome_refuse]

theorem lastOf_width (x0 x1 : Int) : lastOf x0 (x1 - x0 + 1) = x1 := by unfold lastOf; ring

/-- Settles O11: each operation tests its bounds before it sends anything. -/
theorem windowBoundRefused : Obligations.WindowBoundRefused := by
  intro s x0 y0 x1 y1 hout
  have hb : boundsOk x0 y0 x1 y1 = false := Bool.eq_false_iff.2 (mt boundsOk_iff.1 hout)
  refine ⟨execSetwin_refused hb s, execSetwinrd_refused hb s, fun buf => execDrawimage_refused ?_ buf s,
    fun x y text color bg scale ht hx0 hy0 hx1 hy1 => execDrawtext_refused ht ?_⟩
  · rwa [lastOf_width, lastOf_width]
  · subst hx1 hy1 hx0 hy0
    exact hb

end Sys2Proof.Machine
end

section
/-! SUPPORT. WRPIX and RDPIX while no bus fault is injected (40_display_protocol.md R146, R149): the bytes and what they
leave alone; and the duties the Host may break (R138, R141, R147, R150, R152). -/

namespace Sys2Proof.Machine

/-! ### Reading changes no cell (R151) -/

/-- A read that leaves the panel defined leaves its pixels. -/
theorem panelRead_gram {s : State} (h : (panelRead s).2.devu = false) : (panelRead s).2.pan.gram = s.pan.gram := by
  unfold panelRead at h ⊢
  split at h
  case isTrue hd => simp [drawByte, hd] at h
  case isFalse hd =>
    rw [if_neg hd]
    split at h
    case isTrue ok =>
      rw [if_pos ok]
      split
      · split <;> rfl
      · rfl
    case isFalse => simp at h

theorem received_gram (n : Nat) (got : List Byte) {s : State} (h : (received n got s).2.devu = false) :
    (received n got s).2.pan.gram = s.pan.gram := by
  induction n generalizing got s with
  | zero => rfl
  | succ n ih =>
    have hd : (panelRead s).2.devu = false :=
      Bool.eq_false_iff.2 fun hset => by simp [received, received_devu n _ (State.emit _ _) hset] at h
    exact (ih _ h).trans (panelRead_gram hd)

theorem readDone_gram (n : Nat) {s : State} (h : (readDone n s).2.devu = false) :
    (readDone n s).2.pan.gram = s.pan.gram := by
  cases n with
  | zero => rfl
  | succ n => exact received_gram (n + 1) [] (s := openTx s.par.dcData s) h

theorem rdpixDone_devu_of_streamDevu (n : Nat) {s : State} (h : streamDevu s .read = true) :
    (rdpixDone n s).2.devu = true :=
  readDone_devu _ _ (by simp [h])

theorem rdpixDone_sameGram (n : Nat) {s : State} (h : (rdpixDone n s).2.devu = false) :
    SameGram s (rdpixDone n s).2 := by
  have hs : streamDevu s .read = false :=
    Bool.eq_false_iff.2 fun hset => by simp [rdpixDone_devu_of_streamDevu n hset] at h
  have hgram : (rdpixDone n s).2.pan.gram = ((setDevuIf (streamDevu s .read) s).setSt .rx).pan.gram := readDone_gram _ h
  rw [hs, setDevuIf_false] at hgram
  exact fun a => congrArg (Memory.read · a) hgram

/-- Settles O13: the closed forms of WRPIX and RDPIX, field by field. -/
theorem streamOperationsMoveBytes : Obligations.StreamOperationsMoveBytes := by
  refine ⟨fun s buf hq => ?wrpix, fun s n hq => ?rdpix⟩
  case wrpix =>
    have hkeeps := wrpixDone_dpOnly buf s
    exact ⟨_, execWrpix_quiet buf hq, wrpixDone_flat buf s, wrpixDone_dp buf s, wrpixDone_pins buf s, hkeeps.gs, rfl,
      hkeeps.sameBeyondBus .nothing⟩
  case rdpix =>
    have hkeeps := rdpixDone_dpOnly n s
    obtain ⟨hlength, hflat⟩ := rdpixDone_flat n s
    exact ⟨_, _, execRdpix_quiet n hq, hlength, rfl, hflat, rdpixDone_dp n s, rdpixDone_pins n s, hkeeps.gs,
      hkeeps.sameBeyondBus _, rdpixDone_sameGram n⟩

/-! ### Broken duties -/

/-- Settles O12: INIT and the windows by the statements about them, the streams by what sets DEVU before
the first byte. -/
theorem brokenDutiesSetDevu : Obligations.BrokenDutiesSetDevu := by
  intro s hq
  refine ⟨fun hr => ?init, fun x0 y0 x1 y1 hb hbroken => ?window, fun hbroken buf => ?wrpix, fun hbroken n => ?rdpix⟩
  case init =>
    obtain ⟨t, ht, hflat, _, _, _, _, _, hdevu, _⟩ := initSendsHandshake s hq
    exact ⟨t, ht, hflat, hdevu hr⟩
  case window =>
    obtain ⟨⟨t, ht, htflat, _, _, _, _, _, htdevu, _⟩, u, hu, huflat, _, _, _, _, _, hudevu, _⟩ :=
      windowOperationsSendAndLatch s x0 y0 x1 y1 hq hb
    exact ⟨⟨t, ht, htdevu.2 (.inr hbroken.symm), htflat⟩, u, hu, hudevu.2 (.inr hbroken.symm), huflat⟩
  case wrpix =>
    exact ⟨_, execWrpix_quiet buf hq, wrpixDone_devu_of_streamDevu buf (streamDevu_iff.2 hbroken.symm),
      wrpixDone_flat buf s⟩
  case rdpix =>
    obtain ⟨hlength, hflat⟩ := rdpixDone_flat n s
    exact ⟨_, _, execRdpix_quiet n hq, rdpixDone_devu_of_streamDevu n (streamDevu_iff.2 hbroken.symm), rfl, hlength,
      hflat⟩

end Sys2Proof.Machine
end

section
/-! SUPPORT. A window that is written and read back (40_display_protocol.md R153, second law). -/

namespace Sys2Proof.Machine

theorem SameGram.trans {s t u : State} (h : SameGram s t) (k : SameGram t u) : SameGram s u :=
  fun a => (k a).trans (h a)

/-- The bounds of a valid window fit their fields. -/
theorem boundField_toNat_of_winValid {s : State} {x0 y0 x1 y1 : Int}
    (hv : winValid s.width s.height x0 y0 x1 y1 = true) :
    ((boundField x0).toNat : Int) = x0 ∧ ((boundField y0).toNat : Int) = y0 ∧ ((boundField x1).toNat : Int) = x1 ∧
      ((boundField y1).toNat : Int) = y1 := by
  have hs := surface_lt s
  rw [winValid_iff] at hv
  exact ⟨boundField_toNat (by omega) (by omega), boundField_toNat (by omega) (by omega),
    boundField_toNat (by omega) (by omega), boundField_toNat (by omega) (by omega)⟩

/-- The origin and the size of a valid window as the panel holds it. -/
theorem windowedPanel_window {s : State} {x0 y0 x1 y1 : Int} (hv : winValid s.width s.height x0 y0 x1 y1 = true)
    (p : Panel) (mode : StreamMode) (cmd : Byte) :
    let q := windowedPanel p (boundField x0) (boundField y0) (boundField x1) (boundField y1) mode cmd
    q.xs.toNat = x0.toNat ∧ q.ys.toNat = y0.toNat ∧ q.winW = (x1 - x0 + 1).toNat ∧ q.winH = (y1 - y0 + 1).toNat := by
  obtain ⟨hx0, hy0, hx1, hy1⟩ := boundField_toNat_of_winValid hv
  have hv := winValid_iff.1 hv
  simp only [windowedPanel, Panel.winW, Panel.winH]
  omega

theorem winValid_boundsOk {s : State} {x0 y0 x1 y1 : Int} (hv : winValid s.width s.height x0 y0 x1 y1 = true) :
    boundsOk x0 y0 x1 y1 = true := by
  have hs := surface_lt s
  rw [winValid_iff] at hv
  rw [boundsOk_iff]
  omega

section
variable {x0 y0 x1 y1 : Int} {s : State} (hr : Ready s) (hv : winValid s.width s.height x0 y0 x1 y1 = true)
include hr hv

theorem Ready.windowDevu : windowDevu s x0 y0 x1 y1 = false := by simp [Machine.windowDevu, hv, hr.inited]

theorem Ready.windowOpDone_devu (ram : Byte) (mode : StreamMode) :
    (windowOpDone ram mode x0 y0 x1 y1 s).devu = false := by
  rw [Machine.windowOpDone_devu, hr.defined, hr.windowDevu hv]; rfl

/-- SETWINRD of a valid window leaves a READ stream at its first pixel. -/
theorem Ready.setwinrd_reading : Reading (windowOpDone s.par.cmds.ramrd .read x0 y0 x1 y1 s) := by
  have hd := hr.windowOpDone_devu hv s.par.cmds.ramrd .read
  have hkeeps := windowOpDone_dpOnly s.par.cmds.ramrd .read x0 y0 x1 y1 s
  have hpan := windowOpDone_pan hd hr.distinct (.inr ⟨rfl, rfl⟩)
  refine ⟨hd, by rw [hpan]; rfl, ?valid, by rw [hpan]; rfl⟩
  obtain ⟨hx0, hy0, hx1, hy1⟩ := boundField_toNat_of_winValid hv
  simpa only [panWindowValid, hpan, windowedPanel, State.width, State.height, hkeeps.cfgWidth, hkeeps.cfgHeight, hx0,
    hy0, hx1, hy1] using hv

/-- SETWINRD of a valid window that shows a buffer, and RDPIX of all its pixels, return the buffer. -/
theorem Ready.reads_back {buf : List Byte} {w h : Nat} (hw : w = (x1 - x0 + 1).toNat) (hh : h = (y1 - y0 + 1).toNat)
    (hl : buf.length = 2 * (w * h)) (hshow : Shows x0.toNat y0.toNat w h buf s) :
    ∃ v q, exec (.setwinrd x0 y0 x1 y1) s = .next v ∧ exec (.rdpix (w * h)) v = .next q ∧
      q.ctl.result = .bytes buf ∧ q.devu = false ∧ SameGram s q := by
  have hv0 := hr.windowOpDone_devu hv s.par.cmds.ramrd .read
  have hpan := windowOpDone_pan hv0 hr.distinct (.inr ⟨rfl, rfl⟩)
  obtain ⟨hxs, hys, hwinW, hwinH⟩ := windowedPanel_window hv s.pan .read s.par.cmds.ramrd
  obtain ⟨hdefined, hmode, hvalid, hstart⟩ := hr.setwinrd_reading hv
  have hquiet := (windowOpDone_dpOnly s.par.cmds.ramrd .read x0 y0 x1 y1 s).quiet hr.quiet
  refine ⟨(windowOpDone s.par.cmds.ramrd .read x0 y0 x1 y1 s).setResult .nothing, _,
    execSetwinrd_quiet hr.quiet (winValid_boundsOk hv), execRdpix_quiet (w * h) hquiet, ?_⟩
  have hduty : Machine.streamDevu ((windowOpDone s.par.cmds.ramrd .read x0 y0 x1 y1 s).setResult .nothing) .read =
      false := by
    simp [Machine.streamDevu, windowOpDone_dp, windowedDp, hr.inited]
  have hfits := (rdpixDone_read (w * h) hduty ⟨hdefined, hmode, hvalid, hstart⟩).1
  rw [State.setResult_pan, hpan, hxs, hys, hwinW, hwinH, ← hw, ← hh] at hfits
  obtain ⟨hq0, _, hpixel⟩ := hfits (.inr (Nat.zero_add _).le)
  refine ⟨congrArg Result.bytes ?buffer, hq0, (windowOpDone_sameGram hv0).trans (rdpixDone_sameGram _ hq0)⟩
  refine buffer_ext _ buf _ (rdpixDone_flat _ _).1 hl fun k hk => hpixel k _ hk ?_
  have hw0 : 0 < w := Nat.pos_of_mul_pos_right (Nat.zero_lt_of_lt hk)
  have hcell := hshow (k % w) (k / w) (Nat.mod_lt k hw0) (Nat.div_lt_of_lt_mul hk)
  rw [Nat.div_add_mod'] at hcell
  simpa only [windowedPanel, Nat.zero_add] using hcell

/-- SETWIN of a valid window and WRPIX of its pixels show exactly them, and leave a machine that is ready. -/
theorem Ready.writes {buf : List Byte} (hl : (buf.length : Int) = 2 * (x1 - x0 + 1) * (y1 - y0 + 1)) :
    ∃ t u, exec (.setwin x0 y0 x1 y1) s = .next t ∧ exec (.wrpix buf) t = .next u ∧ Ready u ∧
      winValid u.width u.height x0 y0 x1 y1 = true ∧
      Shows x0.toNat y0.toNat (x1 - x0 + 1).toNat (y1 - y0 + 1).toNat buf u ∧
      SameOutside x0.toNat y0.toNat (x1 - x0 + 1).toNat (y1 - y0 + 1).toNat s u := by
  have hset := setwinDone_dpOnly x0 y0 x1 y1 s
  have hkeeps := hset.trans (wrpixDone_dpOnly buf _)
  have hduty : Machine.streamDevu (setwinDone x0 y0 x1 y1 s) .write = false := by
    simp [Machine.streamDevu, setwinDone_dp, windowedDp, hr.inited]
  obtain ⟨hpan, hdevu, _⟩ := wrpixDone_panel buf hduty
  have hpaint := window_paint buf hr hv hl
  simp only [Shows, SameOutside, ← hpan, ← hdevu] at hpaint
  obtain ⟨hu0, hshow, hout⟩ := hpaint
  have hwrite := execWrpix_quiet buf (s := (setwinDone x0 y0 x1 y1 s).setResult .nothing) (hset.quiet hr.quiet)
  rw [wrpixDone_setResult] at hwrite
  refine ⟨_, _, execSetwin_quiet hr.quiet (winValid_boundsOk hv), hwrite,
    ⟨hkeeps.quiet hr.quiet, hu0, ?inited, hkeeps.par ▸ hr.distinct⟩, ?valid, hshow, hout⟩
  case inited =>
    simp only [State.setResult_dp, wrpixDone_dp, setwinDone_dp, windowedDp]
    exact hr.inited
  case valid =>
    simpa only [State.width, State.height, State.setResult_cfgWidth, State.setResult_cfgHeight, hkeeps.cfgWidth,
      hkeeps.cfgHeight] using hv

end

/-- The bytes of a valid window are two for each of its pixels. -/
theorem window_bytes {s : State} {x0 y0 x1 y1 : Int} {n : Nat} (hv : winValid s.width s.height x0 y0 x1 y1 = true)
    (hn : (n : Int) = 2 * (x1 - x0 + 1) * (y1 - y0 + 1)) :
    n = 2 * ((x1 - x0 + 1).toNat * (y1 - y0 + 1).toNat) := by
  rw [winValid_iff] at hv
  zify
  rw [hn, Int.toNat_of_nonneg (by omega), Int.toNat_of_nonneg (by omega), mul_assoc]

/-- Settles O17: `Ready.writes` for the picture, then `Ready.reads_back` for the buffer. -/
theorem writtenPixelsShowAndReadBack : Obligations.WrittenPixelsShowAndReadBack := by
  intro s x0 y0 x1 y1 buf hr hv hl w h
  obtain ⟨t, u, ht, hu, hru, hvu, hshow, hout⟩ := hr.writes hv hl
  obtain ⟨v, q, hv', hq, hbuf, hq0, hgram⟩ := hru.reads_back hvu (w := w) (h := h) rfl rfl (window_bytes hv hl) hshow
  exact ⟨t, u, v, q, ht, hu, hv', hq, hshow, hout, hru.defined, hbuf, hq0, hgram⟩

end Sys2Proof.Machine
end

section
/-! SUPPORT. What an operation of the port but RUN, and a frame of the bus, can never touch (40_display_protocol.md
R153, 41_graphics_surface.md R209, 10_state.md R49): it is a sequence of the small changes of `OpSmall`, and each of them is
looked at. -/

namespace Sys2Proof.Machine

/-- Unit IE, the configuration and unit FS are as they were, but that FS.RUNNING may have fallen; of the agents only the
bus and the resource store have been asked. -/
structure PortOnly (s t : State) : Prop where
  ie        : t.ie = s.ie
  fs        : t.fs = { s.fs with running := t.fs.running }
  running   : t.fs.running = true → s.fs.running = true
  handlers  : t.handlers = s.handlers
  cfgWidth  : t.cfgWidth = s.cfgWidth
  cfgHeight : t.cfgHeight = s.cfgHeight
  par       : t.par = s.par
  env       : t.env = { s.env with bus := t.env.bus, res := t.env.res, asked := t.env.asked }

theorem PortOnly.refl (s : State) : PortOnly s s := ⟨rfl, rfl, id, rfl, rfl, rfl, rfl, rfl⟩

theorem PortOnly.trans {s t u : State} (h : PortOnly s t) (k : PortOnly t u) : PortOnly s u where
  ie := k.ie.trans h.ie
  fs := by rw [k.fs, h.fs]
  running := h.running ∘ k.running
  handlers := k.handlers.trans h.handlers
  cfgWidth := k.cfgWidth.trans h.cfgWidth
  cfgHeight := k.cfgHeight.trans h.cfgHeight
  par := k.par.trans h.par
  env := by rw [k.env, h.env]

theorem PanelOnly.portOnly {s t : State} (h : PanelOnly s t) : PortOnly s t :=
  ⟨h.ie, by rw [h.fs], by rw [h.fs]; exact id, h.handlers, h.cfgWidth, h.cfgHeight, h.par, by rw [h.env]⟩

/-- FS.RUNNING falls at fault entry and at STOP; no other change of an operation writes what `PortOnly` lists. -/
theorem OpSmall.portOnly {s t : State} (h : OpSmall s t) : PortOnly s t := by
  cases h with
  | panelCmd b => exact (panelCmd_panelOnly b s).portOnly
  | panelData d => exact (panelData_panelOnly d s).portOnly
  | panelRead => exact (panelRead_panelOnly s).portOnly
  | panelRst l => exact (panelRst_panelOnly l s).portOnly
  | setDevu => exact (setDevu_panelOnly s).portOnly
  | stop | fault => exact ⟨rfl, rfl, fun hr => (nomatch hr), rfl, rfl, rfl, rfl, rfl⟩
  | env | emit | pins | dp | text | sprite | clear | result | stall => exact ⟨rfl, rfl, id, rfl, rfl, rfl, rfl, rfl⟩

theorem OpSteps.portOnly {s t : State} (h : OpSteps s t) : PortOnly s t :=
  h.keeps (P := PortOnly s) (fun _ _ k hs => hs.trans k.portOnly) (.refl s)

/-- A frame by itself is made of the changes of the port (log entry 25). -/
theorem opSteps_of_frameAlone {r : Run Unit} {s t : State} (hr : OpSteps s r.state)
    (h : (Play.ofRun (frameAlone r)).outcome = .next t) : OpSteps s t :=
  outcome_next h ▸ steps_frameAlone hr

/-- Every operation of the port but RUN, and every frame of the bus, is made of the changes of the port. -/
theorem exec_opSteps {i : Instr} {s t : State} (hphase : i.space ≠ .phase) (hrun : i ≠ .run) (h : exec i s = .next t) :
    OpSteps s t := by
  by_cases hport : i.space = .port
  · rw [← gameOp_outcome s hport hrun] at h
    exact outcome_next h ▸ steps_gameOp i s
  cases i with
  | busCaset x0 x1 => exact opSteps_of_frameAlone (steps_frameCaset x0 x1 s) h
  | busPaset y0 y1 => exact opSteps_of_frameAlone (steps_framePaset y0 y1 s) h
  | busRamwr => exact opSteps_of_frameAlone (steps_frameRamwr s) h
  | busRamrd => exact opSteps_of_frameAlone (steps_frameRamrd s) h
  | busSlpout => exact opSteps_of_frameAlone (steps_frameSlpout s) h
  | busDispon => exact opSteps_of_frameAlone (steps_frameDispon s) h
  | busInitEntry c ps => exact opSteps_of_frameAlone (steps_frameInitEntry c ps s) h
  | tickstart | sample | edge | dispatch | gesture | update | draw | pace => exact absurd rfl hphase
  | _ => exact absurd rfl hport

/-- Settles O52: `surface_draws` for the reads of unit GS, the small changes of the port for all the rest. -/
theorem operationsLeaveInputAndScheduler : Obligations.OperationsLeaveInputAndScheduler := by
  refine ⟨fun i s t hi h => (surface_draws hi h).reads, fun i s t hphase hrun h => ?_⟩
  obtain ⟨hie, hfs, hrunning, hhandlers, hwidth, hheight, hpar, henv⟩ := (exec_opSteps hphase hrun h).portOnly
  exact ⟨hie, hfs, hrunning, hhandlers, hwidth, hheight, hpar, henv⟩

end Sys2Proof.Machine
end

section
/-! SUPPORT. FILLRECT inside the surface while no bus fault is injected (41_graphics_surface.md R176, R178), CLEAR and
SAFEFILLRECT, which come down to it (R174, R180), and the pixels they leave. -/

namespace Sys2Proof.Machine

/-! ### FILLRECT -/

theorem exec_fillrect (x y w h : Int) (color : Half) (s : State) : exec (.fillrect x y w h color) s =
    (Play.ofRun ((gsFillrect x y w h color s).andThen (finish .nothing))).outcome := rfl

/-- A rectangle inside the surface has pixels. -/
theorem inSurface_area_pos {width height x y w h : Int} (hi : inSurface width height x y w h = true) :
    0 < w * h :=
  have hi := inSurface_iff.1 hi
  Int.mul_pos hi.1 hi.2.1

/-- A rectangle that shows as many pixels of one colour as it has is filled with it. -/
theorem Shows.filled {x0 y0 w h : Nat} {color : Half} {t : State} (ht : Shows x0 y0 w h (repeatColor (w * h) color) t) :
    Filled x0 y0 w h color t := by
  intro i j hi hj
  have hk : j * w + i < w * h := by nlinarith
  rw [ht i j hi hj, bufferPixel_repeatColor _ _ _ hk]

section
variable {s : State} {x y w h : Int} (hi : inSurface s.width s.height x y w h = true)
include hi

/-- The window of the rectangle, then its pixels, in whatever chunks: the registers, the pins and the bytes. -/
theorem gsFillrect_inside (color : Half) (hq : Quiet s) : ∃ t, gsFillrect x y w h color s = .done t ∧ DpOnly s t ∧
    t.flat = s.flat ++ setwinTrace s x y (x + w - 1) (y + h - 1) ++ (repeatColor (w * h).toNat color).map Event.dat ∧
    t.dp = windowedDp s x y (x + w - 1) (y + h - 1) .write ∧ t.pins = pinsAfter s s.par.dcData ∧
    (s.dp.initd = false → t.devu = true) ∧
    (Ready s → t.devu = false ∧ Filled x.toNat y.toNat w.toNat h.toNat color t ∧
      SameOutside x.toNat y.toNat w.toNat h.toNat s t) := by
  have hwin := setwinDone_dpOnly x y (x + w - 1) (y + h - 1) s
  have harea : (w * h).toNat ≠ 0 := by have := inSurface_area_pos hi; omega
  obtain ⟨t, hrun, hkeeps, hflat, hdp, hpins, hsticky, hpanel⟩ := streamRep_quiet (w * h).toNat
    (k := chunkPixels (setwinDone x y (x + w - 1) (y + h - 1) s)) (le_max_left _ _) (w * h).toNat color le_rfl
    (hwin.quiet hq)
  refine ⟨t, ?run, hwin.trans hkeeps, by rw [hflat, setwinDone_flat], ?dp, ?pins, fun hinit => hsticky ?set,
    fun hr => ?paint⟩
  case run =>
    rw [gsFillrect, if_pos hi]
    exact (congrArg (Run.andThen · _) (dpSetwin_quiet _ _ _ _ hq)).trans hrun
  case dp => rw [hdp, if_neg harea, setwinDone_dp]; rfl
  case pins =>
    rw [hpins, pinsAfterData, if_neg (by omega), pinsAfter, setwinDone_pins, hwin.par]; rfl
  case set => rw [setwinDone_devu, windowDevu_iff.2 (.inl hinit), Bool.or_true]
  case paint =>
    have hready := (setwinDone_writing hr (inSurface_window hi).1).1
    obtain ⟨hpan, hdevu⟩ := hpanel (hready.streamDevu (by rw [setwinDone_dp]; rfl))
    obtain ⟨hwp, hhp, -⟩ := inSurface_iff.1 hi
    have hlen : ((repeatColor (w * h).toNat color).length : Int) = 2 * w * h := by
      rw [length_repeatColor, Nat.cast_mul, Int.toNat_of_nonneg (inSurface_area_pos hi).le, mul_assoc]; rfl
    obtain ⟨hd, hshows, hout⟩ := rectangle_paint hi _ hr hlen
    rw [Int.toNat_mul hwp.le hhp.le] at hshows hpan
    exact ⟨hdevu.trans hd, Shows.filled (t := t) (by unfold Shows at hshows ⊢; rwa [hpan]),
      by unfold SameOutside at hout ⊢; rw [hpan, ← Int.toNat_mul hwp.le hhp.le]; exact hout⟩

end

/-- Settles O24: `gsFillrect_inside`, and the result. -/
theorem fillrectStreamsColor : Obligations.FillrectStreamsColor := by
  intro s x y w h color hq hi
  obtain ⟨t, hrun, hkeeps, hflat, hdp, hpins, hset, hpaint⟩ := gsFillrect_inside hi color hq
  refine ⟨t.setResult .nothing, ?_, (flat_setResult _ t).trans hflat, hdp, hpins, hkeeps.gs, rfl,
    hkeeps.sameBeyondBus .nothing, hset, hpaint⟩
  rw [exec_fillrect, hrun]
  rfl

/-- Settles O25: `fillrect_outside`. -/
theorem fillrectOutsideDoesNothing : Obligations.FillrectOutsideDoesNothing :=
  fun _ _ _ _ _ color hout => fillrect_outside color (Bool.eq_false_iff.2 (mt inSurface_iff.1 hout))

/-! ### CLEAR -/

theorem exec_clear (color : Half) (s : State) :
    exec (.clear color) s = exec (.fillrect 0 0 s.width s.height color) s := rfl

/-- The whole surface is inside the surface, if it has pixels (92_eei_decisions.md D12). -/
theorem inSurface_whole {width height : Int} (hw : 0 < width) (hh : 0 < height) :
    inSurface width height 0 0 width height = true := inSurface_iff.2 (by omega)

/-- Settles O26: CLEAR is a FILLRECT of the whole surface, which is inside it. -/
theorem clearFillsSurface : Obligations.ClearFillsSurface := by
  refine ⟨fun s color => exec_clear color s, fun s color hq hw hh => ?_, fun s color hr hw hh => ?_⟩
  · obtain ⟨t, hexec, hflat, -, -, hgs, -, hsame, -⟩ :=
      fillrectStreamsColor s 0 0 s.width s.height color hq (inSurface_whole hw hh)
    rw [zero_add, zero_add] at hflat
    exact ⟨t, hexec, hflat, hgs, hsame⟩
  · obtain ⟨t, hexec, -, -, -, -, -, -, -, hpaint⟩ :=
      fillrectStreamsColor s 0 0 s.width s.height color hr.quiet (inSurface_whole hw hh)
    exact ⟨t, hexec, hpaint hr⟩

/-! ### SAFEFILLRECT -/

theorem exec_safefillrect (x y w h : Int) (color : Half) (s : State) : exec (.safefillrect x y w h color) s =
    (Play.ofRun ((gsSafefillrect x y w h color s).andThen (finish .nothing))).outcome := rfl

/-- Nothing of the rectangle is on the surface. -/
theorem safefillrect_empty {s : State} {x y w h : Int} (color : Half)
    (he : clipHi x w s.width - clipLo x ≤ 0 ∨ clipHi y h s.height - clipLo y ≤ 0) :
    exec (.safefillrect x y w h color) s = .next (s.setResult .nothing) := by
  have hnone : gsSafefillrect x y w h color s = .done s := if_pos he
  rw [exec_safefillrect, hnone]
  rfl

/-- Something of it is: that is what is filled. -/
theorem safefillrect_clipped {s : State} {x y w h : Int} (color : Half)
    (he : ¬ (clipHi x w s.width - clipLo x ≤ 0 ∨ clipHi y h s.height - clipLo y ≤ 0)) :
    exec (.safefillrect x y w h color) s = exec (.fillrect (clipLo x) (clipLo y) (clipHi x w s.width - clipLo x)
      (clipHi y h s.height - clipLo y) color) s := by
  have hclip : gsSafefillrect x y w h color s = gsFillrect (clipLo x) (clipLo y) (clipHi x w s.width - clipLo x)
    (clipHi y h s.height - clipLo y) color s := if_neg he
  rw [exec_safefillrect, hclip, exec_fillrect]

theorem inSurface_clip {s : State} {x y w h : Int}
    (he : ¬ (clipHi x w s.width - clipLo x ≤ 0 ∨ clipHi y h s.height - clipLo y ≤ 0)) :
    inSurface s.width s.height (clipLo x) (clipLo y) (clipHi x w s.width - clipLo x)
      (clipHi y h s.height - clipLo y) = true := by
  unfold clipHi clipLo at *
  rw [inSurface_iff]
  omega

/-- Settles O27: the empty intersection and the other. -/
theorem safefillrectClipsToSurface : Obligations.SafefillrectClipsToSurface := by
  intro s x y w h color xa ya xb yb
  refine ⟨safefillrect_empty color, fun he => ⟨inSurface_clip he, safefillrect_clipped color he⟩, fun hq => ?_⟩
  by_cases he : xb - xa ≤ 0 ∨ yb - ya ≤ 0
  · exact ⟨_, safefillrect_empty color he, rfl, (DpOnly.refl s).sameBeyondBus .nothing⟩
  · obtain ⟨t, hexec, -, -, -, hgs, -, hsame, -⟩ := fillrectStreamsColor s _ _ _ _ color hq (inSurface_clip he)
    exact ⟨t, (safefillrect_clipped color he).trans hexec, hgs, hsame⟩

/-- A cell outside a rectangle of which no byte outside changed. -/
theorem SameOutside.readPixel {x0 y0 w h : Nat} {s t : State} (hs : SameOutside x0 y0 w h s t) (hx : x0 + w ≤ 65536)
    {i j : Nat} (hi : i < 65536) (hout : ¬ (x0 ≤ i ∧ i < x0 + w ∧ y0 ≤ j ∧ j < y0 + h)) :
    t.pan.gram.readPixel i j = s.pan.gram.readPixel i j := by
  have hne : ∀ b, b = pixelAddr i j ∨ b = pixelAddr i j + 1 → ¬ InRectangle x0 y0 w h b := by
    rintro b hb ⟨i', j', hi', hj', hb'⟩
    have hcell : pixelAddr i j = pixelAddr (x0 + i') (y0 + j') := by unfold pixelAddr at *; omega
    obtain ⟨rfl, rfl⟩ := pixelAddr_inj hi (by omega) hcell
    omega
  unfold Memory.readPixel
  rw [hs _ (hne _ (.inl rfl)), hs _ (hne _ (.inr rfl))]

/-- Every cell, when a rectangle was filled and nothing else touched. -/
theorem Filled.readPixel {x0 y0 w h : Nat} {color : Half} {s t : State} (hf : Filled x0 y0 w h color t)
    (hs : SameOutside x0 y0 w h s t) (hx : x0 + w ≤ 65536) {i : Nat} (j : Nat) (hi : i < 65536) :
    t.pan.gram.readPixel i j =
      if x0 ≤ i ∧ i < x0 + w ∧ y0 ≤ j ∧ j < y0 + h then some color else s.pan.gram.readPixel i j := by
  split
  case isTrue hin =>
    have := hf (i - x0) (j - y0) (by omega) (by omega)
    rwa [Nat.add_sub_cancel' hin.1, Nat.add_sub_cancel' hin.2.2.1] at this
  case isFalse hout => exact hs.readPixel hx hi hout

/-- Settles O28: no cell of an empty intersection; of the other, `Filled.readPixel`. -/
theorem safefillrectPaintsIntersection : Obligations.SafefillrectPaintsIntersection := by
  intro s x y w h color hr
  have hsurf := surface_lt s
  by_cases he : clipHi x w s.width - clipLo x ≤ 0 ∨ clipHi y h s.height - clipLo y ≤ 0
  · refine ⟨_, safefillrect_empty color he, hr.defined, fun i j _ _ => (if_neg ?_).symm⟩
    unfold clipHi clipLo at he
    omega
  · obtain ⟨t, hexec, -, -, -, -, -, -, -, hpaint⟩ :=
      fillrectStreamsColor s _ _ _ _ color hr.quiet (inSurface_clip he)
    obtain ⟨hdevu, hfilled, hout⟩ := hpaint hr
    refine ⟨t, (safefillrect_clipped color he).trans hexec, hdevu, fun i j hi _ => ?_⟩
    unfold clipHi clipLo at he hfilled hout
    rw [hfilled.readPixel hout (by omega) j hi]
    exact if_congr (by omega) rfl rfl

end Sys2Proof.Machine
end

section
/-! SUPPORT. The pictures and the sizes of unit GS: DRAWIMAGE, TEXTSIZE, RENDERTEXT (41_graphics_surface.md R183, R186,
R194 to R197). -/

namespace Sys2Proof.Machine

/-! ### DRAWIMAGE -/

theorem windowDevu_of_invalid {s : State} {x0 y0 x1 y1 : Int}
    (h : winValid s.width s.height x0 y0 x1 y1 = false ∨ s.dp.initd = false) : windowDevu s x0 y0 x1 y1 = true := by
  rcases h with h | h <;> simp [windowDevu, h]

/-- Settles O29: the closed form of a blit. -/
theorem drawimageStreamsBuffer : Obligations.DrawimageStreamsBuffer := by
  intro s x y w h buf hq hb
  obtain ⟨hflat, hdp, hpins, hgs, hsame, hset⟩ :=
    blit_facts (s := s) (x := x) (y := y) (x1 := x + w - 1) (y1 := y + h - 1) buf
  exact ⟨_, execDrawimage_quiet buf hq hb, hflat, hdp, hpins, hgs, rfl, hsame, fun hbad =>
    hset (windowDevu_of_invalid hbad)⟩

/-! ### TEXTSIZE and RENDERTEXT -/

/-- Settles O31: TEXTSIZE is its two products. -/
theorem textsizeReturnsPixels : Obligations.TextsizeReturnsPixels := fun _ _ _ => rfl

theorem exec_rendertext (text : List Byte) (color : Half) (bg : Option Half) (scale : Int) (s : State) :
    exec (.rendertext text color bg scale) s =
      .next (s.setResult (.sprite (renderText s.par.font text color bg scale))) := rfl

theorem clampScale_toNat (scale : Int) : ((clampScale scale).toNat : Int) = clampScale scale :=
  Int.toNat_of_nonneg (zero_le_one.trans (clampScale_pos scale))

/-- A sprite by its whole numbers of pixels. -/
theorem renderText_eq (font : List (Byte × BitVec 64)) (text : List Byte) (fg : Half) (bg : Option Half) (scale : Int) :
    renderText font text fg bg scale =
      { width := (8 * text.length * (clampScale scale).toNat : Nat), height := (8 * (clampScale scale).toNat : Nat)
        pix := rasterBytes font text fg bg (clampScale scale).toNat } := by
  push_cast
  rw [clampScale_toNat]
  rfl

/-- Settles O32: the size by `renderText_eq`, a pixel by `bufferPixel_rasterBytes`. -/
theorem rendertextRasterizesGlyphs : Obligations.RendertextRasterizesGlyphs := by
  intro s text color bg scale sc w
  refine ⟨rasterBytes s.par.font text color bg sc, ?_, length_rasterBytes .., fun dx dy hx hy => ?_⟩
  · rw [exec_rendertext, renderText_eq]
    simp [sc, w, clampScale]
  · exact bufferPixel_rasterBytes s.par.font text color bg sc dx dy hx hy

/-- A scale of at least 1 is its own clamp. -/
theorem clampScale_natCast {sc : Nat} (h : 1 ≤ sc) : clampScale sc = sc := max_eq_left (by exact_mod_cast h)

theorem clampScale_one : clampScale 1 = 1 := rfl

/-- Settles O33: either pixel is the base pixel (dx div s, dy div s). -/
theorem scalingReplicatesPixels : Obligations.ScalingReplicatesPixels := by
  intro s text color bg sc hsc
  refine ⟨_, _, exec_rendertext .., exec_rendertext .., ?_, ?_, fun dx dy hx hy => ?_⟩
  · rw [renderText, renderText, textWidth, textWidth, clampScale_natCast hsc, clampScale_one, mul_one]
  · rw [renderText, renderText, textHeight, textHeight, clampScale_natCast hsc, clampScale_one, mul_one]
  · have hx1 : dx / sc < 8 * text.length * 1 := by rw [Nat.mul_one]; exact Nat.div_lt_of_lt_mul (by rwa [Nat.mul_comm])
    have hy1 : dy / sc < 8 * 1 := Nat.div_lt_of_lt_mul (by rwa [Nat.mul_comm])
    have hbase := bufferPixel_rasterBytes s.par.font text color bg 1 (dx / sc) (dy / sc) hx1 hy1
    simp only [Nat.mul_one, Nat.div_one] at hbase
    simp only [renderText, clampScale_natCast hsc, Int.toNat_natCast]
    exact (bufferPixel_rasterBytes s.par.font text color bg sc dx dy hx hy).trans hbase.symm

end Sys2Proof.Machine
end

section
/-! SUPPORT. The caches: CLEARCACHES, and LOADSPRITE as a hit, a miss and a resource that is absent
(41_graphics_surface.md R200, R204, R206, R207). -/

namespace Sys2Proof.Machine

/-- Settles O39: CLEARCACHES is one update. -/
theorem clearcachesEmptiesBoth : Obligations.ClearcachesEmptiesBoth := fun _ => rfl

theorem hasRoom_iff {capacity : Option Nat} {n : Nat} :
    hasRoom capacity n = true ↔ ∀ c, capacity = some c → n < c := by
  cases capacity <;> simp [hasRoom]

theorem exec_loadsprite (name : List Byte) (w h : Int) (s : State) : exec (.loadsprite name w h) s =
    .next ((gsLoadsprite { name := name, width := w, height := h } s).bind fun spr s => finish (.sprite spr) s).state :=
  rfl

section
variable {name : List Byte} {w h : Int} {s : State}

/-- A hit. -/
theorem exec_loadsprite_hit {spr : Sprite}
    (hl : s.gs.scache.lookup { name := name, width := w, height := h } = some spr) :
    exec (.loadsprite name w h) s = .next (s.setResult (.sprite spr)) := by
  rw [exec_loadsprite, gsLoadsprite, hl]
  rfl

/-- The caches after a miss that the store answered. -/
def rememberSprite (key : SpriteKey) (spr : Sprite) (s : State) : GsRegs :=
  if hasRoom s.par.cacheCapacity s.gs.scache.length then { s.gs with scache := s.gs.scache ++ [(key, spr)] } else s.gs

/-- A miss, the store answering with bytes. -/
theorem exec_loadsprite_miss {pix : List Byte}
    (hl : s.gs.scache.lookup { name := name, width := w, height := h } = none)
    (hp : (readResource s).1 = some pix) : exec (.loadsprite name w h) s =
      .next (State.setResult (.sprite { width := w, height := h, pix := pix }) { (readResource s).2 with
        gs := rememberSprite { name := name, width := w, height := h } { width := w, height := h, pix := pix } s }) := by
  rw [exec_loadsprite, gsLoadsprite, hl]
  simp only [loadMiss, hp, rememberSprite]
  split <;> rfl

/-- A miss, the store answering `absent`. -/
theorem exec_loadsprite_absent (hl : s.gs.scache.lookup { name := name, width := w, height := h } = none)
    (hp : (readResource s).1 = none) : exec (.loadsprite name w h) s =
      .next (enterFault codeResourceNotFound (.resource name) (readResource s).2) := by
  rw [exec_loadsprite, gsLoadsprite, hl]
  simp only [loadMiss, hp]
  rfl

end

theorem rememberSprite_tcache (key : SpriteKey) (spr : Sprite) (s : State) :
    (rememberSprite key spr s).tcache = s.gs.tcache := by
  unfold rememberSprite
  split <;> rfl

theorem rememberSprite_scache (key : SpriteKey) (spr : Sprite) (s : State) : (rememberSprite key spr s).scache =
    if ∀ c, s.par.cacheCapacity = some c → s.gs.scache.length < c then s.gs.scache ++ [(key, spr)]
    else s.gs.scache := by
  simp only [rememberSprite, hasRoom_iff]
  split <;> rfl

/-- Settles O40: the three branches of LOADSPRITE. -/
theorem loadspriteHitMissAbsent : Obligations.LoadspriteHitMissAbsent :=
  fun _ _ _ _ => ⟨fun _ hl => exec_loadsprite_hit hl,
    fun _ hl hp => ⟨_, exec_loadsprite_miss hl hp, rfl, rfl, rememberSprite_tcache .., rememberSprite_scache ..⟩,
    fun hl hp => ⟨_, exec_loadsprite_absent hl hp, rfl, rfl, rfl, rfl, rfl, rfl, rfl, rfl, rfl, rfl⟩⟩

end Sys2Proof.Machine
end

section
/-! SUPPORT. DRAWTEXT as one blit of the clamped text box (41_graphics_surface.md R188 to R193), and the text cache,
which no piece of a blit looks at (R199, R202). -/

namespace Sys2Proof.Machine

/-! ### A blit does not look at the text cache -/

/-- s with another text cache. -/
def State.setTcache (c : List (TextKey × Sprite)) (s : State) : State := { s with gs := { s.gs with tcache := c } }

/-- A piece that ends in the same state but for the text cache. -/
def Run.setTcache {α : Type} (c : List (TextKey × Sprite)) (r : Run α) : Run α :=
  match r with
  | .live a s => .live a (s.setTcache c)
  | .dead s => .dead (s.setTcache c)

/-- Likewise of a whole operation. -/
def Play.setTcache (c : List (TextKey × Sprite)) (p : Play) : Play := { p with st := p.st.setTcache c }

/-- A piece that does the same whatever the text cache holds, and leaves it alone. -/
def IgnoresTcache {α : Type} (f : State → Run α) : Prop := ∀ c s, f (s.setTcache c) = (f s).setTcache c

theorem Run.setTcache_andThen {α : Type} {f : State → Run α} (hf : IgnoresTcache f) (c : List (TextKey × Sprite))
    (r : Run Unit) : (r.setTcache c).andThen f = (r.andThen f).setTcache c := by
  cases r with
  | live _ t => exact hf c t
  | dead t => rfl

/-- A change of the state that has nothing to do with the text cache, then a piece. -/
theorem IgnoresTcache.after {α : Type} {f : State → Run α} (hf : IgnoresTcache f) {g : State → State}
    (hg : ∀ c s, g (s.setTcache c) = (g s).setTcache c) : IgnoresTcache fun s => f (g s) :=
  fun c s => (congrArg f (hg c s)).trans (hf c (g s))

theorem IgnoresTcache.andThen {α : Type} {r : State → Run Unit} {f : State → Run α} (hr : IgnoresTcache r)
    (hf : IgnoresTcache f) : IgnoresTcache fun s => (r s).andThen f :=
  fun c s => (congrArg (Run.andThen · f) (hr c s)).trans (Run.setTcache_andThen hf c (r s))

theorem ignoresTcache_done {g : State → State} (hg : ∀ c s, g (s.setTcache c) = (g s).setTcache c) :
    IgnoresTcache fun s => .done (g s) := fun c s => congrArg Run.done (hg c s)

theorem ignoresTcache_pollIdle : IgnoresTcache pollIdle := by
  intro c s
  have he : (s.setTcache c).env = s.env := rfl
  unfold pollIdle
  rw [he]
  split <;> rfl

theorem ignoresTcache_pollTransfer : IgnoresTcache pollTransfer := by
  intro c s
  have he : (s.setTcache c).env = s.env := rfl
  unfold pollTransfer
  rw [he]
  split <;> rfl

/-- What the panel does is the same and changes the panel only. -/
theorem setTcache_of_panel {f : State → State} (hp : ∀ s, PanelOnly s (f s))
    (ha : ∀ s t, PanelAlike s t → PanelAlike (f s) (f t)) (c : List (TextKey × Sprite)) (s : State) :
    f (s.setTcache c) = (f s).setTcache c := by
  have halike := ha s (s.setTcache c) (by constructor <;> rfl)
  calc f (s.setTcache c)
    _ = (s.setTcache c).withPanel _ _ _ := (hp (s.setTcache c)).eq_withPanel
    _ = (s.withPanel (f s).pan (f s).devu (f s).draws).setTcache c := by
      rw [halike.pan, halike.devu, halike.draws]; rfl
    _ = (f s).setTcache c := congrArg (State.setTcache c) (hp s).eq_withPanel.symm

theorem PanelAlike.panelCmd (b : Byte) {s t : State} (h : PanelAlike s t) :
    PanelAlike (panelCmd b s) (panelCmd b t) := by
  obtain ⟨hp, hd, hn, hpar, hw, hh⟩ := h
  unfold Machine.panelCmd
  rw [hd]
  split <;> constructor <;> simp [*]

theorem setDevuIf_setTcache (d : Bool) (c : List (TextKey × Sprite)) (s : State) :
    setDevuIf d (s.setTcache c) = (setDevuIf d s).setTcache c := by
  cases d <;> rfl

theorem ignoresTcache_endTx : IgnoresTcache endTx :=
  ignoresTcache_pollTransfer.andThen (ignoresTcache_done fun _ _ => rfl)

theorem ignoresTcache_sendCmd (b : Byte) : IgnoresTcache (sendCmd b) :=
  ignoresTcache_pollTransfer.andThen (ignoresTcache_done fun c s =>
    setTcache_of_panel (panelCmd_panelOnly b) (fun _ _ => PanelAlike.panelCmd b) c (s.emit (.cmd b)))

theorem ignoresTcache_sendData (bs : List Byte) : IgnoresTcache (sendData bs) := by
  induction bs with
  | nil => exact ignoresTcache_done fun _ _ => rfl
  | cons b r ih =>
    exact ignoresTcache_pollTransfer.andThen (ih.after fun c s =>
      setTcache_of_panel (panelData_panelOnly b) (fun _ _ => PanelAlike.panelData b) c (s.emit (.dat b)))

/-- A transaction at one of the two levels of DC, which are parameters. -/
theorem ignoresTcache_transaction {send : State → Run Unit} (hs : IgnoresTcache send) (level : Params → Bool) :
    IgnoresTcache fun s => (pollIdle s).andThen fun s => (send (openTx (level s.par) s)).andThen endTx :=
  ignoresTcache_pollIdle.andThen ((hs.after fun _ _ => rfl).andThen ignoresTcache_endTx)

theorem ignoresTcache_busCmd (b : Byte) : IgnoresTcache (busCmd b) :=
  ignoresTcache_transaction (ignoresTcache_sendCmd b) Params.dcCmd

theorem ignoresTcache_busData (bs : List Byte) : IgnoresTcache (busData bs) := by
  cases bs with
  | nil => exact ignoresTcache_done fun _ _ => rfl
  | cons b r => exact ignoresTcache_transaction (ignoresTcache_sendData (b :: r)) Params.dcData

/-- A frame whose command is one of the six, which are parameters (30_encoding.md R107). -/
theorem ignoresTcache_frame (st1 st2 : DpState) (cmd : Params → Byte) (ps : List Byte) :
    IgnoresTcache fun s => (busCmd (cmd s.par) (s.setSt st1)).andThen fun s => busData ps (s.setSt st2) :=
  IgnoresTcache.andThen (fun c s => ignoresTcache_busCmd (cmd s.par) c (s.setSt st1))
    ((ignoresTcache_busData ps).after fun _ _ => rfl)

theorem ignoresTcache_dpSetwin (x0 y0 x1 y1 : Int) : IgnoresTcache (dpSetwin x0 y0 x1 y1) :=
  have hramwr : IgnoresTcache frameRamwr := fun c s => ignoresTcache_busCmd s.par.cmds.ramwr c (s.setSt .ramCmd)
  IgnoresTcache.after (f := sendWindow frameRamwr .write _ _ _ _)
    ((ignoresTcache_frame .colCmd .colDat (fun p => p.cmds.caset) _).andThen
      ((ignoresTcache_frame .rowCmd .rowDat (fun p => p.cmds.paset) _).andThen
        (hramwr.andThen (ignoresTcache_done fun _ _ => rfl))))
    fun c s => setDevuIf_setTcache (windowDevu s x0 y0 x1 y1) c s

theorem ignoresTcache_dpWrpix (buf : List Byte) : IgnoresTcache (dpWrpix buf) :=
  ((ignoresTcache_busData buf).after (g := fun s => (setDevuIf (streamDevu s .write) s).setSt .tx) fun c s =>
    congrArg (State.setSt .tx) (setDevuIf_setTcache (streamDevu s .write) c s)).andThen
      (ignoresTcache_done fun _ _ => rfl)

theorem Play.ofRun_setTcache (c : List (TextKey × Sprite)) (r : Run Unit) :
    Play.ofRun (r.setTcache c) = (Play.ofRun r).setTcache c := by
  cases r <;> rfl

theorem opBlit_setTcache (x y x1 y1 : Int) (buf : List Byte) (c : List (TextKey × Sprite)) (s : State) :
    opBlit x y x1 y1 buf (s.setTcache c) = (opBlit x y x1 y1 buf s).setTcache c := by
  have hrun : IgnoresTcache fun s => (gsBlit x y x1 y1 buf s).andThen (finish .nothing) :=
    ((ignoresTcache_dpSetwin x y x1 y1).andThen (ignoresTcache_dpWrpix buf)).andThen (ignoresTcache_done fun _ _ => rfl)
  unfold opBlit
  split
  · exact (congrArg Play.ofRun (hrun c s)).trans (Play.ofRun_setTcache c _)
  · rfl

/-! ### DRAWTEXT is one blit of the clamped text box -/

/-- The key of the text cache: the scale is clamped before it is built (R190). -/
def textKey (text : List Byte) (color : Half) (bg : Option Half) (scale : Int) : TextKey :=
  { text := text, fg := color, bg := bg, scale := clampScale scale }

/-- The sprite of a key is the raster, its size that of the text. -/
theorem renderKey_textKey (font : List (Byte × BitVec 64)) (text : List Byte) (color : Half) (bg : Option Half)
    (scale : Int) : renderKey font (textKey text color bg scale) =
      { width := textWidth text scale, height := textHeight scale
        pix := rasterBytes font text color bg (clampScale scale).toNat } := by
  simp [renderKey, renderText, textKey]

/-- The raster at the clamped scale, blitted into the clamped text box (R189, R191, R192). -/
def blitText (x y : Int) (text : List Byte) (color : Half) (bg : Option Half) (scale : Int) (s : State) : Play :=
  opBlit (clampPos x s.width (textWidth text scale)) (clampPos y s.height (textHeight scale))
    (lastOf (clampPos x s.width (textWidth text scale)) (textWidth text scale))
    (lastOf (clampPos y s.height (textHeight scale)) (textHeight scale))
    (rasterBytes s.par.font text color bg (clampScale scale).toNat) s

section
variable (x y : Int) (text : List Byte) (color : Half)

theorem exec_drawtext (bg : Option Half) (scale : Int) (s : State) :
    exec (.drawtext x y text color bg scale) s = (opDrawtext x y text color bg scale s).outcome := rfl

theorem blitText_setTcache (bg : Option Half) (scale : Int) (c : List (TextKey × Sprite)) (s : State) :
    blitText x y text color bg scale (s.setTcache c) = (blitText x y text color bg scale s).setTcache c :=
  opBlit_setTcache ..

/-- The fast path (R191). -/
theorem opDrawtext_fast {scale : Int} (hs : clampScale scale = 1) (s : State) :
    opDrawtext x y text color none scale s = blitText x y text color none scale s := by
  have hw : textWidth text 1 = textWidth text scale := by rw [← hs, textWidth_clampScale]
  have hh : textHeight 1 = textHeight scale := by rw [← hs, textHeight_clampScale]
  simp only [opDrawtext, hs, and_self, if_true, drawFast, blitText, hw, hh]
  rfl

/-- With a sound cache the sprite drawn is the raster, hit or miss. -/
theorem drawCached_textKey (xc yc : Int) (bg : Option Half) (scale : Int) {s : State} (ht : TextCacheOk s) :
    drawCached xc yc (textKey text color bg scale) s =
      opBlit xc yc (lastOf xc (textWidth text scale)) (lastOf yc (textHeight scale))
        (rasterBytes s.par.font text color bg (clampScale scale).toNat)
        (s.setTcache (cacheGetOrBuild (textKey text color bg scale) s).2.gs.tcache) := by
  simp only [drawCached, opDrawimage]
  rw [cacheGetOrBuild_sprite _ ht, renderKey_textKey, cacheGetOrBuild_state]
  rfl

/-- The cached path (R192), hit or miss. -/
theorem opDrawtext_cached {bg : Option Half} {scale : Int} (hpath : ¬ (clampScale scale = 1 ∧ bg = none)) {s : State}
    (ht : TextCacheOk s) : opDrawtext x y text color bg scale s =
      (blitText x y text color bg scale s).setTcache
        (cacheGetOrBuild (textKey text color bg scale) s).2.gs.tcache := by
  rw [← blitText_setTcache]
  simp only [opDrawtext, if_neg hpath, textWidth_clampScale, textHeight_clampScale]
  exact drawCached_textKey text color _ _ bg scale ht

/-- Either path, whatever a sound cache holds. -/
theorem opDrawtext_eq_blitText (bg : Option Half) (scale : Int) {s : State} (ht : TextCacheOk s) :
    ∃ c, opDrawtext x y text color bg scale s = (blitText x y text color bg scale s).setTcache c := by
  by_cases hpath : clampScale scale = 1 ∧ bg = none
  · obtain ⟨hs, rfl⟩ := hpath
    exact ⟨s.gs.tcache, (opDrawtext_fast x y text color hs s).trans (blitText_setTcache x y text color none scale _ s)⟩
  · exact ⟨_, opDrawtext_cached x y text color hpath ht⟩

end

/-! ### Only the text cache tells two DRAWTEXTs apart (R199, R202) -/

theorem Play.sameButTextCache (p : Play) (c d : List (TextKey × Sprite)) :
    SameButTextCache (p.setTcache c).outcome (p.setTcache d).outcome := by
  obtain ⟨refusal, t, live⟩ := p
  cases refusal <;> rfl

/-- Settles O37: on either side the same blit, but for the text cache. -/
theorem textCacheIsTransparent : Obligations.TextCacheIsTransparent := by
  intro s c x y text color bg scale hs hc
  obtain ⟨d, hd⟩ := opDrawtext_eq_blitText x y text color bg scale hs
  obtain ⟨e, he⟩ := opDrawtext_eq_blitText x y text color bg scale (s := s.setTcache c) hc
  have he : opDrawtext x y text color bg scale (s.setTcache c) = (blitText x y text color bg scale s).setTcache e := by
    rw [he, blitText_setTcache]
    rfl
  show SameButTextCache _ (exec _ (s.setTcache c))
  rw [exec_drawtext, exec_drawtext, hd, he]
  exact Play.sameButTextCache _ d e

/-- Settles O38: no background is black, so the blit is the same. -/
theorem textPathsAgree : Obligations.TextPathsAgree := by
  intro s x y text color hs
  have hblack : blitText x y text color none 1 s = blitText x y text color (some 0) 1 s := rfl
  obtain ⟨d, hd⟩ := opDrawtext_eq_blitText x y text color none 1 hs
  obtain ⟨e, he⟩ := opDrawtext_eq_blitText x y text color (some 0) 1 hs
  rw [exec_drawtext, exec_drawtext, hd, he, hblack]
  exact Play.sameButTextCache _ d e

end Sys2Proof.Machine
end

section
/-! SUPPORT. What DRAWTEXT sends and paints while no bus fault is injected, on the fast and on the cached path
(41_graphics_surface.md R188 to R192, R200), and where the clamp puts it (R189). -/

namespace Sys2Proof.Machine

/-! ### The clamp -/

section
variable {x extent t : Int}

theorem clampPos_bounds (h : t ≤ extent) : 0 ≤ clampPos x extent t ∧ clampPos x extent t + t ≤ extent := by
  unfold clampPos; omega

theorem clampPos_left (hx : x < 0) : clampPos x extent t = 0 := by unfold clampPos; omega

theorem clampPos_right (h : t ≤ extent) (hx : extent < x + t) : clampPos x extent t = extent - t := by
  unfold clampPos; omega

theorem clampPos_inside (h0 : 0 ≤ x) (hx : x + t ≤ extent) : clampPos x extent t = x := by unfold clampPos; omega

theorem clampPos_too_large (h : extent < t) : clampPos x extent t = 0 := by unfold clampPos; omega

end

/-! ### The blit of a text -/

theorem Play.outcome_setTcache {p : Play} {t : State} (h : p.outcome = .next t) (c : List (TextKey × Sprite)) :
    (p.setTcache c).outcome = .next (t.setTcache c) := by
  obtain ⟨refusal, u, live⟩ := p
  cases refusal <;> cases h
  rfl

theorem length_rasterBytes_clamped (font : List (Byte × BitVec 64)) (text : List Byte) (fg : Half) (bg : Option Half)
    (scale : Int) : ((rasterBytes font text fg bg (clampScale scale).toNat).length : Int) =
      2 * textWidth text scale * textHeight scale := by
  rw [length_rasterBytes, textWidth, textHeight]
  push_cast
  rw [clampScale_toNat]

/-- What the blit of a text box w wide and h high at (xc,yc) leaves. -/
structure TextDrawn (xc yc w h : Int) (pix : List Byte) (s t : State) : Prop where
  flat : t.flat = s.flat ++ setwinTrace s xc yc (xc + w - 1) (yc + h - 1) ++ pix.map Event.dat
  dp : t.dp = windowedDp s xc yc (xc + w - 1) (yc + h - 1) .write
  pins : t.pins = pinsAfterBlit s pix.length
  gs : t.gs = s.gs
  result : t.ctl.result = .nothing
  same : SameBeyondBus s t
  invalid : winValid s.width s.height xc yc (xc + w - 1) (yc + h - 1) = false → t.devu = true
  paint : Ready s → inSurface s.width s.height xc yc w h = true → t.devu = false ∧
    Shows xc.toNat yc.toNat w.toNat h.toNat pix t ∧ SameOutside xc.toNat yc.toNat w.toNat h.toNat s t

theorem blitText_quiet {s : State} {x y : Int} {text : List Byte} (color : Half) (bg : Option Half) {scale : Int}
    (hq : Quiet s) {xc yc w h : Int} (hw : textWidth text scale = w) (hh : textHeight scale = h)
    (hx : clampPos x s.width w = xc) (hy : clampPos y s.height h = yc)
    (hb : boundsOk xc yc (xc + w - 1) (yc + h - 1) = true) :
    ∃ t, (blitText x y text color bg scale s).outcome = .next t ∧
      TextDrawn xc yc w h (rasterBytes s.par.font text color bg (clampScale scale).toNat) s t := by
  subst hw hh hx hy
  obtain ⟨hflat, hdp, hpins, hgs, hsame, hset⟩ := blit_facts (s := s)
    (x := clampPos x s.width (textWidth text scale)) (y := clampPos y s.height (textHeight scale))
    (x1 := lastOf (clampPos x s.width (textWidth text scale)) (textWidth text scale))
    (y1 := lastOf (clampPos y s.height (textHeight scale)) (textHeight scale))
    (rasterBytes s.par.font text color bg (clampScale scale).toNat)
  exact ⟨_, opBlit_quiet _ hq hb, hflat, hdp, hpins, hgs, rfl, hsame,
    fun hbad => hset (windowDevu_of_invalid (.inl hbad)),
    fun hr hi => blit_paint hi _ hr (length_rasterBytes_clamped ..)⟩

/-- Settles O34: the clamp by its cases; a text that does not fit is drawn from 0, and its window is not valid. -/
theorem textPositionIsClamped : Obligations.TextPositionIsClamped := by
  refine ⟨fun _ _ _ => clampPos_bounds, fun _ _ _ _ => clampPos_left, fun _ _ _ => clampPos_right,
    fun _ _ _ => clampPos_inside, fun _ _ _ => clampPos_too_large, ?_⟩
  intro s t x y text color bg scale hq ht hbig hexec
  have hb := Bool.of_not_eq_false fun hb => nomatch hexec.symm.trans (execDrawtext_refused ht hb)
  obtain ⟨u, hu, hdrawn⟩ := blitText_quiet color bg hq rfl rfl rfl rfl hb
  obtain ⟨c, hc⟩ := opDrawtext_eq_blitText x y text color bg scale ht
  rw [exec_drawtext, hc, Play.outcome_setTcache hu c] at hexec
  cases hexec
  refine hdrawn.invalid (Bool.eq_false_iff.2 fun hv => ?_)
  rw [winValid_iff] at hv
  rcases hbig with hbig | hbig
  · rw [clampPos_too_large (t := textWidth text scale) hbig] at hv
    omega
  · rw [clampPos_too_large (t := textHeight scale) hbig] at hv
    omega

/-- Settles O35: the fast path is the blit, and nothing else. -/
theorem drawtextFastPath : Obligations.DrawtextFastPath := by
  intro s x y text color scale hq hs tw xc yc pix hb
  have hclamp : clampScale scale = 1 := max_eq_right hs
  have hw : textWidth text scale = tw := by rw [textWidth, hclamp, mul_one]
  have hh : textHeight scale = 8 := by rw [textHeight, hclamp]; rfl
  obtain ⟨t, ht, hdrawn⟩ := blitText_quiet (x := x) (y := y) color none hq hw hh rfl rfl hb
  rw [hclamp] at hdrawn
  exact ⟨t, by rw [exec_drawtext, opDrawtext_fast _ _ _ _ hclamp, ht], hdrawn.flat, hdrawn.dp, hdrawn.pins, hdrawn.gs,
    hdrawn.result, hdrawn.same, hdrawn.paint⟩

/-- What the text cache holds after a sprite was asked for (R192, R200). -/
theorem cacheGetOrBuild_tcache (key : TextKey) (s : State) : (cacheGetOrBuild key s).2.gs.tcache =
    if (s.gs.tcache.lookup key).isNone ∧ (∀ c, s.par.cacheCapacity = some c → s.gs.tcache.length < c) then
      s.gs.tcache ++ [(key, renderKey s.par.font key)]
    else s.gs.tcache := by
  simp only [cacheGetOrBuild, ← hasRoom_iff]
  cases s.gs.tcache.lookup key with
  | some spr => rfl
  | none =>
    by_cases hroom : hasRoom s.par.cacheCapacity s.gs.tcache.length = true
    · simp [hroom]
    · simp [hroom]

/-- Settles O36: the cached path is the blit, and the text cache is what `cacheGetOrBuild_tcache` says. -/
theorem drawtextCachedPath : Obligations.DrawtextCachedPath := by
  intro s x y text color bg scale hq ht hpath sc tw th xc yc pix key hb
  have hcached : ¬ (clampScale scale = 1 ∧ bg = none) := by
    rintro ⟨hone, hbg⟩
    unfold clampScale at hone
    exact hpath.elim (fun hs => by omega) (· hbg)
  obtain ⟨t, hblit, hdrawn⟩ := blitText_quiet (x := x) (y := y) (text := text) (scale := scale) color bg hq rfl rfl rfl
    rfl hb
  refine ⟨t.setTcache (cacheGetOrBuild key s).2.gs.tcache, ?exec, hdrawn.flat, hdrawn.dp, hdrawn.pins, hdrawn.result,
    ?same, ?scache, ?tcache, hdrawn.paint⟩
  case exec =>
    exact (congrArg Play.outcome (opDrawtext_cached x y text color hcached ht)).trans (Play.outcome_setTcache hblit _)
  case same =>
    obtain ⟨hfault, hie, hfs, hhandlers, hwidth, hheight, hpar, henv, hmicro, hblocked⟩ := hdrawn.same
    exact ⟨hfault, hie, hfs, hhandlers, hwidth, hheight, hpar, henv, hmicro, hblocked⟩
  case scache =>
    show t.gs.scache = _
    rw [hdrawn.gs]
  case tcache =>
    have hsprite : renderKey s.par.font key = { width := tw, height := th, pix := pix } :=
      renderKey_textKey s.par.font text color bg scale
    rw [← hsprite]
    exact cacheGetOrBuild_tcache key s

end Sys2Proof.Machine
end

section
/-! SUPPORT. The Clock and the times that registers hold (43_frame_scheduler.md R252, R268, 42_input_edge_gesture.md
R231): no small change turns the Clock back, and what it writes as a time is the Clock's last answer. -/

namespace Sys2Proof.Machine

/-! ### The Clock -/

/-- The advance is added to the last answer and to what was slept since (log entry 10). -/
theorem now_add_slept_le_readClock (s : State) : s.env.now + s.env.slept ≤ (readClock s).1 := Nat.le_add_right _ _

theorem now_le_readClock (s : State) : s.env.now ≤ (readClock s).1 :=
  le_trans (Nat.le_add_right _ _) (now_add_slept_le_readClock s)

/-- A read starts the count of what is slept anew, so only the Sleep between the two reads counts. -/
theorem readClock_add_le_readClock_sleepFor (s : State) (ms : Nat) :
    (readClock s).1 + ms ≤ (readClock (sleepFor ms (readClock s).2)).1 := by
  have hnow : (sleepFor ms (readClock s).2).env.now = (readClock s).1 := rfl
  have hslept : (sleepFor ms (readClock s).2).env.slept = ms := Nat.zero_add ms
  have hread := now_add_slept_le_readClock (sleepFor ms (readClock s).2)
  rwa [hnow, hslept] at hread

/-! ### The times in the registers -/

/-- The Clock has not gone back, and each time in a register stands, or is the Clock's last answer, or (the candidate)
was cleared. -/
structure TimesFromClock (s t : State) : Prop where
  now    : s.env.now ≤ t.env.now
  last   : t.fs.last = s.fs.last ∨ t.fs.last = s.env.now
  tstart : t.fs.tstart = s.fs.tstart ∨ t.fs.tstart = s.env.now
  cand   : t.ie.cand = s.ie.cand ∨ t.ie.cand = none ∨ t.ie.cand = some s.env.now

theorem TimesFromClock.refl (s : State) : TimesFromClock s s := ⟨le_rfl, .inl rfl, .inl rfl, .inl rfl⟩

theorem PortOnly.timesFromClock {s t : State} (h : PortOnly s t) : TimesFromClock s t where
  now := (congrArg Env.now h.env).ge
  last := .inl (by rw [h.fs])
  tstart := .inl (by rw [h.fs])
  cand := .inl (congrArg IeRegs.cand h.ie)

theorem PhaseSmall.timesFromClock {s t : State} (h : PhaseSmall s t) : TimesFromClock s t := by
  cases h with
  | op h => exact h.portOnly.timesFromClock
  | env e hn _ => exact { TimesFromClock.refl s with now := hn.ge }
  | clock => exact { TimesFromClock.refl s with now := now_le_readClock s }
  | ie i _ hc => exact { TimesFromClock.refl s with cand := hc }
  | fs f _ hl ht => exact { TimesFromClock.refl s with last := hl, tstart := ht }
  | emit | hang => exact ⟨le_rfl, .inl rfl, .inl rfl, .inl rfl⟩

theorem Small.timesFromClock {s t : State} (h : Small s t) : TimesFromClock s t := by
  cases h with
  | phase h => exact h.timesFromClock
  | ctl m r => exact ⟨le_rfl, .inl rfl, .inl rfl, .inl rfl⟩

/-- What is taken from the Clock is not later than its last answer. -/
theorem TimesFromClock.timesPast {s t : State} (h : TimesFromClock s t) (hs : TimesPast s) : TimesPast t := by
  obtain ⟨hnow, hlast, htstart, hcand⟩ := h
  obtain ⟨hslast, hststart, hscand⟩ := hs
  refine ⟨by omega, by omega, fun c hc => ?_⟩
  rcases hcand with hstands | hnone | hread
  · exact le_trans (hscand c (hstands ▸ hc)) hnow
  · rw [hnone] at hc
    cases hc
  · rw [hread] at hc
    cases hc
    exact hnow

theorem step_timesPast {s t : State} (h : step s = .next t) (hs : TimesPast s) : TimesPast t :=
  step_keeps (fun _ _ k => k.timesFromClock.timesPast) (fun _ _ hs => hs) h hs

theorem step_now_le {s t : State} (h : step s = .next t) : s.env.now ≤ t.env.now :=
  step_keeps (P := fun u => s.env.now ≤ u.env.now) (fun _ _ k hs => hs.trans k.timesFromClock.now) (fun _ _ hs => hs) h
    le_rfl

/-- Settles O58: the two laws of `readClock`, and no small change turns the Clock back or writes a later time. -/
theorem clockNeverRunsBackward : Obligations.ClockNeverRunsBackward :=
  ⟨fun s => ⟨now_le_readClock s, readClock_now s⟩, readClock_add_le_readClock_sleepFor,
    fun _ _ h hs => ⟨step_timesPast h hs, step_now_le h⟩⟩

end Sys2Proof.Machine
end

section
/-! SUPPORT. Unit IE: one equation per branch of SAMPLE, EDGE and GESTURE (42_input_edge_gesture.md R222, R224,
R230). -/

namespace Sys2Proof.Machine

/-! ### GESTURE -/

/-- The double-tap test as an inequality; a gap equal to the threshold passes. -/
theorem doubleTap_iff {cand : Option Nat} {now thresh : Nat} :
    doubleTap cand now thresh = true ↔ ∃ c, cand = some c ∧ now ≤ c + thresh := by
  cases cand with
  | none => simp [doubleTap]
  | some c => simp [doubleTap, Nat.add_comm]

theorem doubleTap_eq_false {cand : Option Nat} {now thresh : Nat} (h : ∀ c, cand = some c → c + thresh < now) :
    doubleTap cand now thresh = false := by
  rw [← Bool.not_eq_true, doubleTap_iff]
  rintro ⟨c, hc, hle⟩
  exact absurd (h c hc) hle.not_gt

theorem exec_gesture (s : State) : exec .gesture s = (ieGesture s).outcome := rfl

section
variable {s : State}

theorem ieGesture_of_up_not_pressed (hup : s.ie.pressed.getLsbD 0 = false) : ieGesture s = Play.done (s.setPh 4) :=
  if_neg (Bool.eq_false_iff.1 hup)

/-- `up` is pressed, and it is no double tap: a new candidate. -/
theorem ieGesture_of_first_tap (hup : s.ie.pressed.getLsbD 0 = true)
    (htap : doubleTap s.ie.cand (readClock (s.setPh 4)).1 s.ie.thresh = false) :
    ieGesture s = Play.done (setCand (some (readClock (s.setPh 4)).1) (readClock (s.setPh 4)).2) :=
  (if_pos hup).trans (if_neg (Bool.eq_false_iff.1 htap))

section
variable (hup : s.ie.pressed.getLsbD 0 = true)
  (htap : doubleTap s.ie.cand (readClock (s.setPh 4)).1 s.ie.thresh = true)
include hup htap

theorem ieGesture_of_double_tap : ieGesture s =
    (if s.exposes 6 then callGame .reset (setCand none (readClock (s.setPh 4)).2)
      else Play.done (setCand none (readClock (s.setPh 4)).2)).andThen fun t => Play.done (setSkip t) :=
  (if_pos hup).trans (if_pos htap)

/-- The Game has no reset. -/
theorem ieGesture_of_double_tap_silent (hreset : s.exposes 6 = false) :
    ieGesture s = Play.done (setSkip (setCand none (readClock (s.setPh 4)).2)) := by
  rw [ieGesture_of_double_tap hup htap, if_neg (Bool.eq_false_iff.1 hreset), Play.done_andThen]

/-- The Game's reset answers ok. -/
theorem ieGesture_of_double_tap_reset {b : Bool} {u : State} (hreset : s.exposes 6 = true)
    (hcall : CallbackOk .reset (setCand none (readClock (s.setPh 4)).2) b u) :
    ieGesture s = Play.done (setSkip u) := by
  rw [ieGesture_of_double_tap hup htap, if_pos hreset, callGame_ok hcall, Play.done_andThen]

end

end

/-- Settles O43: the four branches of GESTURE. -/
theorem gestureRecognisesDoubleTap : Obligations.GestureRecognisesDoubleTap := by
  refine fun s => ⟨fun hup => ?notUp, fun hup hlate => ?first, fun c hup hc hle hreset => ?double,
    fun c b u hup hc hle hreset hcall => ?reset⟩
  case notUp => rw [exec_gesture, ieGesture_of_up_not_pressed hup, Play.outcome_done]
  case first =>
    rw [exec_gesture, ieGesture_of_first_tap hup (doubleTap_eq_false hlate)]
    rfl
  case double =>
    rw [exec_gesture, ieGesture_of_double_tap_silent hup (doubleTap_iff.2 ⟨c, hc, hle⟩) hreset]
    rfl
  case reset =>
    rw [exec_gesture, ieGesture_of_double_tap_reset hup (doubleTap_iff.2 ⟨c, hc, hle⟩) hreset hcall]
    rfl

/-! ### SAMPLE -/

theorem exec_sample (s : State) : exec .sample s = .next (ieSample s).state := rfl

section
variable {s : State}

theorem ieSample_of_no_provider (hp : s.par.hasProvider = false) : ieSample s = .done (setRaw 0 (s.setPh 1)) :=
  if_neg (Bool.eq_false_iff.1 hp)

variable (hp : s.par.hasProvider = true)
include hp

theorem ieSample_of_levels {raw : BitVec 6} (ha : (askProvider (s.setPh 1)).1 = .levels raw) :
    ieSample s = .done (setRaw raw (askProvider (s.setPh 1)).2) := by
  simp only [ieSample, State.setPh_par, hp, if_true, ha]

theorem ieSample_of_fail (ha : (askProvider (s.setPh 1)).1 = .fail) :
    ieSample s = raise codeGameFailure (.callback providerNumber) (askProvider (s.setPh 1)).2 := by
  simp only [ieSample, State.setPh_par, hp, if_true, ha]

theorem ieSample_of_never (ha : (askProvider (s.setPh 1)).1 = .never) :
    ieSample s = block .provider (askProvider (s.setPh 1)).2 := by
  simp only [ieSample, State.setPh_par, hp, if_true, ha]

end

/-- Settles O41: the four branches of SAMPLE. -/
theorem sampleReadsLevels : Obligations.SampleReadsLevels := by
  refine fun s => ⟨fun hp => ?none, fun raw hp ha => ⟨?levels, rfl⟩, fun hp ha => ?fail, fun hp ha => ?never⟩
  case none =>
    rw [exec_sample, ieSample_of_no_provider hp]
    rfl
  case levels =>
    rw [exec_sample, ieSample_of_levels hp ha]
    rfl
  case fail =>
    rw [exec_sample, ieSample_of_fail hp ha]
    rfl
  case never =>
    rw [exec_sample, ieSample_of_never hp ha]
    rfl

/-! ### EDGE -/

theorem getLsbD_pressedBits (raw prev : BitVec 6) {k : Nat} (hk : k < 6) :
    (pressedBits raw prev).getLsbD k = (raw.getLsbD k && !prev.getLsbD k) := by
  simp [pressedBits, hk]

theorem exec_edge (s : State) : exec .edge s = .next (ieEdge s) := rfl

/-- Settles O42: EDGE is one update, and `getLsbD_pressedBits` says what its bits are. -/
theorem edgeFindsPresses : Obligations.EdgeFindsPresses :=
  fun s => ⟨ieEdge s, exec_edge s, rfl, fun _ => getLsbD_pressedBits s.ie.raw s.ie.prev⟩

end Sys2Proof.Machine
end

section
/-! SUPPORT. The loop of RUN (43_frame_scheduler.md R251, R258, R269, R271): what follows a phase, the step that ends the
loop at a tick boundary, and why no other step ends it without a fault. -/

namespace Sys2Proof.Machine

/-! ### One equation per way a phase can end -/

section
variable {s t : State} {i j : Instr}

theorem step_of_phase_next (hb : s.ctl.blocked = none) (hm : s.ctl.micro = some i) (hp : i.space = .phase)
    (hs : ¬ (i = .tickstart ∧ (pollStop s).fs.running = false)) (he : exec i (pollStop s) = .next t) :
    step s = .next (afterPhase i t) := by
  rw [step_of_micro hb hm, if_pos (isPhase_iff.2 hp), stepPhase_of_not_stop hs, he]
  rfl

/-- The stop signal is raised at the boundary. -/
theorem step_of_stop (hb : s.ctl.blocked = none) (hm : s.ctl.micro = some .tickstart)
    (hr : (pollStop s).fs.running = false) : step s = .next (returnStopped (pollStop s)) := by
  rw [step_of_micro hb hm, if_pos (isPhase_iff.2 rfl), stepPhase, if_pos (atStop_iff.2 ⟨rfl, hr⟩)]

/-- A fault abandoned RUN. -/
theorem afterPhase_of_abandoned (i : Instr) (hb : t.ctl.blocked = none) (hm : t.ctl.micro = none) :
    afterPhase i t = returnToHost t := by
  simp [afterPhase, hb, hm]

theorem afterPhase_of_completed (i : Instr) (hb : t.ctl.blocked = none) (hm : t.ctl.micro ≠ none) :
    afterPhase i t = advance i t := by
  simp [afterPhase, hb, hm]

theorem advance_of_nextPhase (h : nextPhase i t.fs.skip = some j) : advance i t = t.setMicro (some j) := by
  rw [advance, h]
  rfl

theorem advance_of_tickEnds (h : nextPhase i t.fs.skip = none) : advance i t = endTick t := by
  rw [advance, h]

theorem advance_micro (i : Instr) (t : State) : (advance i t).ctl.micro ≠ none := by
  unfold advance
  split <;> exact Option.some_ne_none _

end

/-- Settles O5: a phase that completes is followed by `advance`, and `nextPhase` is read off for each of the eight. -/
theorem tickPhaseOrder : Obligations.TickPhaseOrder := by
  intro s t hb hbt hmt goesOn ends
  have next {i j : Instr} (hp : i.space = .phase) (hs : ¬ (i = .tickstart ∧ (pollStop s).fs.running = false))
      (hn : nextPhase i t.fs.skip = some j) : goesOn i j := fun hm he => by
    rw [step_of_phase_next hb hm hp hs he, afterPhase_of_completed i hbt hmt, advance_of_nextPhase hn]
  have last {i : Instr} (hp : i.space = .phase) (hi : i ≠ .tickstart) (hn : nextPhase i t.fs.skip = none) :
      ends i := fun hm he => by
    rw [step_of_phase_next hb hm hp (fun h => hi h.1) he, afterPhase_of_completed i hbt hmt, advance_of_tickEnds hn]
    rfl
  exact ⟨fun hr => next rfl (fun h => Bool.noConfusion (hr.symm.trans h.2)) rfl,
    next rfl (by simp) rfl, next rfl (by simp) rfl, next rfl (by simp) rfl,
    fun hk => next rfl (by simp) (by rw [hk]; rfl), fun hk => last rfl (by simp) (by rw [hk]; rfl),
    next rfl (by simp) rfl, next rfl (by simp) rfl, last rfl (by simp) rfl⟩

/-! ### What ends the loop -/

/-- If no phase is next, a fault is latched. -/
def LoopGoesOn (s : State) : Prop := s.ctl.micro = none → s.fault.code ≠ 0

theorem enterFault_code_ne_zero {code : BitVec 8} (hc : code ≠ 0) (info : FaultInfo) (s : State) :
    (enterFault code info s).fault.code ≠ 0 := by
  by_cases h : s.fault.code = 0
  · exact (congrArg FaultRegs.code (if_pos h)).trans_ne hc
  · exact (congrArg FaultRegs.code (if_neg h)).trans_ne h

/-- Only fault entry takes the sequencer's next operation away. -/
theorem OpSmall.micro_or_fault {s t : State} (h : OpSmall s t) : t.ctl.micro = s.ctl.micro ∨ t.fault.code ≠ 0 := by
  cases h with
  | fault code info hc _ => exact .inr (enterFault_code_ne_zero hc info s)
  | panelCmd b => exact .inl (congrArg Ctl.micro (panelCmd_panelOnly b s).ctl)
  | panelData d => exact .inl (congrArg Ctl.micro (panelData_panelOnly d s).ctl)
  | panelRead => exact .inl (congrArg Ctl.micro (panelRead_panelOnly s).ctl)
  | panelRst l => exact .inl (congrArg Ctl.micro (panelRst_panelOnly l s).ctl)
  | env | emit | pins | setDevu | dp | text | sprite | clear | result | stall | stop => exact .inl rfl

theorem PhaseSmall.micro_or_fault {s t : State} (h : PhaseSmall s t) :
    t.ctl.micro = s.ctl.micro ∨ t.fault.code ≠ 0 := by
  cases h with
  | op h => exact h.micro_or_fault
  | env | clock | emit | ie | fs | hang => exact .inl rfl

theorem PhaseSmall.loopGoesOn {s t : State} (h : PhaseSmall s t) (hs : LoopGoesOn s) : LoopGoesOn t := by
  intro hm
  rcases h.micro_or_fault with hstands | hfault
  · have hlatched : s.fault.code ≠ 0 := hs (hstands.symm.trans hm)
    rcases (Small.phase h).faultLatched with hkept | ⟨hnone, _⟩
    · rwa [hkept]
    · exact absurd hnone hlatched
  · exact hfault

theorem exec_loopGoesOn {i : Instr} {s t : State} (hi : i ≠ .run) (h : exec i s = .next t) (hs : LoopGoesOn s) :
    LoopGoesOn t :=
  (exec_phaseSteps hi h).keeps (fun _ _ => PhaseSmall.loopGoesOn) hs

theorem LoopGoesOn.afterPhase {s : State} (h : LoopGoesOn s) (i : Instr) : LoopGoesOn (afterPhase i s) := by
  unfold Machine.afterPhase
  split
  · exact h
  split
  · exact h
  · exact fun hm => absurd hm (advance_micro i s)

theorem returnStopped_fs {s : State} (h : (pollStop s).fs.running = false) :
    (returnStopped (pollStop s)).fs = { s.fs with running := false } :=
  congrArg (fun r => ({ s.fs with running := r } : FsRegs)) h

/-- Settles O6: the step at the boundary is `returnStopped`; every other step keeps `LoopGoesOn`. -/
theorem loopEndsOnlyAtBoundary : Obligations.LoopEndsOnlyAtBoundary := by
  refine ⟨fun s hb hm hr => ⟨_, step_of_stop hb hm hr, rfl, rfl, rfl, returnStopped_fs hr, rfl, rfl, rfl, hb,
    by constructor <;> rfl⟩, fun s t i hm hp h hend => ?_⟩
  refine or_iff_not_imp_left.2 fun hstop => ?_
  have hb : s.ctl.blocked = none := step_blocked_none h
  rw [step_of_micro hb hm, if_pos (isPhase_iff.2 hp), stepPhase_of_not_stop hstop] at h
  obtain ⟨u, hu, rfl⟩ := mapNext_next h
  have hrun : i ≠ .run := by
    rintro rfl
    cases hp
  have hstart : LoopGoesOn (pollStop s) := fun hnone => absurd (hm.symm.trans hnone) (Option.some_ne_none i)
  exact (exec_loopGoesOn hrun hu hstart).afterPhase i hend

/-! ### RUN, STOP, TICKSTART and PACE -/

/-- Settles O44: RUN and STOP are one update each. -/
theorem runStartsLoopStopEndsIt : Obligations.RunStartsLoopStopEndsIt :=
  ⟨fun _ => ⟨_, rfl, rfl, rfl, rfl, rfl, rfl, rfl, by constructor <;> rfl⟩, fun _ => rfl⟩

/-- Settles O45: TICKSTART is one read of the Clock and one update. -/
theorem tickstartMeasuresDelta : Obligations.TickstartMeasuresDelta := fun _ => rfl

theorem exec_pace (s : State) : exec .pace s =
    if (readClock (s.setPh 7)).1 - s.fs.tstart < s.fs.period then
      .next (sleepFor (s.fs.period - ((readClock (s.setPh 7)).1 - s.fs.tstart)) (readClock (s.setPh 7)).2)
    else .next (readClock (s.setPh 7)).2 := rfl

/-- A read of the Clock starts the count of what is slept anew. -/
theorem sleepFor_readClock (ms : Nat) (s : State) : sleepFor ms (readClock s).2 =
    { (readClock s).2 with out := .sleep ms :: s.out, env := { (readClock s).2.env with slept := ms } } := by
  have hslept : (readClock s).2.env.slept + ms = ms := Nat.zero_add ms
  unfold sleepFor
  rw [hslept]
  rfl

/-- Settles O49: the two branches of PACE. -/
theorem paceSleepsRemainder : Obligations.PaceSleepsRemainder := by
  refine fun s => ⟨fun hlt => ?sleeps, fun hle => ?late⟩
  case sleeps =>
    refine ⟨_, (exec_pace s).trans (if_pos hlt), rfl, ?_⟩
    rw [sleepFor_readClock]
  case late => rw [exec_pace, if_neg (Nat.not_lt.2 hle)]

end Sys2Proof.Machine
end

section
/-! SUPPORT. Callbacks as the tick phases see them (43_frame_scheduler.md R254 to R266): which callbacks a phase opens, in
which order, and what of the state that decides it a callback can never change. -/

namespace Sys2Proof.Machine

/-! ### What a callback adds to the trace -/

theorem calls_append (es fs : List Event) : calls (es ++ fs) = calls es ++ calls fs := List.filterMap_append

/-- From s to t the callbacks cs are opened, in order; unit IE, HANDLERS and FS.FIRST, which decide what a phase calls,
are as they were. -/
structure Opens (cs : List Callback) (s t : State) : Prop where
  out      : ∃ es, t.out = es.reverse ++ s.out ∧ calls es = cs
  ie       : t.ie = s.ie
  handlers : t.handlers = s.handlers
  first    : t.fs.first = s.fs.first

theorem Opens.of_out_eq {s t : State} (ho : t.out = s.out) (hi : t.ie = s.ie) (hh : t.handlers = s.handlers)
    (hf : t.fs.first = s.fs.first) : Opens [] s t := ⟨⟨[], ho, rfl⟩, hi, hh, hf⟩

theorem Opens.refl (s : State) : Opens [] s s := .of_out_eq rfl rfl rfl rfl

theorem Opens.trans {cs ds : List Callback} {s t u : State} (h : Opens cs s t) (k : Opens ds t u) :
    Opens (cs ++ ds) s u where
  out := by
    obtain ⟨es, hes, hcs⟩ := h.out
    obtain ⟨fs, hfs, hds⟩ := k.out
    exact ⟨es ++ fs, by rw [hfs, hes, List.reverse_append, List.append_assoc], by rw [calls_append, hcs, hds]⟩
  ie := k.ie.trans h.ie
  handlers := k.handlers.trans h.handlers
  first := k.first.trans h.first

theorem opens_emit (e : Event) (s : State) : Opens (calls [e]) s (s.emit e) := ⟨⟨[e], rfl, rfl⟩, rfl, rfl, rfl⟩

theorem calls_bus {e : Event} (h : e.isBus = true) : calls [e] = [] := by
  cases e with
  | cmd | dat | rd | rst | wait | cs | dc => rfl
  | provider | call | answer | present | sleep | ret => cases h

theorem PanelOnly.opens {s t : State} (h : PanelOnly s t) : Opens [] s t :=
  .of_out_eq h.out h.ie h.handlers (congrArg FsRegs.first h.fs)

/-- No operation of the port opens a callback. -/
theorem OpSmall.opens {s t : State} (h : OpSmall s t) : Opens [] s t := by
  cases h with
  | emit e he => exact calls_bus he ▸ opens_emit e s
  | panelCmd b => exact (panelCmd_panelOnly b s).opens
  | panelData d => exact (panelData_panelOnly d s).opens
  | panelRead => exact (panelRead_panelOnly s).opens
  | panelRst l => exact (panelRst_panelOnly l s).opens
  | env | pins | setDevu | dp | text | sprite | clear | result | stall | stop | fault => exact .of_out_eq rfl rfl rfl rfl

theorem OpSteps.opens {s t : State} (h : OpSteps s t) : Opens [] s t :=
  h.keeps (P := Opens [] s) (fun _ _ k hs => hs.trans k.opens) (.refl s)

theorem opens_openCallback (c : Callback) (s : State) : Opens [c] s (openCallback c s) :=
  ⟨⟨[.call c], rfl, rfl⟩, rfl, rfl, rfl⟩

theorem opens_closeCallback (c : Callback) (r : Reply) (s : State) : Opens [] s (closeCallback c r s).state := by
  cases r with
  | ok b => exact opens_emit (.answer c (.ok b)) s
  | fail =>
    exact (opens_emit (.answer c .fail) s).trans (OpSmall.fault _ _ (by decide) (by decide)).opens
  | never => exact .of_out_eq rfl rfl rfl rfl

theorem opens_failCallback {cs : List Callback} {s : State} (c : Callback) {p : Play} (h : Opens cs s p.st) :
    Opens cs s (failCallback c p).st := by
  unfold failCallback
  split
  · exact h
  · exact List.append_nil cs ▸ h.trans (opens_emit (.answer c .fail) p.st)

/-- A callback opens itself and no other. -/
theorem opens_callGame (c : Callback) (s : State) : Opens [c] s (callGame c s).st := by
  have hacts : Opens [c] s (failCallback c (gameActs c s)).st :=
    opens_failCallback c ((opens_openCallback c s).trans (steps_gameOps _ _).opens)
  change Opens [c] s ((failCallback c (gameActs c s)).andThen fun t =>
    Play.ofRun (closeCallback c (nextGame s).reply t)).st
  unfold Play.andThen
  split
  · exact hacts.trans (opens_closeCallback c _ _)
  · exact hacts

theorem CallbackOk.opens {c : Callback} {s t : State} {b : Bool} (h : CallbackOk c s b t) : Opens [c] s t := by
  have hcall := opens_callGame c s
  rwa [callGame_ok h] at hcall

theorem nextGame_of_cons {s : State} {a : GameAnswer} {g : List GameAnswer} (h : s.env.game = a :: g) :
    nextGame s = a := by
  rw [nextGame, h]
  rfl

/-- The Game issues nothing and answers ok. -/
theorem callbackOk_silentCall (c : Callback) {s : State} {b : Bool} {g : List GameAnswer}
    (h : s.env.game = { ops := [], reply := .ok b } :: g) : CallbackOk c s b (silentCall c b g s) := by
  have hnext : nextGame s = { ops := [], reply := .ok b } := nextGame_of_cons h
  refine ⟨openCallback c s, by rw [gameActs, hnext]; rfl, by rw [hnext], ?_⟩
  simp only [silentCall, openCallback, State.emit, h, List.tail_cons]

/-! ### DISPATCH -/

/-- Button k is pressed and the Game exposes its handler. -/
def State.dispatches (s : State) (k : Fin 6) : Bool := s.ie.pressed.getLsbD k.val && s.exposes k.val

theorem Opens.dispatches {cs : List Callback} {s t : State} (h : Opens cs s t) : t.dispatches = s.dispatches := by
  unfold State.dispatches State.exposes
  rw [h.ie, h.handlers]

theorem callHandlers_on {s : State} {k : Fin 6} (r : List (Fin 6)) (h : s.dispatches k = true) :
    callHandlers (k :: r) s = (callGame (.handler k) s).andThen (callHandlers r) :=
  congrArg (Play.andThen · (callHandlers r)) (if_pos h)

theorem callHandlers_off {s : State} {k : Fin 6} (r : List (Fin 6)) (h : s.dispatches k = false) :
    callHandlers (k :: r) s = callHandlers r s :=
  congrArg (Play.andThen · (callHandlers r)) (if_neg (Bool.eq_false_iff.1 h))

theorem exec_dispatch (s : State) : exec .dispatch s = (callHandlers [0, 1, 2, 3, 4, 5] (s.setPh 3)).outcome := rfl

theorem callHandlers_of_handlersRun {ks : List (Fin 6)} {s t : State} (h : HandlersRun ks s t) :
    callHandlers ks s = Play.done t := by
  induction ks generalizing s with
  | nil =>
    cases h
    rfl
  | cons k r ih =>
    unfold HandlersRun at h
    split at h
    · next hon =>
      obtain ⟨b, u, hcall, hrest⟩ := h
      rw [callHandlers_on r hon, callGame_ok hcall, Play.done_andThen, ih hrest]
    · next hoff => rw [callHandlers_off r (Bool.eq_false_iff.2 hoff), ih h]

theorem callHandlers_none (ks : List (Fin 6)) {s : State} (h : ∀ k, s.dispatches k = false) :
    callHandlers ks s = Play.done s := by
  induction ks with
  | nil => rfl
  | cons k r ih => rw [callHandlers_off r (h k), ih]

/-- A handler that does not complete ends the phase, so the handlers opened are a beginning of the list. -/
theorem callHandlers_opens (ks : List (Fin 6)) (s : State) :
    ∃ cs, Opens cs s (callHandlers ks s).st ∧ cs <+: (ks.filter s.dispatches).map Callback.handler := by
  induction ks generalizing s with
  | nil => exact ⟨[], .refl s, List.nil_prefix⟩
  | cons k r ih =>
    cases hk : s.dispatches k with
    | false =>
      rw [callHandlers_off r hk, List.filter_cons_of_neg (Bool.eq_false_iff.1 hk)]
      exact ih s
    | true =>
      have hopen : Opens [.handler k] s (callGame (.handler k) s).st := opens_callGame _ s
      rw [callHandlers_on r hk, List.filter_cons_of_pos hk, List.map_cons]
      unfold Play.andThen
      split
      · obtain ⟨cs, hcs, hpre⟩ := ih (callGame (.handler k) s).st
        rw [hopen.dispatches] at hpre
        exact ⟨.handler k :: cs, hopen.trans hcs, List.cons_prefix_cons.2 ⟨rfl, hpre⟩⟩
      · exact ⟨[.handler k], hopen, List.cons_prefix_cons.2 ⟨rfl, List.nil_prefix⟩⟩

/-- Settles O46: `callHandlers` when every handler answers ok, when there is none, and by induction over the buttons
whatever the handlers do. -/
theorem dispatchCallsHandlersInOrder : Obligations.DispatchCallsHandlersInOrder := by
  refine ⟨fun s t h => ?completes, fun s h => ?none, fun s t h => ?opened⟩
  case completes => rw [exec_dispatch, callHandlers_of_handlersRun h, Play.outcome_done]
  case none =>
    have hnone : ∀ k, (s.setPh 3).dispatches k = false := fun k => Bool.and_eq_false_iff.2 (h k)
    rw [exec_dispatch, callHandlers_none _ hnone, Play.outcome_done]
  case opened =>
    obtain ⟨cs, hopens, hpre⟩ := callHandlers_opens [0, 1, 2, 3, 4, 5] (s.setPh 3)
    obtain ⟨es, hes, rfl⟩ := hopens.out
    exact ⟨es, outcome_next h ▸ hes, hpre⟩

/-! ### UPDATE -/

theorem exec_update (s : State) : exec .update s =
    (callGame (.update (s.fs.dtms / 1000) s.ie.cur s.ie.pressed) (s.setPh 5)).outcome := rfl

theorem exec_update_of_callbackOk {s t : State} {b : Bool}
    (h : CallbackOk (.update (s.fs.dtms / 1000) s.ie.cur s.ie.pressed) (s.setPh 5) b t) : exec .update s = .next t := by
  rw [exec_update, callGame_ok h, Play.outcome_done]

/-- Settles O47: UPDATE is one callback; a silent Game answers ok in `silentCall`. -/
theorem updateCallsGame : Obligations.UpdateCallsGame :=
  ⟨fun _ _ _ => exec_update_of_callbackOk,
    fun s _ _ h => exec_update_of_callbackOk (callbackOk_silentCall _ (s := s.setPh 5) h)⟩

/-! ### DRAW -/

theorem drawAndPresent_of_callbackOk {s t : State} {b : Bool} (h : CallbackOk .draw s b t) :
    drawAndPresent s = Play.done (t.emit .present) := by
  rw [drawAndPresent, callGame_ok h, Play.done_andThen]

/-- The Game has no shouldRedraw. -/
theorem exec_draw_unasked {s : State} (hx : s.exposes 7 = false) :
    exec .draw s = (drawAndPresent (s.setPh 6)).outcome :=
  congrArg Play.outcome (if_neg (Bool.eq_false_iff.1 hx))

/-- The Game's shouldRedraw answers b. -/
theorem exec_draw_asked {s u : State} {b : Bool} (hx : s.exposes 7 = true)
    (hask : CallbackOk .shouldRedraw (s.setPh 6) b u) :
    exec .draw s = (if drawNeeded b s.fs.first then drawAndPresent u else Play.done u).outcome := by
  have hreply : (nextGame (s.setPh 6)).reply = .ok b := by
    obtain ⟨_, _, hreply, _⟩ := hask
    exact hreply
  have hfirst : u.fs.first = s.fs.first := hask.opens.first
  refine congrArg Play.outcome ((if_pos hx).trans ?_)
  rw [callGame_ok hask, Play.done_andThen, hreply, hfirst]
  rfl

theorem exec_draw_unasked_of_callbackOk {s t : State} {b : Bool} (hx : s.exposes 7 = false)
    (h : CallbackOk .draw (s.setPh 6) b t) : exec .draw s = .next (t.emit .present) := by
  rw [exec_draw_unasked hx, drawAndPresent_of_callbackOk h, Play.outcome_done]

/-- Settles O48: DRAW with no shouldRedraw, and with it by what it answers and by FS.FIRST, which no callback changes. -/
theorem drawAsksThenDraws : Obligations.DrawAsksThenDraws := by
  refine ⟨fun s t b hx h => exec_draw_unasked_of_callbackOk hx h,
    fun s b g hx hg => exec_draw_unasked_of_callbackOk hx (callbackOk_silentCall _ (s := s.setPh 6) hg),
    fun s u t b c hx hask hneed hdraw => ?needed, fun s u hx hask hfirst => ?notNeeded⟩
  case needed =>
    have hdraws : drawNeeded b s.fs.first = true := (Bool.or_eq_true _ _).mpr hneed
    rw [exec_draw_asked hx hask, if_pos hdraws, drawAndPresent_of_callbackOk hdraw, Play.outcome_done]
  case notNeeded =>
    rw [exec_draw_asked hx hask, hfirst]
    rfl

end Sys2Proof.Machine
end

section
/-! SUPPORT. A callback that fails, and a fault inside a callback (43_frame_scheduler.md R255, R272, 60_exceptions.md
R291, R292, R296): the phase ends as the callback did, and RUN returns. -/

namespace Sys2Proof.Machine

section
variable {s q t : State} {i : Instr} {c : Callback} (hb : s.ctl.blocked = none) (hm : s.ctl.micro = some i)
  (ho : CallbackOpens i c (pollStop s) q)
include hb hm ho

/-- The callback that phase i opened was abandoned in state t. -/
theorem step_of_abandoned_callback (hc : callGame c q = { refusal := none, st := t, live := false })
    (hbt : t.ctl.blocked = none) (hmt : t.ctl.micro = none) : step s = .next (returnToHost t) := by
  obtain ⟨he, hp, hi⟩ := callbackOpens_exec ho (by rw [hc])
  rw [hc] at he
  rw [step_of_phase_next hb hm hp (fun h => hi h.1) he, afterPhase_of_abandoned i hbt hmt]

/-- The Game's operations ended in state t, in fault entry. -/
theorem step_of_faulted_callback (hg : gameActs c q = { refusal := none, st := t, live := false })
    (hbt : t.ctl.blocked = none) (hmt : t.ctl.micro = none) :
    step s = .next (returnToHost (t.emit (.answer c .fail))) := by
  have hc := callGame_faulted (c := c) (q := q) (by rw [hg]) (by rw [hg]) (by rw [hg]; exact hbt)
  rw [hg] at hc
  exact step_of_abandoned_callback hb hm ho hc hbt hmt

end

/-- Settles O50: the answer `fail` is fault entry, after which no phase is next. -/
theorem failedCallbackEndsRun : Obligations.FailedCallbackEndsRun :=
  fun _ _ _ _ _ hb hm ho hg hr hbu => step_of_abandoned_callback hb hm ho (callGame_fail hg hr) hbu rfl

/-! ### A fault inside a callback -/

theorem decodePort_encode {i : Instr} (hwf : i.WellFormed) (hp : i.space = .port) : decodePort (encode i) = .ok i := by
  rw [decodePort, (decodeOp_reads hwf hp).exactly]

theorem gameBytes_encode {i : Instr} (hwf : i.WellFormed) (hp : i.space = .port) (s : State) :
    gameBytes (encode i) s = gameOp i s := by
  rw [gameBytes, decodePort_encode hwf hp]

theorem readResource_of_absent {s : State} {r : List (Option (List Byte))} (h : s.env.res = none :: r) :
    (readResource s).1 = none := by
  unfold readResource
  rw [h]
  rfl

theorem opLoadsprite_absent {name : List Byte} {w h : Int} {s : State}
    (hl : s.gs.scache.lookup { name := name, width := w, height := h } = none) (hp : (readResource s).1 = none) :
    opLoadsprite name w h s =
      { refusal := none, st := enterFault codeResourceNotFound (.resource name) (readResource s).2, live := false } := by
  rw [opLoadsprite, gsLoadsprite, hl]
  simp only [loadMiss, hp]
  rfl

/-- The Game's first operation is a LOADSPRITE of a resource that is absent. -/
theorem gameActs_loadsprite_absent {c : Callback} {q : State} {name : List Byte} {w h : Int} {rest : List (List Byte)}
    (hwf : (Instr.loadsprite name w h).WellFormed) (hops : (nextGame q).ops = encode (.loadsprite name w h) :: rest)
    (hl : q.gs.scache.lookup { name := name, width := w, height := h } = none)
    (hp : (readResource (openCallback c q)).1 = none) :
    gameActs c q = opLoadsprite name w h (openCallback c q) := by
  have hstops : (opLoadsprite name w h (openCallback c q)).live = false := by
    rw [opLoadsprite_absent (s := openCallback c q) hl hp]
  rw [gameActs, hops, gameOps, gameBytes_encode hwf rfl]
  exact andThen_stops hstops _

theorem step_of_loadsprite_absent {s q : State} {i : Instr} {c : Callback} {name : List Byte} {w h : Int}
    {rest : List (List Byte)} {r : List (Option (List Byte))} (hb : s.ctl.blocked = none) (hm : s.ctl.micro = some i)
    (ho : CallbackOpens i c (pollStop s) q) (hwf : (Instr.loadsprite name w h).WellFormed)
    (hops : (nextGame q).ops = encode (.loadsprite name w h) :: rest)
    (hl : q.gs.scache.lookup { name := name, width := w, height := h } = none) (hres : q.env.res = none :: r)
    (hbq : q.ctl.blocked = none) :
    step s = .next (returnToHost ((enterFault codeResourceNotFound (.resource name)
      (readResource (openCallback c q)).2).emit (.answer c .fail))) := by
  have habsent : (readResource (openCallback c q)).1 = none := readResource_of_absent (s := openCallback c q) hres
  have hacts := (gameActs_loadsprite_absent hwf hops hl habsent).trans (opLoadsprite_absent hl habsent)
  exact step_of_faulted_callback hb hm ho hacts hbq rfl

/-- Settles O51: what ended the Game's operations is fault entry (`ends_gameOps`), and the step returns the fault. -/
theorem faultInsideCallbackEndsRun : Obligations.FaultInsideCallbackEndsRun := by
  refine ⟨fun s q i c hb hm ho hrefusal hlive hblocked => ?any,
    fun s name w h rest g reply r hb hm hwf hg hl hres => ?absent⟩
  case any =>
    have hends : (gameActs c q).Ends q.fault := ends_gameOps _ rfl
    rcases hends.2 hlive hrefusal with hstuck | ⟨code, info, v, hcode, hv, hentry⟩
    · rw [hblocked] at hstuck
      cases hstuck
    have hacts : gameActs c q = { refusal := none, st := enterFault code info v, live := false } := by
      rw [← hentry, ← hrefusal, ← hlive]
    rw [hentry] at hblocked ⊢
    exact ⟨code, info, hcode, hv ▸ rfl, rfl, rfl, rfl, rfl, step_of_faulted_callback hb hm ho hacts hblocked rfl⟩
  case absent =>
    have hops : (nextGame ((pollStop s).setPh 5)).ops = encode (.loadsprite name w h) :: rest :=
      congrArg GameAnswer.ops (nextGame_of_cons (s := (pollStop s).setPh 5) hg)
    exact ⟨_, step_of_loadsprite_absent hb hm ⟨rfl, rfl⟩ hwf hops hl hres hb, rfl, rfl, rfl, rfl, rfl, rfl⟩

end Sys2Proof.Machine
end

section
/-! SUPPORT. A bus fate that falls due in a WRPIX (60_exceptions.md R293, R294, R303): the bytes before it have gone
out, and the last thing is fault entry or a thread that is stuck. -/

namespace Sys2Proof.Machine

/-! ### A fate that is due, and one that is not yet -/

/-- What a bus fate does when it falls due in a transfer: fault entry (R296), or the thread is stuck (R303). -/
def BusFate.strike (fate : BusFate) (s : State) : State :=
  match fate with
  | .busError => enterFault codeBusError .nothing s
  | .timingFault => enterFault codeTimingFault .nothing s
  | .stall => { s with ctl := { s.ctl with blocked := some .bus } }

section
variable {s : State} {k : Nat} {fate : BusFate} {r : List (Nat × BusFate)}

theorem pollTransfer_of_due (h : s.env.bus = (0, fate) :: r) : pollTransfer s = .dead (fate.strike (s.setBus r)) := by
  unfold pollTransfer
  rw [h]
  cases fate <;> rfl

theorem pollTransfer_of_later (h : s.env.bus = (k + 1, fate) :: r) :
    pollTransfer s = .done (s.setBus ((k, fate) :: r)) := by
  unfold pollTransfer
  rw [h]

/-- Between transactions a fault strikes at once. -/
theorem pollIdle_of_due (h : s.env.bus = (0, fate) :: r) (hf : fate ≠ .stall) :
    pollIdle s = .dead (fate.strike (s.setBus r)) := by
  unfold pollIdle
  rw [h]
  cases fate with
  | busError => rfl
  | timingFault => rfl
  | stall => contradiction

/-- Between transactions a stall waits, as does a fate that is not due (log entry 16). -/
theorem pollIdle_of_waits (h : s.env.bus = (k, fate) :: r) (hw : k = 0 → fate = .stall) :
    pollIdle s = .done (s.setBus ((k - 1, fate) :: r)) := by
  cases k with
  | zero =>
    obtain rfl := hw rfl
    have hs : s.setBus ((0, .stall) :: r) = s := by rw [← h]; rfl
    rw [Nat.zero_sub, hs]
    unfold pollIdle
    rw [h]
  | succ k =>
    unfold pollIdle
    rw [h]
    rfl

/-! ### The bytes of one transaction -/

/-- The panel has no part in the script of the bus. -/
theorem panelData_setBus (b : Byte) (bus : List (Nat × BusFate)) (s : State) :
    panelData b (s.setBus bus) = (panelData b s).setBus bus := by
  have halike : PanelAlike (panelData b s) (panelData b (s.setBus bus)) :=
    PanelAlike.panelData b (by constructor <;> rfl)
  calc panelData b (s.setBus bus)
    _ = (s.setBus bus).withPanel _ _ _ := (panelData_panelOnly b (s.setBus bus)).eq_withPanel
    _ = (s.withPanel (panelData b s).pan (panelData b s).devu (panelData b s).draws).setBus bus := by
      rw [halike.pan, halike.devu, halike.draws]; rfl
    _ = (panelData b s).setBus bus := congrArg (State.setBus bus) (panelData_panelOnly b s).eq_withPanel.symm

theorem sentData_setBus (bs : List Byte) (bus : List (Nat × BusFate)) (s : State) :
    sentData bs (s.setBus bus) = (sentData bs s).setBus bus := by
  induction bs generalizing s with
  | nil => rfl
  | cons b bs ih =>
    have hb : panelData b ((s.setBus bus).emit (.dat b)) = (panelData b (s.emit (.dat b))).setBus bus :=
      panelData_setBus b bus (s.emit (.dat b))
    rw [sentData, hb, ih, sentData]

/-- There is one poll before each byte and one after the last, so a fate due after k polls strikes after k bytes. -/
theorem sendData_endTx_struck {bs : List Byte} (h : s.env.bus = (k, fate) :: r) (hk : k ≤ bs.length) :
    (sendData bs s).andThen endTx = .dead (fate.strike ((sentData (bs.take k) s).setBus r)) := by
  induction bs generalizing k s with
  | nil =>
    obtain rfl : k = 0 := Nat.le_zero.1 hk
    rw [sendData, Run.andThen_live, endTx, pollTransfer_of_due h]
    rfl
  | cons b bs ih =>
    cases k with
    | zero =>
      rw [sendData, pollTransfer_of_due h]
      rfl
    | succ k =>
      have hbus : (panelData b ((s.setBus ((k, fate) :: r)).emit (.dat b))).env.bus = (k, fate) :: r := by
        rw [(panelData_panelOnly b _).env]; rfl
      have hb : panelData b ((s.setBus ((k, fate) :: r)).emit (.dat b)) =
          (panelData b (s.emit (.dat b))).setBus ((k, fate) :: r) := panelData_setBus b _ (s.emit (.dat b))
      rw [sendData, pollTransfer_of_later h, Run.andThen_live, ih hbus (Nat.le_of_succ_le_succ hk), hb,
        sentData_setBus]
      rfl

/-- Inside the transaction: CS_n has fallen, and one byte fewer than the polls has gone out. -/
theorem busData_struck_inside {buf : List Byte} (h : s.env.bus = (k, fate) :: r) (hw : k = 0 → fate = .stall)
    (hne : buf ≠ []) (hk : k ≤ buf.length + 1) :
    busData buf s = .dead (fate.strike ((sentData (buf.take (k - 1)) (openTx s.par.dcData s)).setBus r)) := by
  cases buf with
  | nil => contradiction
  | cons b bs =>
    have hopen : (openTx s.par.dcData (s.setBus ((k - 1, fate) :: r))).env.bus = (k - 1, fate) :: r := rfl
    have hset : openTx s.par.dcData (s.setBus ((k - 1, fate) :: r)) =
        (openTx s.par.dcData s).setBus ((k - 1, fate) :: r) := rfl
    rw [busData, pollIdle_of_waits h hw, Run.andThen_live, State.setBus_par,
      sendData_endTx_struck hopen (Nat.sub_le_of_le_add hk), hset, sentData_setBus]
    rfl

/-- BusData struck: before its transaction, or inside it. -/
theorem busData_struck {buf : List Byte} (h : s.env.bus = (k, fate) :: r) (hne : buf ≠ []) (hk : k ≤ buf.length + 1) :
    ∃ u, busData buf s = .dead (fate.strike u) ∧ BusOnly (s.setBus r) u ∧
      u.flat = s.flat ++ (buf.take (k - 1)).map Event.dat ∧
      u.pins.csN = (if k = 0 ∧ fate ≠ .stall then s.pins.csN else false) := by
  by_cases hbefore : k = 0 ∧ fate ≠ .stall
  case pos =>
    obtain ⟨rfl, hf⟩ := hbefore
    refine ⟨s.setBus r, ?_, BusOnly.refl _, ?_, (if_pos ⟨rfl, hf⟩).symm⟩
    · cases buf with
      | nil => contradiction
      | cons b bs => rw [busData, pollIdle_of_due h hf, Run.andThen_dead]
    · exact (List.append_nil _).symm
  case neg =>
    have hkeeps := sentData_keeps (buf.take (k - 1)) (openTx s.par.dcData s)
    refine ⟨_, busData_struck_inside h (fun h0 => not_not.1 fun hf => hbefore ⟨h0, hf⟩) hne hk, ?_, ?_, ?_⟩
    · exact BusOnly.trans (by constructor <;> rfl) (hkeeps.setBus r).busOnly
    · exact (sentData_flat _ _).trans (congrArg (· ++ _) (flat_openTx _ s))
    · rw [if_neg hbefore, State.setBus_pins, hkeeps.pins]
      rfl

/-! ### WRPIX -/

/-- WRPIX struck: unit DP is in its transfer, the bytes before the fate have gone out, and nothing but the bus, the
panel and the script of the bus has changed until then. -/
theorem exec_wrpix_struck {buf : List Byte} (h : s.env.bus = (k, fate) :: r) (hne : buf ≠ [])
    (hk : k ≤ buf.length + 1) :
    ∃ u, exec (.wrpix buf) s = .next (fate.strike u) ∧ BusOnly ((s.setSt .tx).setBus r) u ∧
      u.flat = s.flat ++ (buf.take (k - 1)).map Event.dat ∧
      u.pins.csN = (if k = 0 ∧ fate ≠ .stall then s.pins.csN else false) := by
  have hbegun : PanelOnly (s.setSt .tx) ((setDevuIf (streamDevu s .write) s).setSt .tx) :=
    (setDevuIf_panelOnly _ s).setSt .tx
  have hbus : ((setDevuIf (streamDevu s .write) s).setSt .tx).env.bus = (k, fate) :: r := by
    rw [hbegun.env]; exact h
  obtain ⟨u, hdead, hkeeps, hflat, hcs⟩ := busData_struck hbus hne hk
  refine ⟨u, ?_, (hbegun.setBus r).busOnly.trans hkeeps, hflat.trans ?_, hcs.trans ?_⟩
  · simp only [exec, execWrpix, opWrpix, dpWrpix, hdead, Run.andThen_dead, Play.outcome_ofRun, Run.state_dead]
  · rw [flat_congr hbegun.out]; rfl
  · rw [hbegun.pins]; rfl

end

/-- A fault strikes by fault entry with its own code (R290). -/
theorem strike_eq_enterFault {fate : BusFate} {code : BitVec 8}
    (h : (fate = .busError ∧ code = 3) ∨ (fate = .timingFault ∧ code = 4)) (s : State) :
    fate.strike s = enterFault code .nothing s := by
  obtain ⟨rfl, rfl⟩ | ⟨rfl, rfl⟩ := h <;> rfl

/-- Settles O21: the operation was under way as `exec_wrpix_struck` says, and fault entry leaves the rest alone. -/
theorem busFaultAfterAnyPrefix : Obligations.BusFaultAfterAnyPrefix := by
  intro s buf k fate r code hcode hbus hne hk
  obtain ⟨u, he, hu, hflat, hcs⟩ := exec_wrpix_struck hbus hne hk
  have hf : fate ≠ .stall := by
    rintro rfl
    simp at hcode
  rw [strike_eq_enterFault hcode] at he
  refine ⟨_, he, hflat, ?fault, ?fs, rfl, rfl, (congrArg Ctl.blocked hu.ctl :),
    (congrArg DpRegs.mode hu.dp :), (congrArg DpRegs.win hu.dp :), ?csN, (congrArg Env.bus hu.env :), hu.ie, hu.gs⟩
  case fault => simp only [enterFault, hu.fault]; rfl
  case fs => simp only [enterFault, hu.fs]; rfl
  case csN => exact hcs.trans (by simp [hf])

/-! ### A stuck thread -/

/-- A stuck or hung thread has no next step (R302, R303). -/
theorem step_of_blocked {s : State} {b : Block} (h : s.ctl.blocked = some b) : step s = .fault b.fault := by
  simp only [step, h]

/-- Settles O22: a stall leaves the operation where it was, under way as `exec_wrpix_struck` says, and only marks the
thread. -/
theorem stalledBusBlocksForEver : Obligations.StalledBusBlocksForEver := by
  refine ⟨fun s buf k r hbus hne hk => ?_, fun _ => step_of_blocked, fun _ => step_of_blocked,
    fun _ => step_of_blocked⟩
  obtain ⟨u, he, hu, hflat, hcs⟩ := exec_wrpix_struck hbus hne hk
  have hblocked : (BusFate.stall.strike u).ctl.blocked = some .bus := rfl
  exact ⟨_, he, hflat, hblocked, congrArg DpRegs.st hu.dp, hcs.trans (by simp), hu.fault, hu.fs,
    step_of_blocked hblocked⟩

end Sys2Proof.Machine
end

section
/-! SUPPORT. The state after power-on reset (10_state.md R50, 70_reset_and_hazards.md R330): what the panel, the
sequencer and the parameters start as, and that every invariant holds there. -/

namespace Sys2Proof.Machine

/-! ### Power-on: a panel with no cell, a port with nothing at it -/

/-- No cell of the undefined panel holds a byte (20_memory.md R84). -/
theorem panel_undef_gram_read (n a : Nat) : (Panel.undef n).gram.read a = none := rfl

/-- The undefined panel is canonical, whatever its free values are. -/
theorem panelWf_of_undef {s : State} {n : Nat} (h : s.pan = Panel.undef n) : PanelWf s := by
  rw [PanelWf, h]
  exact ⟨rfl, rfl⟩

/-- A thread that is not stuck, has no phase to run and is offered no operation waits (R330). -/
theorem step_of_waiting {s : State} (hb : s.ctl.blocked = none) (hm : s.ctl.micro = none) (hh : s.env.host = []) :
    step s = .next s := by
  simp only [step, hb, hm, hh]

/-- Settles O7: the registers hold what `State.reset` puts there; no cell of the undefined panel holds a byte, and with
nothing at the port the hardware waits. -/
theorem powerOnReset : Obligations.PowerOnReset :=
  ⟨rfl, rfl, rfl, rfl, rfl, rfl, rfl, rfl, rfl, rfl, rfl, rfl, rfl, rfl, rfl, rfl, rfl, rfl, rfl, rfl, rfl, rfl, rfl,
    rfl, rfl, panel_undef_gram_read 0, step_of_waiting rfl rfl rfl⟩

/-! ### The invariants at power-on -/

/-- Nothing has been sent yet: the empty trace stands outside a transaction, and CS_n is 1. -/
theorem framed_reset : Framed State.reset :=
  FramedAt.framed (par := Config.params) ⟨rfl, Bool.false_ne_true, nofun, fun _ => ⟨rfl, rfl⟩⟩

/-- FS.LAST and FS.TSTART are no later than the Clock's 0, and there is no candidate tap (log entries 1 and 10). -/
theorem timesPast_reset : TimesPast State.reset := ⟨le_rfl, le_rfl, nofun⟩

/-- The defaults of R9, an open period made positive (D27), and an open INIT_SEQ of R136's shape. -/
theorem parametersOk_reset : ParametersOk State.reset where
  width := by decide
  height := by decide
  period := Nat.succ_pos Config.periodPred
  rstLow := le_rfl
  rstHigh := le_rfl
  slpout := le_rfl
  dispon := le_rfl
  cmds := (by decide : Config.cmdBytes.Distinct)
  init := Config.initGroups_shape
  levels := Bool.false_ne_true
  chunk := by decide

/-- Settles O60, one invariant at a time. -/
theorem resetMeetsInvariants : Obligations.ResetMeetsInvariants := by
  obtain ⟨htext, hbounded⟩ : CachesSound State.reset := cachesSound_clear State.reset
  exact ⟨framed_reset, panelWf_of_undef rfl, htext, hbounded, timesPast_reset, sequencerIdle_of_idle rfl, rfl, rfl,
    parametersOk_reset⟩

end Sys2Proof.Machine
end
